-- ==== Sys2Proof/Word.lean ====
section
/-! DEFINITION. The word types of spec/00_scope.md R10, R12: an octet, the 16- and 64-bit words, the
3-bit Virtual Channel ID of spec/30_encoding.md R73, and byte strings. -/

namespace Sys2Proof

/-- R12: an octet, `u8`. -/
abbrev Byte := BitVec 8

/-- R10: `u16`. -/
abbrev Word16 := BitVec 16

/-- R10: `u64`. -/
abbrev Word64 := BitVec 64

/-- R8, R73: a Virtual Channel ID operand, `u3`, 0 to 7. -/
abbrev Vcid := BitVec 3

/-- R12: a finite sequence of octets; index 0 is the first on the wire. -/
abbrev Bytes := List Byte

end Sys2Proof
end

