-- ==== Sys2Proof/Config.lean ====
section
/-! DEFINITION. The eight implementation parameters of spec/00_scope.md R9. They are fixed for one
machine: State holds one `Config` and no step changes it, so that a statement about every state is a
statement about every value of the parameters (log 3). -/

namespace Sys2Proof

/-- R9: the values the source leaves open, each a named parameter. -/
structure Config where
  /-- `MAX_DEPTH` (D17): the largest MaxBufferSize `VC_CREATE` accepts; `none` is no limit. -/
  maxDepth : Option Nat
  /-- `PRIO_W` (D22): the width in bits of a stored priority weight. -/
  prioW : Nat
  /-- `MUX_ORDER` (D20): the VCIDs in the order that gives registered channels their positions. -/
  muxOrder : List Vcid
  /-- `MUX_CURSOR_RESET` (D21): the value of `MUX.last_used` after reset. -/
  muxCursorReset : Nat
  /-- `MCID_SHIFT` (D29): the shift count in `get_mcid`. -/
  mcidShift : Nat
  /-- `TMSH_BOUND_ENFORCED` (D10): TM Secondary Header validation bounds the DataField. -/
  tmshBoundEnforced : Bool
  /-- `HAS_SPP_PACKET` (D25): unit U5 and its four commands exist. -/
  hasSppPacket : Bool
  /-- `MAX_BYTES` (D32): the largest byte-string operand the port carries; `none` is no limit. -/
  maxBytes : Option Nat
deriving DecidableEq, Repr

/-- R9: every parameter at its default. -/
def Config.default : Config :=
  { maxDepth := none
    prioW := 32
    muxOrder := [0, 1, 2, 3, 4, 5, 6, 7]
    muxCursorReset := 0
    mcidShift := 8
    tmshBoundEnforced := false
    hasSppPacket := true
    maxBytes := none }

/-- R9: `MUX_ORDER` is a total order on the VCIDs 0 to 7, that is a list that names each of the eight
exactly once (log 9). The other seven parameters may have any value of their type. -/
abbrev Config.wf (c : Config) : Prop :=
  c.muxOrder.Nodup ∧ ∀ v : Vcid, v ∈ c.muxOrder

end Sys2Proof
end

