-- ==== Sys2Proof/Syntax.lean ====
section
/-! DEFINITION. What travels on the command port: the record types of spec/10_state.md R31 to R36,
the options of spec/46_spp_packet.md R261, the operands of a command (spec/30_encoding.md R70, R73),
the commands themselves (R72: one constructor of `Instr` per row of spec/opcode_table.json), and the
responses (R74, spec/60_exceptions.md R300). -/

namespace Sys2Proof

/-- R31: the SPP Primary Header, each field in its container (wider than its valid range, D5). -/
structure SppPrimaryHeader where
  version : Byte
  type : Byte
  secHdrFlag : Byte
  apid : Word16
  seqFlags : Byte
  seqCount : Word16
  packetLength : Word16
deriving DecidableEq, Repr

/-- R32: one entry of an SPP Secondary Header's ordered mapping; `tag = 1` is a string value. -/
structure SppField where
  key : Bytes
  tag : Byte
  value : Bytes
deriving DecidableEq, Repr

/-- R32: the SPP Secondary Header. -/
structure SppSecondaryHeader where
  timestamp : Word64
  otherFields : List SppField
deriving DecidableEq, Repr

/-- R33: the SPP packet. -/
structure SpacePacket where
  header : SppPrimaryHeader
  sec : Option SppSecondaryHeader
  userData : Bytes
  errorControl : Option Word16
deriving DecidableEq, Repr

/-- R34: the TM Primary Header, each field in its container. -/
structure TmPrimaryHeader where
  version : Byte
  scid : Word16
  vcid : Byte
  ocfFlag : Bool
  mcCount : Byte
  vcCount : Byte
  fshFlag : Bool
  syncFlag : Bool
  pktOrderFlag : Bool
  segLenId : Byte
  fhp : Word16
deriving DecidableEq, Repr

/-- R35: the TM Secondary Header. -/
structure TmSecondaryHeader where
  version : Byte
  headerLength : Byte
  dataField : Bytes
deriving DecidableEq, Repr

/-- R36: `Bytes[4]`, the four uninterpreted octets of an Operational Control Field (UB15). -/
structure Octets4 where
  o0 : Byte
  o1 : Byte
  o2 : Byte
  o3 : Byte
deriving DecidableEq, Repr

/-- R36: the TM Transfer Frame. -/
structure Frame where
  header : TmPrimaryHeader
  sec : Option TmSecondaryHeader
  data : Bytes
  ocf : Option Octets4
  fec : Word16
deriving DecidableEq, Repr

/-- R73, R261: a construction option of `SPP_PKT_NEW`. -/
inductive SppOption where
  | withSecondaryHeader (s : SppSecondaryHeader)
  | withErrorControl (crc : Word16)
deriving DecidableEq, Repr

/-- R73: the types an operand can have. -/
inductive OperandType where
  | bytes | u16 | u8 | vcid | nat | prio | bool | ocf
  | sppPh | sppSh | tmPh | tmSh | frame | packet | options
deriving DecidableEq, Repr

/-- R70, R73: one typed operand of a command. Operands are values, not bit strings: the spec fixes no
serialisation of them (log 2). A priority weight is held as an integer; that it fits PRIO_W bits is
an operand check (log 8). -/
inductive Operand where
  | bytes (b : Bytes)
  | u16 (v : Word16)
  | u8 (v : Byte)
  | vcid (v : Vcid)
  | nat (n : Nat)
  | prio (w : Int)
  | bool (b : Bool)
  | ocf (o : Option Octets4)
  | sppPh (h : SppPrimaryHeader)
  | sppSh (s : SppSecondaryHeader)
  | tmPh (h : TmPrimaryHeader)
  | tmSh (s : TmSecondaryHeader)
  | frame (f : Frame)
  | packet (p : SpacePacket)
  | options (os : List SppOption)
deriving DecidableEq, Repr

/-- R70: a command as it is put on the port: format `CMD8`, the opcode octet and the operand tuple. -/
structure Command where
  op : Byte
  args : List Operand
deriving DecidableEq, Repr

/-- What comes to the block from outside: a command on the port (R3), or the reset event, which is no
command (spec/70_reset_and_hazards.md R340; log 5). -/
inductive PortEvent where
  | command (c : Command)
  | reset
deriving DecidableEq, Repr

/-- Why an operand of the right type cannot be put on the port, and so has no rule. -/
inductive OffPort where
  /-- A key or value of an SPP Secondary Header field is longer than `Str16` holds (R12, R84, UB7). -/
  | stringTooLong
  /-- An SPP Secondary Header operand names a key twice (R32, UB6: "a model should refuse it"). -/
  | repeatedKey
  /-- A priority weight does not fit `iPRIO_W` (R26, R70, R73). -/
  | priorityRange
  /-- A byte-string operand is longer than `MAX_BYTES` (R71). -/
  | byteStringTooLong
deriving DecidableEq, Repr

/-- R72, R73: the commands with their operands, one constructor per row of the opcode table, in the
table's order. -/
inductive Instr where
  | crcInit
  | crcUpdate (data : Bytes)
  | crcRead
  | crcCompute (data : Bytes)
  | sppPhEnc (h : SppPrimaryHeader)
  | sppPhDec (bytes : Bytes)
  | sppPhValidate (h : SppPrimaryHeader)
  | sppShEnc (sh : SppSecondaryHeader)
  | sppShDec (bytes : Bytes)
  | sppShValidate (sh : SppSecondaryHeader)
  | tmPhEnc (h : TmPrimaryHeader)
  | tmPhDec (bytes : Bytes)
  | tmPhValidate (h : TmPrimaryHeader)
  | tmGetMcid (h : TmPrimaryHeader)
  | tmGetGvcid (h : TmPrimaryHeader)
  | tmShEnc (sh : TmSecondaryHeader)
  | tmShDec (bytes : Bytes)
  | tmShValidate (sh : TmSecondaryHeader)
  | tmfNew (scid : Word16) (vcid : Byte) (data shBytes : Bytes) (ocf : Option Octets4) (sync : Bool)
  | tmfEncode (f : Frame)
  | tmfEncodeNofec (f : Frame)
  | tmfDecode (bytes : Bytes)
  | vcCreate (v : Vcid) (maxBufferSize : Nat)
  | vcAddFrame (v : Vcid) (f : Frame)
  | vcGetNextFrame (v : Vcid)
  | vcHasFrames (v : Vcid)
  | muxAddChannel (v : Vcid) (priority : Int)
  | muxGetNextFrame
  | sppPktNew (apid : Word16) (type : Byte) (data : Bytes) (options : List SppOption)
  | sppPktEncode (p : SpacePacket)
  | sppPktDecode (bytes : Bytes)
  | sppPktValidate (p : SpacePacket)
deriving DecidableEq, Repr

/-- R300: the error statuses, every status but `OK`. Four of them are never produced by the block
(R303, R311); their codes are kept. -/
inductive ErrorStatus where
  | validationError
  | malformedHeader
  | unexpectedEOF
  | integrityError
  | bufferFull
  | empty
  | noFramesAvailable
  | noChannels
  | unsupportedFieldType
  | secondaryHeaderMissing
  | serviceNotFound
  | masterChannelNotFound
  | scidMismatch
  | illegalCommand
  | channelNotFound
  | channelExists
deriving DecidableEq, Repr

/-- R73: the results a successful command can carry. -/
inductive Result where
  | unit
  | crc (v : Word16)
  | bytes (b : Bytes)
  | sppPh (h : SppPrimaryHeader)
  | sppSh (s : SppSecondaryHeader)
  | tmPh (h : TmPrimaryHeader)
  | tmSh (s : TmSecondaryHeader)
  | mcid (v : Word16)
  | gvcid (v : Word16)
  | frame (f : Frame)
  | has (b : Bool)
  | packet (p : SpacePacket)
deriving DecidableEq, Repr

/-- R74: a response: status `OK` with the results, or another status and nothing else. -/
inductive Response where
  | ok (r : Result)
  | fail (e : ErrorStatus)
deriving DecidableEq, Repr

end Sys2Proof
end

