-- ==== Sys2Proof/Machine/Operands.lean ====
section
/-! DEFINITION. The operand forms of spec/30_encoding.md R73: their types, the zero operand of each
type (log 2), and the checks that say which operand values can be put on the port at all (R70, R71;
spec/10_state.md R26, R32; UB6, UB7). -/

namespace Sys2Proof.Machine

/-- R36: the four octets of an Operational Control Field, in wire order. -/
def octets4 (o : Octets4) : Bytes := [o.o0, o.o1, o.o2, o.o3]

/-- R36: an Operational Control Field from exactly four octets. -/
def toOctets4 : Bytes → Option Octets4
  | [a, b, c, d] => some { o0 := a, o1 := b, o2 := c, o3 := d }
  | _ => none

/-- R73: the type of an operand. -/
def typeOf : Operand → OperandType
  | .bytes _ => .bytes
  | .u16 _ => .u16
  | .u8 _ => .u8
  | .vcid _ => .vcid
  | .nat _ => .nat
  | .prio _ => .prio
  | .bool _ => .bool
  | .ocf _ => .ocf
  | .sppPh _ => .sppPh
  | .sppSh _ => .sppSh
  | .tmPh _ => .tmPh
  | .tmSh _ => .tmSh
  | .frame _ => .frame
  | .packet _ => .packet
  | .options _ => .options

/-- R31: the SPP Primary Header with every field 0. -/
def zeroSppPh : SppPrimaryHeader :=
  { version := 0, type := 0, secHdrFlag := 0, apid := 0, seqFlags := 0, seqCount := 0,
    packetLength := 0 }

/-- R34: the TM Primary Header with every field 0. -/
def zeroTmPh : TmPrimaryHeader :=
  { version := 0, scid := 0, vcid := 0, ocfFlag := false, mcCount := 0, vcCount := 0,
    fshFlag := false, syncFlag := false, pktOrderFlag := false, segLenId := 0, fhp := 0 }

/-- The zero operand of a type: 0, false, `none`, the empty string or list, the record of these. It
stands for "operand words of zeros" where the opcode table gives operands no bits (log 2). -/
def zeroOperand : OperandType → Operand
  | .bytes => .bytes []
  | .u16 => .u16 0
  | .u8 => .u8 0
  | .vcid => .vcid 0
  | .nat => .nat 0
  | .prio => .prio 0
  | .bool => .bool false
  | .ocf => .ocf none
  | .sppPh => .sppPh zeroSppPh
  | .sppSh => .sppSh { timestamp := 0, otherFields := [] }
  | .tmPh => .tmPh zeroTmPh
  | .tmSh => .tmSh { version := 0, headerLength := 0, dataField := [] }
  | .frame => .frame { header := zeroTmPh, sec := none, data := [], ocf := none, fec := 0 }
  | .packet => .packet { header := zeroSppPh, sec := none, userData := [], errorControl := none }
  | .options => .options []

/-- R72, R73: each assigned opcode with the operand types of its command. -/
def opcodeTable : List (Nat × List OperandType) :=
  [(0x10, []), (0x11, [.bytes]), (0x12, []), (0x13, [.bytes]),
   (0x20, [.sppPh]), (0x21, [.bytes]), (0x22, [.sppPh]),
   (0x24, [.sppSh]), (0x25, [.bytes]), (0x26, [.sppSh]),
   (0x30, [.tmPh]), (0x31, [.bytes]), (0x32, [.tmPh]), (0x33, [.tmPh]), (0x34, [.tmPh]),
   (0x35, [.tmSh]), (0x36, [.bytes]), (0x37, [.tmSh]),
   (0x40, [.u16, .u8, .bytes, .bytes, .ocf, .bool]), (0x41, [.frame]), (0x42, [.frame]),
   (0x43, [.bytes]),
   (0x50, [.vcid, .nat]), (0x51, [.vcid, .frame]), (0x52, [.vcid]), (0x53, [.vcid]),
   (0x60, [.vcid, .prio]), (0x61, []),
   (0x70, [.u16, .u8, .bytes, .options]), (0x71, [.packet]), (0x72, [.bytes]), (0x73, [.packet])]

/-- R73: the operand types of an opcode; none for a reserved opcode, whose operands are not looked at
(R75). -/
def operandTypes (op : Byte) : List OperandType :=
  (opcodeTable.lookup op.toNat).getD []

/-- The command with opcode `op` and the zero operand tuple of R73's types (log 2). -/
def zeroCommand (op : Byte) : Command :=
  { op := op, args := (operandTypes op).map zeroOperand }

/-- R12: `Str16`, a byte string of 0 to 65535 octets. -/
def isStr16 (B : Bytes) : Bool := decide (B.length ≤ 65535)

/-- R32: the keys of a well-formed SPP Secondary Header are pairwise different. -/
def keysDistinct (fs : List SppField) : Bool := decide (fs.map SppField.key).Nodup

/-- R70, UB6, UB7: whether an SPP Secondary Header can be an operand. -/
def checkSppSh (s : SppSecondaryHeader) : Option OffPort :=
  if s.otherFields.all fun f => isStr16 f.key && isStr16 f.value then
    if keysDistinct s.otherFields then none else some .repeatedKey
  else some .stringTooLong

/-- R71: whether a byte string can be an operand under `MAX_BYTES`. -/
def checkBytes (cfg : Config) (B : Bytes) : Option OffPort :=
  match cfg.maxBytes with
  | none => none
  | some m => if B.length ≤ m then none else some .byteStringTooLong

/-- R10, R26: `-2^(w-1) ≤ p < 2^(w-1)`, written so that width 0 admits 0 alone. -/
def fitsSigned (w : Nat) (p : Int) : Bool := decide (-(2 ^ w : Int) ≤ 2 * p ∧ 2 * p < 2 ^ w)

/-- R26, R73: whether a weight can be an operand of type `iPRIO_W`. -/
def checkPrio (cfg : Config) (p : Int) : Option OffPort :=
  if fitsSigned cfg.prioW p then none else some .priorityRange

/-- R33: the secondary header inside a packet operand. -/
def checkPacket (p : SpacePacket) : Option OffPort :=
  match p.sec with
  | none => none
  | some s => checkSppSh s

/-- R261: the secondary headers inside an option list, in list order. -/
def checkOptions : List SppOption → Option OffPort
  | [] => none
  | .withSecondaryHeader s :: os => (checkSppSh s).or (checkOptions os)
  | .withErrorControl _ :: os => checkOptions os

/-- R70, R71: why the operands of a command cannot be put on the port, `none` if they can. -/
def offPort (cfg : Config) : Instr → Option OffPort
  | .crcInit => none
  | .crcUpdate data => checkBytes cfg data
  | .crcRead => none
  | .crcCompute data => checkBytes cfg data
  | .sppPhEnc _ => none
  | .sppPhDec bytes => checkBytes cfg bytes
  | .sppPhValidate _ => none
  | .sppShEnc sh => checkSppSh sh
  | .sppShDec bytes => checkBytes cfg bytes
  | .sppShValidate sh => checkSppSh sh
  | .tmPhEnc _ => none
  | .tmPhDec bytes => checkBytes cfg bytes
  | .tmPhValidate _ => none
  | .tmGetMcid _ => none
  | .tmGetGvcid _ => none
  | .tmShEnc _ => none
  | .tmShDec bytes => checkBytes cfg bytes
  | .tmShValidate _ => none
  | .tmfNew _ _ data shBytes _ _ => (checkBytes cfg data).or (checkBytes cfg shBytes)
  | .tmfEncode _ => none
  | .tmfEncodeNofec _ => none
  | .tmfDecode bytes => checkBytes cfg bytes
  | .vcCreate _ _ => none
  | .vcAddFrame _ _ => none
  | .vcGetNextFrame _ => none
  | .vcHasFrames _ => none
  | .muxAddChannel _ p => checkPrio cfg p
  | .muxGetNextFrame => none
  | .sppPktNew _ _ data options => (checkBytes cfg data).or (checkOptions options)
  | .sppPktEncode p => checkPacket p
  | .sppPktDecode bytes => checkBytes cfg bytes
  | .sppPktValidate p => checkPacket p

end Sys2Proof.Machine
end

