-- ==== Sys2Proof/WellFormed.lean ====
section
/-! DEFINITION. Which commands are well formed: those whose operands can be put on the port
(spec/30_encoding.md R70: "A value outside an operand's type cannot be put on the port and needs no
rule"; R71; spec/10_state.md R32). The checks are Sys2Proof.Machine.offPort's. -/

namespace Sys2Proof

/-- R70, R71: every operand of the command is a value its operand type admits. -/
abbrev Instr.wellFormed (cfg : Config) (i : Instr) : Prop := Machine.offPort cfg i = none

end Sys2Proof
end

