-- ==== Sys2Proof/Decode.lean ====
section
/-! DEFINITION. From a command on the port to a command of `Instr` and back, from the opcode map
spec/30_encoding.md R72 and the operand table R73. -/

namespace Sys2Proof

/-- Why a command on the port is none of R72's. -/
inductive DecodeError where
  /-- R75: the opcode is reserved; the block answers `IllegalCommand`. -/
  | reservedOpcode
  /-- R70: the operand tuple is not of R73's types, so it cannot be on the port; no rule covers it. -/
  | operandTypes
deriving DecidableEq, Repr

/-- R72, R73, R75: the command an opcode and its operand tuple name. A reserved opcode is recognised
before the operands are looked at; the group 7 opcodes exist only when `HAS_SPP_PACKET` is true. -/
def decode (cfg : Config) (c : Command) : Except DecodeError Instr :=
  match c.op.toNat with
  | 0x10 => match c.args with | [] => .ok .crcInit | _ => .error .operandTypes
  | 0x11 => match c.args with | [.bytes d] => .ok (.crcUpdate d) | _ => .error .operandTypes
  | 0x12 => match c.args with | [] => .ok .crcRead | _ => .error .operandTypes
  | 0x13 => match c.args with | [.bytes d] => .ok (.crcCompute d) | _ => .error .operandTypes
  | 0x20 => match c.args with | [.sppPh h] => .ok (.sppPhEnc h) | _ => .error .operandTypes
  | 0x21 => match c.args with | [.bytes b] => .ok (.sppPhDec b) | _ => .error .operandTypes
  | 0x22 => match c.args with | [.sppPh h] => .ok (.sppPhValidate h) | _ => .error .operandTypes
  | 0x24 => match c.args with | [.sppSh s] => .ok (.sppShEnc s) | _ => .error .operandTypes
  | 0x25 => match c.args with | [.bytes b] => .ok (.sppShDec b) | _ => .error .operandTypes
  | 0x26 => match c.args with | [.sppSh s] => .ok (.sppShValidate s) | _ => .error .operandTypes
  | 0x30 => match c.args with | [.tmPh h] => .ok (.tmPhEnc h) | _ => .error .operandTypes
  | 0x31 => match c.args with | [.bytes b] => .ok (.tmPhDec b) | _ => .error .operandTypes
  | 0x32 => match c.args with | [.tmPh h] => .ok (.tmPhValidate h) | _ => .error .operandTypes
  | 0x33 => match c.args with | [.tmPh h] => .ok (.tmGetMcid h) | _ => .error .operandTypes
  | 0x34 => match c.args with | [.tmPh h] => .ok (.tmGetGvcid h) | _ => .error .operandTypes
  | 0x35 => match c.args with | [.tmSh s] => .ok (.tmShEnc s) | _ => .error .operandTypes
  | 0x36 => match c.args with | [.bytes b] => .ok (.tmShDec b) | _ => .error .operandTypes
  | 0x37 => match c.args with | [.tmSh s] => .ok (.tmShValidate s) | _ => .error .operandTypes
  | 0x40 =>
    match c.args with
    | [.u16 scid, .u8 vcid, .bytes data, .bytes sh, .ocf o, .bool sync] =>
      .ok (.tmfNew scid vcid data sh o sync)
    | _ => .error .operandTypes
  | 0x41 => match c.args with | [.frame f] => .ok (.tmfEncode f) | _ => .error .operandTypes
  | 0x42 => match c.args with | [.frame f] => .ok (.tmfEncodeNofec f) | _ => .error .operandTypes
  | 0x43 => match c.args with | [.bytes b] => .ok (.tmfDecode b) | _ => .error .operandTypes
  | 0x50 => match c.args with | [.vcid v, .nat n] => .ok (.vcCreate v n) | _ => .error .operandTypes
  | 0x51 =>
    match c.args with
    | [.vcid v, .frame f] => .ok (.vcAddFrame v f)
    | _ => .error .operandTypes
  | 0x52 => match c.args with | [.vcid v] => .ok (.vcGetNextFrame v) | _ => .error .operandTypes
  | 0x53 => match c.args with | [.vcid v] => .ok (.vcHasFrames v) | _ => .error .operandTypes
  | 0x60 =>
    match c.args with
    | [.vcid v, .prio w] => .ok (.muxAddChannel v w)
    | _ => .error .operandTypes
  | 0x61 => match c.args with | [] => .ok .muxGetNextFrame | _ => .error .operandTypes
  | 0x70 =>
    if cfg.hasSppPacket then
      match c.args with
      | [.u16 apid, .u8 type, .bytes data, .options os] => .ok (.sppPktNew apid type data os)
      | _ => .error .operandTypes
    else .error .reservedOpcode
  | 0x71 =>
    if cfg.hasSppPacket then
      match c.args with | [.packet p] => .ok (.sppPktEncode p) | _ => .error .operandTypes
    else .error .reservedOpcode
  | 0x72 =>
    if cfg.hasSppPacket then
      match c.args with | [.bytes b] => .ok (.sppPktDecode b) | _ => .error .operandTypes
    else .error .reservedOpcode
  | 0x73 =>
    if cfg.hasSppPacket then
      match c.args with | [.packet p] => .ok (.sppPktValidate p) | _ => .error .operandTypes
    else .error .reservedOpcode
  | _ => .error .reservedOpcode

/-- R72: the opcode of a command. -/
def opcode : Instr → Byte
  | .crcInit => 0x10
  | .crcUpdate _ => 0x11
  | .crcRead => 0x12
  | .crcCompute _ => 0x13
  | .sppPhEnc _ => 0x20
  | .sppPhDec _ => 0x21
  | .sppPhValidate _ => 0x22
  | .sppShEnc _ => 0x24
  | .sppShDec _ => 0x25
  | .sppShValidate _ => 0x26
  | .tmPhEnc _ => 0x30
  | .tmPhDec _ => 0x31
  | .tmPhValidate _ => 0x32
  | .tmGetMcid _ => 0x33
  | .tmGetGvcid _ => 0x34
  | .tmShEnc _ => 0x35
  | .tmShDec _ => 0x36
  | .tmShValidate _ => 0x37
  | .tmfNew _ _ _ _ _ _ => 0x40
  | .tmfEncode _ => 0x41
  | .tmfEncodeNofec _ => 0x42
  | .tmfDecode _ => 0x43
  | .vcCreate _ _ => 0x50
  | .vcAddFrame _ _ => 0x51
  | .vcGetNextFrame _ => 0x52
  | .vcHasFrames _ => 0x53
  | .muxAddChannel _ _ => 0x60
  | .muxGetNextFrame => 0x61
  | .sppPktNew _ _ _ _ => 0x70
  | .sppPktEncode _ => 0x71
  | .sppPktDecode _ => 0x72
  | .sppPktValidate _ => 0x73

/-- R73: the operand tuple of a command. -/
def operands : Instr → List Operand
  | .crcInit => []
  | .crcUpdate data => [.bytes data]
  | .crcRead => []
  | .crcCompute data => [.bytes data]
  | .sppPhEnc h => [.sppPh h]
  | .sppPhDec bytes => [.bytes bytes]
  | .sppPhValidate h => [.sppPh h]
  | .sppShEnc sh => [.sppSh sh]
  | .sppShDec bytes => [.bytes bytes]
  | .sppShValidate sh => [.sppSh sh]
  | .tmPhEnc h => [.tmPh h]
  | .tmPhDec bytes => [.bytes bytes]
  | .tmPhValidate h => [.tmPh h]
  | .tmGetMcid h => [.tmPh h]
  | .tmGetGvcid h => [.tmPh h]
  | .tmShEnc sh => [.tmSh sh]
  | .tmShDec bytes => [.bytes bytes]
  | .tmShValidate sh => [.tmSh sh]
  | .tmfNew scid vcid data shBytes ocf sync =>
    [.u16 scid, .u8 vcid, .bytes data, .bytes shBytes, .ocf ocf, .bool sync]
  | .tmfEncode f => [.frame f]
  | .tmfEncodeNofec f => [.frame f]
  | .tmfDecode bytes => [.bytes bytes]
  | .vcCreate v n => [.vcid v, .nat n]
  | .vcAddFrame v f => [.vcid v, .frame f]
  | .vcGetNextFrame v => [.vcid v]
  | .vcHasFrames v => [.vcid v]
  | .muxAddChannel v w => [.vcid v, .prio w]
  | .muxGetNextFrame => []
  | .sppPktNew apid type data options => [.u16 apid, .u8 type, .bytes data, .options options]
  | .sppPktEncode p => [.packet p]
  | .sppPktDecode bytes => [.bytes bytes]
  | .sppPktValidate p => [.packet p]

/-- R70: the command as it is put on the port. -/
def encode (i : Instr) : Command := { op := opcode i, args := operands i }

/-- The command read from an opcode-table word: the low octet of `w` is the opcode (`CMD8` has no
other bits, R70), with the zero operand tuple of the opcode and the parameters at their defaults
(log 2). -/
def decodeTableWord (nbits w : Nat) : Option Instr :=
  match decode Config.default (Machine.zeroCommand (BitVec.ofNat 8 (w % 2 ^ nbits))) with
  | .ok i => some i
  | .error _ => none

end Sys2Proof
end

