-- ==== Sys2Proof/Machine/Bits.lean ====
section
/-! DEFINITION. Byte-order and slice helpers of spec/00_scope.md R12 (big-endian, spec/20_memory.md
R50). -/

namespace Sys2Proof.Machine

/-- R12: `be16(v) = [v[15:8], v[7:0]]`. -/
def be16 (v : Word16) : Bytes := [v.extractLsb' 8 8, v.extractLsb' 0 8]

/-- R12: `be64(v) = [v[63:56], v[55:48], ..., v[7:0]]`. -/
def be64 (v : Word64) : Bytes :=
  [v.extractLsb' 56 8, v.extractLsb' 48 8, v.extractLsb' 40 8, v.extractLsb' 32 8,
   v.extractLsb' 24 8, v.extractLsb' 16 8, v.extractLsb' 8 8, v.extractLsb' 0 8]

/-- R12: `from_be16` of the two octets `hi, lo`. -/
def word16 (hi lo : Byte) : Word16 := hi ++ lo

/-- R12: `from_be64` of eight octets. -/
def word64 (a b c d e f g h : Byte) : Word64 := a ++ b ++ c ++ d ++ e ++ f ++ g ++ h

/-- R12: `B[a..b)`. -/
def slice (B : Bytes) (a b : Nat) : Bytes := (B.take b).drop a

/-- R12: `from_be16` on `Bytes[2]`; every use in the model is on exactly two octets. -/
def fromBe16 : Bytes → Word16
  | [hi, lo] => word16 hi lo
  | _ => 0

/-- A big-endian `u16` read at the front of a buffer, with the octets after it; `none` when the read
would run past the end (R136). -/
def readU16 : Bytes → Option (Word16 × Bytes)
  | hi :: lo :: rest => some (word16 hi lo, rest)
  | _ => none

/-- A big-endian `u64` read at the front of a buffer, with the octets after it. -/
def readU64 : Bytes → Option (Word64 × Bytes)
  | a :: b :: c :: d :: e :: f :: g :: h :: rest => some (word64 a b c d e f g h, rest)
  | _ => none

/-- `n` octets read at the front of a buffer, with the octets after them (R136). -/
def readN (n : Nat) (B : Bytes) : Option (Bytes × Bytes) :=
  if n ≤ B.length then some (B.take n, B.drop n) else none


end Sys2Proof.Machine
end

