-- ==== Sys2Proof/Machine/Flags.lean ====
section
/-! DEFINITION. The condition output. The block keeps no flag (spec/10_state.md R22); what stands in
their place is the 8-bit status of each response, with the codes of spec/60_exceptions.md R300. -/

namespace Sys2Proof.Machine

/-- R300: the code of each error status. -/
def errorCode : ErrorStatus → Byte
  | .validationError => 0x01
  | .malformedHeader => 0x02
  | .unexpectedEOF => 0x03
  | .integrityError => 0x04
  | .bufferFull => 0x05
  | .empty => 0x06
  | .noFramesAvailable => 0x07
  | .noChannels => 0x08
  | .unsupportedFieldType => 0x09
  | .secondaryHeaderMissing => 0x0A
  | .serviceNotFound => 0x0C
  | .masterChannelNotFound => 0x0D
  | .scidMismatch => 0x0E
  | .illegalCommand => 0x10
  | .channelNotFound => 0x11
  | .channelExists => 0x12

/-- R74, R300: the status octet of a response; `OK` is 0x00. -/
def statusOctet : Response → Byte
  | .ok _ => 0x00
  | .fail e => errorCode e

end Sys2Proof.Machine
end

