-- ==== Sys2Proof/Machine/State.lean ====
section
/-! DEFINITION. The state of the block (spec/10_state.md R23 to R27), its command port (log 1), its
parameters (spec/00_scope.md R9, log 3), and the state after reset (R39, spec/70_reset_and_hazards.md
R341). -/

namespace Sys2Proof.Machine

/-- No fault exists: "A model therefore has no stuck or waiting outcome for any command"
(spec/20_memory.md R58); trouble is reported by the status of the response (spec/60_exceptions.md
R300, R320), which is a next state. -/
inductive Fault where
deriving DecidableEq, Repr

/-- Where the model answers nothing. Each is safe: a claim about a run that meets one is not proved. -/
inductive Refusal where
  /-- An instruction without a meaning; raised by `exec`'s refused arms, of which there are none. Safe. -/
  | notModelled (mnemonic : String)
  /-- A command whose operand tuple is not of R73's types was put on the port (R70: it cannot be);
  raised by `step`. Safe. -/
  | operandTypes
  /-- A command with an operand value its type does not admit was put on the port (R70, R71, R32);
  raised by `step`. Safe. -/
  | offPort (why : OffPort)
  /-- `SPP_SH_DEC` read a buffer whose field records repeat a key (R136: "a model should give such a
  buffer no meaning"; UB6: refuse); raised by `execSppShDec` (log 6). Safe. -/
  | repeatedKeyDecoded
deriving DecidableEq, Repr

/-- R25: the slot of one Virtual Channel. -/
structure Slot where
  /-- The channel has been created by `VC_CREATE`. -/
  present : Bool
  /-- `MaxBufferSize`, the capacity in frames. -/
  max : Nat
  /-- The queue; index 0 is the oldest frame. -/
  q : List Frame
deriving DecidableEq, Repr

/-- R23: the whole state of the block, with its parameters and its port. -/
structure State where
  /-- R9: the implementation parameters; no step changes them (log 3). -/
  cfg : Config
  /-- R24: the register of the CRC generator. -/
  crc : Word16
  /-- R25: the eight Virtual Channel slots, by VCID. -/
  vc : Vector Slot 8
  /-- R26: which channels are registered with the multiplexer, by VCID. -/
  muxReg : Vector Bool 8
  /-- R26: the priority weights, by VCID. -/
  muxPrio : Vector Int 8
  /-- R27: the multiplexer's cursor, a position. -/
  muxLastUsed : Nat
  /-- R3, R61: what the host has issued and the block has not yet taken, in issue order (log 1). -/
  input : List PortEvent
  /-- R74: the response to the last command since reset (log 1). -/
  response : Option Response
deriving DecidableEq, Repr

/-- R25, R39: a slot after reset. -/
def Slot.reset : Slot := { present := false, max := 0, q := [] }

/-- R39, R341: every state element at its reset value, for a machine with parameters `cfg`. The port
is empty and has given no response (log 12). -/
def State.resetWith (cfg : Config) : State :=
  { cfg := cfg
    crc := 0xFFFF
    vc := Vector.replicate 8 Slot.reset
    muxReg := Vector.replicate 8 false
    muxPrio := Vector.replicate 8 0
    muxLastUsed := cfg.muxCursorReset
    input := []
    response := none }

/-- R39, R341: the machine right after reset, all parameters at R9's defaults. -/
def State.reset : State := State.resetWith Config.default

end Sys2Proof.Machine
end

