-- ==== Sys2Proof/Machine/Ops.lean ====
section
/-! DEFINITION. The named operations over the state: giving a response, the one way of failing
(spec/60_exceptions.md R320), the reset event (spec/70_reset_and_hazards.md R341), the queue
primitives (spec/00_scope.md R16), the registration table (spec/10_state.md R26, R28), and taking the
next event from the command port (spec/20_memory.md R61). -/

namespace Sys2Proof.Machine

/-- The outcome of a step of this machine. -/
abbrev Outcome := Host.Outcome State Fault Refusal

/-! ## Responses -/

/-- R74: the state with a response given on the port. -/
def State.respond (s : State) (r : Response) : State := { s with response := some r }

/-- R14: `return ok(r)`. -/
def State.ok (s : State) (r : Result) : Outcome := .next (s.respond (.ok r))

/-- R14, R320: `fail(e)`, the one shared operation of failing: the state as it was, and a response
with the error status and nothing else. It plays the part a trap plays in a processor. -/
def State.fail (s : State) (e : ErrorStatus) : Outcome := .next (s.respond (.fail e))

/-- A stateless command: `ok` with the result of a computation, or `fail` with its error. -/
def State.answer {α : Type} (s : State) (x : Except ErrorStatus α) (r : α → Result) : Outcome :=
  match x with
  | .ok a => s.ok (r a)
  | .error e => s.fail e

/-! ## Virtual Channel slots and queues -/

/-- R25: `VC[v]`. -/
def State.slot (s : State) (v : Vcid) : Slot := s.vc[v.toNat]'v.isLt

/-- R15: `VC[v] <- x`. -/
def State.setSlot (s : State) (v : Vcid) (x : Slot) : State :=
  { s with vc := s.vc.set v.toNat x v.isLt }

/-- R25: `VC[v].q`. -/
def State.queue (s : State) (v : Vcid) : List Frame := (s.slot v).q

/-- R15: `VC[v].q <- q`. -/
def State.setQueue (s : State) (v : Vcid) (q : List Frame) : State :=
  s.setSlot v { s.slot v with q := q }

/-- R16: `QLen(v)`. -/
def State.qLen (s : State) (v : Vcid) : Nat := (s.queue v).length

/-- R16: `QPush(v, f)`: `f` becomes the newest frame. -/
def State.qPush (s : State) (v : Vcid) (f : Frame) : State := s.setQueue v (s.queue v ++ [f])

/-- R16: `QPop(v)`: the oldest frame and the state without it; `none` on an empty queue, on which it
is not used. -/
def State.qPop (s : State) (v : Vcid) : Option (Frame × State) :=
  match s.queue v with
  | [] => none
  | f :: rest => some (f, s.setQueue v rest)

/-! ## The multiplexer's tables -/

/-- R26: `MUX.reg[v]`. -/
def State.registered (s : State) (v : Vcid) : Bool := s.muxReg[v.toNat]'v.isLt

/-- R26: `MUX.prio[v]`. -/
def State.prio (s : State) (v : Vcid) : Int := s.muxPrio[v.toNat]'v.isLt

/-- R240: `MUX.reg[v] <- true; MUX.prio[v] <- w`. -/
def State.register (s : State) (v : Vcid) (w : Int) : State :=
  { s with
    muxReg := s.muxReg.set v.toNat true v.isLt
    muxPrio := s.muxPrio.set v.toNat w v.isLt }

/-- R28, R241: `mux_order`, the registered channels in the order `MUX_ORDER`; position `p` is its
entry `p`, and `N` its length. -/
def State.muxOrder (s : State) : List Vcid := s.cfg.muxOrder.filter s.registered

/-! ## The port -/

/-- R340, R341: the reset event: every state element at its reset value. What the host has issued
after it is still to come, the parameters are the machine's, and it gives no response (log 5). -/
def State.resetEvent (s : State) : State := { State.resetWith s.cfg with input := s.input }

/-- What the block does with the next event on its port. -/
inductive Taken where
  /-- The event is dealt with: the state after it. -/
  | done (s : State)
  /-- A command to execute, on the state in which it is no longer on the port. -/
  | run (i : Instr) (s : State)
  /-- What is on the port cannot be there; the model answers nothing. -/
  | stop (r : Refusal)
deriving DecidableEq, Repr

/-- R70, R75: a command taken from the port: a reserved opcode is answered with `IllegalCommand` and
no change of state, whatever its operands; an operand tuple that cannot be put on the port is refused. -/
def State.takeCommand (s : State) (c : Command) : Taken :=
  match decode s.cfg c with
  | .error .reservedOpcode => .done (s.respond (.fail .illegalCommand))
  | .error .operandTypes => .stop .operandTypes
  | .ok i =>
    match offPort s.cfg i with
    | some why => .stop (.offPort why)
    | none => .run i s

/-- R61, R328: the first event on the port, taken off it; with no event the block holds its state and
does nothing (log 4). -/
def State.fetch (s : State) : Taken :=
  match s.input with
  | [] => .done s
  | .reset :: rest => .done { s with input := rest }.resetEvent
  | .command c :: rest => { s with input := rest }.takeCommand c

end Sys2Proof.Machine
end

