-- ==== Sys2Proof/Machine/Crc.lean ====
section
/-! DEFINITION. Unit U1, the CRC generator (spec/40_crc.md). -/

namespace Sys2Proof.Machine

/-- R110: one of the eight iterations: the test of bit 15 is made before the shift, the bit shifted
out is dropped, and 0x1021 is the polynomial. -/
def crcShift (r : Word16) : Word16 := if r.msb then (r <<< 1) ^^^ 0x1021 else r <<< 1

/-- R110: `crc16_step(c, b)`: the octet into the high byte of the register, then eight iterations. -/
def crc16Step (c : Word16) (b : Byte) : Word16 :=
  crcShift (crcShift (crcShift (crcShift (crcShift (crcShift (crcShift (crcShift
    (c ^^^ (b.setWidth 16 <<< 8)))))))))

/-- R111: `crc16_from(c, D)`. -/
def crc16From (c : Word16) (D : Bytes) : Word16 := D.foldl crc16Step c

/-- R111: `crc16(D)`: no final XOR, no reflection. -/
def crc16 (D : Bytes) : Word16 := crc16From 0xFFFF D

/-- R112. -/
def execCrcInit (s : State) : Outcome := { s with crc := 0xFFFF }.ok .unit

/-- R113: the register goes on from what it holds. -/
def execCrcUpdate (data : Bytes) (s : State) : Outcome :=
  { s with crc := crc16From s.crc data }.ok .unit

/-- R114: the read changes nothing. -/
def execCrcRead (s : State) : Outcome := s.ok (.crc s.crc)

/-- R115: the register keeps the result. -/
def execCrcCompute (data : Bytes) (s : State) : Outcome :=
  { s with crc := crc16 data }.ok (.crc (crc16 data))

end Sys2Proof.Machine
end

