-- ==== Sys2Proof/Machine/Mux.lean ====
section
/-! DEFINITION. Unit U4, the Virtual Channel multiplexer (spec/45_vc_multiplexer.md). -/

namespace Sys2Proof.Machine

/-- R242: the positions a call looks at, in order: `(last_used + k) mod N` for `k = 1..N`. -/
def muxPositions (lastUsed n : Nat) : List Nat :=
  (List.range n).map fun j => (lastUsed + (j + 1)) % n

/-- R242: the frame at the head of the channel at position `p`, with the state without it; `none`
when there is nothing to take there. -/
def State.muxPopAt (s : State) (p : Nat) : Option (Frame × State) :=
  match s.muxOrder[p]? with
  | none => none
  | some v => s.qPop v

/-- R242: the first position of the round that has a frame, the frame, and the state with the frame
removed and the cursor left there. Weights are not read (R243). -/
def State.muxSelect (s : State) : Option (Frame × State) :=
  (muxPositions s.muxLastUsed s.muxOrder.length).findSome? fun p =>
    match s.muxPopAt p with
    | none => none
    | some (f, t) => some (f, { t with muxLastUsed := p })

/-- R240: a channel must have been created; registering again replaces the weight. -/
def execMuxAddChannel (v : Vcid) (priority : Int) (s : State) : Outcome :=
  if (s.slot v).present then (s.register v priority).ok .unit else s.fail .channelNotFound

/-- R242: `NoChannels` before `NoFramesAvailable` (R315); a round that finds no frame is the case of
every registered channel being empty. -/
def execMuxGetNextFrame (s : State) : Outcome :=
  if s.muxOrder.length = 0 then s.fail .noChannels
  else
    match s.muxSelect with
    | none => s.fail .noFramesAvailable
    | some (f, t) => t.ok (.frame f)

end Sys2Proof.Machine
end

