-- ==== Sys2Proof/Machine/SppHeader.lean ====
section
/-! DEFINITION. Unit U2, the SPP header codec (spec/41_spp_header_codec.md), with the wire layouts of
spec/30_encoding.md R80 to R85. -/

namespace Sys2Proof.Machine

/-! ## Primary header -/

/-- R130: `spp_ph_valid`. -/
def sppPhValid (h : SppPrimaryHeader) : Bool :=
  decide (h.version.toNat ≤ 7 ∧ h.type.toNat ≤ 1 ∧ h.secHdrFlag.toNat ≤ 1 ∧ h.apid.toNat ≤ 2047 ∧
    h.seqFlags.toNat ≤ 3 ∧ h.seqCount.toNat ≤ 16383)

/-- R81: `spp_ph_pack`, used only on a valid header. -/
def sppPhPack (h : SppPrimaryHeader) : Bytes :=
  [h.version <<< 5 ||| h.type <<< 4 ||| h.secHdrFlag <<< 3 ||| (h.apid.extractLsb' 8 3).setWidth 8,
   h.apid.extractLsb' 0 8,
   h.seqFlags <<< 6 ||| (h.seqCount.extractLsb' 8 6).setWidth 8,
   h.seqCount.extractLsb' 0 8,
   h.packetLength.extractLsb' 8 8,
   h.packetLength.extractLsb' 0 8]

/-- R82: `spp_ph_unpack` of six octets; every field is zero-extended into its container. -/
def sppPhUnpack (b0 b1 b2 b3 b4 b5 : Byte) : SppPrimaryHeader :=
  { version := (b0.extractLsb' 5 3).setWidth 8
    type := (b0.extractLsb' 4 1).setWidth 8
    secHdrFlag := (b0.extractLsb' 3 1).setWidth 8
    apid := (b0.extractLsb' 0 3).setWidth 16 <<< 8 ||| b1.setWidth 16
    seqFlags := (b2.extractLsb' 6 2).setWidth 8
    seqCount := (b2.extractLsb' 0 6).setWidth 16 <<< 8 ||| b3.setWidth 16
    packetLength := b4.setWidth 16 <<< 8 ||| b5.setWidth 16 }

/-- R130: validation as a computation that may fail. -/
def sppPhCheck (h : SppPrimaryHeader) : Except ErrorStatus Unit :=
  if sppPhValid h then .ok () else .error .validationError

/-- R131: validation, then packing. -/
def sppPhEnc (h : SppPrimaryHeader) : Except ErrorStatus Bytes :=
  if sppPhValid h then .ok (sppPhPack h) else .error .validationError

/-- R132: the first six octets; what follows is ignored. -/
def sppPhDec : Bytes → Except ErrorStatus SppPrimaryHeader
  | b0 :: b1 :: b2 :: b3 :: b4 :: b5 :: _ =>
    if sppPhValid (sppPhUnpack b0 b1 b2 b3 b4 b5) then .ok (sppPhUnpack b0 b1 b2 b3 b4 b5)
    else .error .validationError
  | _ => .error .malformedHeader

/-! ## Secondary header -/

/-- R134: `spp_sh_valid`. -/
def sppShValid (s : SppSecondaryHeader) : Bool := decide (s.timestamp ≠ 0)

/-- R134: validation as a computation that may fail. -/
def sppShCheck (s : SppSecondaryHeader) : Except ErrorStatus Unit :=
  if sppShValid s then .ok () else .error .validationError

/-- R84: one field record, its tag already known to be 1. -/
def sppFieldPack (f : SppField) : Bytes :=
  be16 (BitVec.ofNat 16 f.key.length) ++ f.key ++ [0x01] ++
    be16 (BitVec.ofNat 16 f.value.length) ++ f.value

/-- R84, R135: the field records in list order; any tag but 1 ends the command. -/
def sppFieldsEnc : List SppField → Except ErrorStatus Bytes
  | [] => .ok []
  | f :: fs =>
    if f.tag = 1 then
      match sppFieldsEnc fs with
      | .ok B => .ok (sppFieldPack f ++ B)
      | .error e => .error e
    else .error .unsupportedFieldType

/-- R83, R135: the timestamp, then the field records. The timestamp is not validated (D8). -/
def sppShEnc (s : SppSecondaryHeader) : Except ErrorStatus Bytes :=
  match sppFieldsEnc s.otherFields with
  | .ok B => .ok (be64 s.timestamp ++ B)
  | .error e => .error e

/-- R136: one turn of the loop: one field record read at the front of the buffer. Every read that
would run past the end is `MalformedHeader`; the tag is tested as soon as it is read (R315). -/
def sppFieldRead (B : Bytes) : Except ErrorStatus (SppField × Bytes) :=
  match readU16 B with
  | none => .error .malformedHeader
  | some (kl, B1) =>
    match readN kl.toNat B1 with
    | none => .error .malformedHeader
    | some (_, []) => .error .malformedHeader
    | some (key, tag :: B2) =>
      if tag = 1 then
        match readU16 B2 with
        | none => .error .malformedHeader
        | some (vl, B3) =>
          match readN vl.toNat B3 with
          | none => .error .malformedHeader
          | some (value, B4) => .ok ({ key := key, tag := 1, value := value }, B4)
      else .error .unsupportedFieldType

/-- R136: the loop, until the buffer is exhausted. Each turn takes at least five octets, so that as
much fuel as the buffer has octets never runs out before the buffer does. -/
def sppFieldsRead : Nat → Bytes → Except ErrorStatus (List SppField)
  | _, [] => .ok []
  | 0, _ :: _ => .error .malformedHeader
  | n + 1, b :: B =>
    match sppFieldRead (b :: B) with
    | .error e => .error e
    | .ok (f, rest) =>
      match sppFieldsRead n rest with
      | .error e => .error e
      | .ok fs => .ok (f :: fs)

/-- R136: the timestamp, then the field records. The timestamp is not validated (D8). -/
def sppShDec (B : Bytes) : Except ErrorStatus SppSecondaryHeader :=
  match readU64 B with
  | none => .error .malformedHeader
  | some (ts, rest) =>
    match sppFieldsRead rest.length rest with
    | .error e => .error e
    | .ok fs => .ok { timestamp := ts, otherFields := fs }

/-! ## The commands -/

/-- R130. -/
def execSppPhValidate (h : SppPrimaryHeader) (s : State) : Outcome :=
  s.answer (sppPhCheck h) fun _ => .unit

/-- R131. -/
def execSppPhEnc (h : SppPrimaryHeader) (s : State) : Outcome := s.answer (sppPhEnc h) .bytes

/-- R132. -/
def execSppPhDec (bytes : Bytes) (s : State) : Outcome := s.answer (sppPhDec bytes) .sppPh

/-- R134. -/
def execSppShValidate (sh : SppSecondaryHeader) (s : State) : Outcome :=
  s.answer (sppShCheck sh) fun _ => .unit

/-- R135. -/
def execSppShEnc (sh : SppSecondaryHeader) (s : State) : Outcome := s.answer (sppShEnc sh) .bytes

/-- R136. A buffer that would decode to a header in which a key occurs twice is given no meaning
(UB6: refuse; log 6). -/
def execSppShDec (bytes : Bytes) (s : State) : Outcome :=
  match sppShDec bytes with
  | .error e => s.fail e
  | .ok sh => if keysDistinct sh.otherFields then s.ok (.sppSh sh) else .refused .repeatedKeyDecoded

end Sys2Proof.Machine
end

