-- ==== Sys2Proof/Machine/SppPacket.lean ====
section
/-! DEFINITION. Unit U5, the SPP packet assembler (spec/46_spp_packet.md), with the wire layout of
spec/30_encoding.md R86. The commands exist when `HAS_SPP_PACKET` is true, which `decode` tests. -/

namespace Sys2Proof.Machine

/-! ## Construction -/

/-- R261: one option; the one failure is a secondary header that is not valid (D26). -/
def applyOption (p : SpacePacket) : SppOption → Except ErrorStatus SpacePacket
  | .withSecondaryHeader s =>
    if sppShValid s then .ok { p with header := { p.header with secHdrFlag := 1 }, sec := some s }
    else .error .validationError
  | .withErrorControl c => .ok { p with errorControl := some c }

/-- R260: the options in order; the first that fails aborts construction. -/
def applyOptions : SpacePacket → List SppOption → Except ErrorStatus SpacePacket
  | p, [] => .ok p
  | p, o :: os =>
    match applyOption p o with
    | .error _ => .error .validationError
    | .ok p' => applyOptions p' os

/-- R260: the packet before any option, for `1 ≤ len(data) ≤ 65536`. -/
def sppPktBase (apid : Word16) (type : Byte) (data : Bytes) : SpacePacket :=
  { header :=
      { version := 0
        type := type
        secHdrFlag := 0
        apid := apid
        seqFlags := 3
        seqCount := 0
        packetLength := BitVec.ofNat 16 (data.length - 1) }
    sec := none
    userData := data
    errorControl := none }

/-- R260: `type` is copied without a range test, and the total is not tested again (D26). -/
def sppPktNew (apid : Word16) (type : Byte) (data : Bytes) (options : List SppOption) :
    Except ErrorStatus SpacePacket :=
  if apid.toNat > 2047 then .error .validationError
  else if 6 + data.length < 7 ∨ 6 + data.length > 65542 then .error .validationError
  else applyOptions (sppPktBase apid type data) options

/-! ## Validation -/

/-- R264: `spp_sh_size`. -/
def sppShSize (s : SppSecondaryHeader) : Nat :=
  8 + (s.otherFields.map fun f => 5 + f.key.length + f.value.length).sum

/-- R264: `spp_pkt_size`, counted from the record (D35). -/
def sppPktSize (p : SpacePacket) : Nat :=
  6 + (match p.sec with | some s => sppShSize s | none => 0) + p.userData.length +
    (match p.errorControl with | some _ => 2 | none => 0)

/-- R264: the secondary header's clause. -/
def sppPktSecValid (p : SpacePacket) : Bool :=
  match p.sec with
  | none => true
  | some s => sppShValid s

/-- R264: `spp_pkt_valid`. -/
def sppPktValid (p : SpacePacket) : Bool :=
  sppPhValid p.header && sppPktSecValid p &&
    decide (p.userData.length = p.header.packetLength.toNat + 1) &&
    decide (7 ≤ sppPktSize p ∧ sppPktSize p ≤ 65542)

/-- R264: validation as a computation that may fail. -/
def sppPktCheck (p : SpacePacket) : Except ErrorStatus Unit :=
  if sppPktValid p then .ok () else .error .validationError

/-! ## Serialisation -/

/-- R262: the octets of the secondary header: none when the flag is not 1. -/
def sppPktSec (p : SpacePacket) : Except ErrorStatus Bytes :=
  if p.header.secHdrFlag = 1 then
    match p.sec with
    | none => .error .secondaryHeaderMissing
    | some s =>
      match sppShEnc s with
      | .error _ => .error .unsupportedFieldType
      | .ok B => .ok B
  else .ok []

/-- R262: the octets of the error control word. -/
def sppPktTrailer (p : SpacePacket) : Bytes :=
  match p.errorControl with
  | none => []
  | some c => be16 c

/-- R262: `SPP_PKT_VALIDATE` is not run. -/
def sppPktEncode (p : SpacePacket) : Except ErrorStatus Bytes :=
  if sppPhValid p.header then
    match sppPktSec p with
    | .error e => .error e
    | .ok sec => .ok (sppPhPack p.header ++ sec ++ p.userData ++ sppPktTrailer p)
  else .error .validationError

/-! ## Parsing -/

/-- R263: the secondary header block of exactly eight octets (C3), with the octets after it. -/
def sppPktDecodeSec (h : SppPrimaryHeader) (rest : Bytes) :
    Except ErrorStatus (Option SppSecondaryHeader × Bytes) :=
  if h.secHdrFlag = 1 then
    match readU64 rest with
    | none => .error .malformedHeader
    | some (ts, rest') => .ok (some { timestamp := ts, otherFields := [] }, rest')
  else .ok (none, rest)

/-- R263: the error control word: the two octets at the end of the user data, when two remain (D27). -/
def sppPktDecodeTrailer (tail : Bytes) : Option Word16 := (readU16 tail).map Prod.fst

/-- R263: the packet made of the header and the octets after the headers; the user data ends at the
announced length or at the end of the buffer, whichever comes first. -/
def sppPktAssemble (h : SppPrimaryHeader) (sec : Option SppSecondaryHeader) (rest : Bytes) :
    SpacePacket :=
  { header := h
    sec := sec
    userData := rest.take (h.packetLength.toNat + 1)
    errorControl := sppPktDecodeTrailer (rest.drop (h.packetLength.toNat + 1)) }

/-- R263. -/
def sppPktDecode (B : Bytes) : Except ErrorStatus SpacePacket :=
  match sppPhDec B with
  | .error e => .error e
  | .ok h =>
    match sppPktDecodeSec h (B.drop 6) with
    | .error e => .error e
    | .ok (sec, rest) =>
      if sppPktValid (sppPktAssemble h sec rest) then .ok (sppPktAssemble h sec rest)
      else .error .validationError

/-! ## The commands -/

/-- R260. -/
def execSppPktNew (apid : Word16) (type : Byte) (data : Bytes) (options : List SppOption)
    (s : State) : Outcome :=
  s.answer (sppPktNew apid type data options) .packet

/-- R262. -/
def execSppPktEncode (p : SpacePacket) (s : State) : Outcome := s.answer (sppPktEncode p) .bytes

/-- R263. -/
def execSppPktDecode (bytes : Bytes) (s : State) : Outcome :=
  s.answer (sppPktDecode bytes) .packet

/-- R264. -/
def execSppPktValidate (p : SpacePacket) (s : State) : Outcome :=
  s.answer (sppPktCheck p) fun _ => .unit

end Sys2Proof.Machine
end

