-- ==== Sys2Proof/Machine/TmHeader.lean ====
section
/-! DEFINITION. Unit U2, the TMDL header codec (spec/42_tmdl_header_codec.md), with the wire layouts
of spec/30_encoding.md R87 to R89. -/

namespace Sys2Proof.Machine

/-! ## Primary header -/

/-- R160: `tm_ph_valid`. -/
def tmPhValid (h : TmPrimaryHeader) : Bool :=
  decide (h.version = 0 ∧ h.scid.toNat ≤ 1023 ∧ h.vcid.toNat ≤ 7 ∧ h.segLenId.toNat ≤ 3 ∧
    h.fhp.toNat ≤ 2047 ∧
    (h.syncFlag = false → h.pktOrderFlag = false ∧ h.segLenId = 3) ∧
    (h.syncFlag = true → h.fhp = 0x7FF))

/-- R87: a `Bool` counts as 0 or 1. -/
def bit (b : Bool) : Byte := if b then 1 else 0

/-- R87: `tm_ph_pack`, used only on a header whose fields fit their widths. -/
def tmPhPack (h : TmPrimaryHeader) : Bytes :=
  [h.version <<< 6 ||| (h.scid.extractLsb' 4 6).setWidth 8,
   (h.scid.extractLsb' 0 4).setWidth 8 <<< 4 ||| h.vcid <<< 1 ||| bit h.ocfFlag,
   h.mcCount,
   h.vcCount,
   bit h.fshFlag <<< 7 ||| bit h.syncFlag <<< 6 ||| bit h.pktOrderFlag <<< 5 ||| h.segLenId <<< 3 |||
     (h.fhp.extractLsb' 8 3).setWidth 8,
   h.fhp.extractLsb' 0 8]

/-- R88: `tm_ph_unpack` of six octets. -/
def tmPhUnpack (b0 b1 b2 b3 b4 b5 : Byte) : TmPrimaryHeader :=
  { version := (b0.extractLsb' 6 2).setWidth 8
    scid := (b0.extractLsb' 0 6).setWidth 16 <<< 4 ||| (b1.extractLsb' 4 4).setWidth 16
    vcid := (b1.extractLsb' 1 3).setWidth 8
    ocfFlag := b1.getLsbD 0
    mcCount := b2
    vcCount := b3
    fshFlag := b4.getLsbD 7
    syncFlag := b4.getLsbD 6
    pktOrderFlag := b4.getLsbD 5
    segLenId := (b4.extractLsb' 3 2).setWidth 8
    fhp := (b4.extractLsb' 0 3).setWidth 16 <<< 8 ||| b5.setWidth 16 }

/-- R160: validation as a computation that may fail. -/
def tmPhCheck (h : TmPrimaryHeader) : Except ErrorStatus Unit :=
  if tmPhValid h then .ok () else .error .validationError

/-- R161: validation, then packing; no field is masked. -/
def tmPhEnc (h : TmPrimaryHeader) : Except ErrorStatus Bytes :=
  if tmPhValid h then .ok (tmPhPack h) else .error .validationError

/-- R162: the first six octets; short input and an invariant violation are both `MalformedHeader`
(C1). -/
def tmPhDec : Bytes → Except ErrorStatus TmPrimaryHeader
  | b0 :: b1 :: b2 :: b3 :: b4 :: b5 :: _ =>
    if tmPhValid (tmPhUnpack b0 b1 b2 b3 b4 b5) then .ok (tmPhUnpack b0 b1 b2 b3 b4 b5)
    else .error .malformedHeader
  | _ => .error .malformedHeader

/-! ## Secondary header -/

/-- R170: `tm_sh_valid`. -/
def tmShValid (cfg : Config) (s : TmSecondaryHeader) : Bool :=
  decide (s.version = 0 ∧ s.headerLength.toNat ≤ 63 ∧
    (cfg.tmshBoundEnforced = true → s.dataField.length ≤ s.headerLength.toNat))

/-- R89: the wire form: one octet of version and header length, then the DataField. -/
def tmShPack (s : TmSecondaryHeader) : Bytes :=
  (s.version <<< 6 ||| s.headerLength) :: s.dataField

/-- R89, R172: the fields of a wire form whose first octet is `b`. -/
def tmShUnpack (b : Byte) (rest : Bytes) : TmSecondaryHeader :=
  { version := (b.extractLsb' 6 2).setWidth 8
    headerLength := (b.extractLsb' 0 6).setWidth 8
    dataField := rest }

/-- R170: validation as a computation that may fail. -/
def tmShCheck (cfg : Config) (s : TmSecondaryHeader) : Except ErrorStatus Unit :=
  if tmShValid cfg s then .ok () else .error .validationError

/-- R171. -/
def tmShEnc (cfg : Config) (s : TmSecondaryHeader) : Except ErrorStatus Bytes :=
  if tmShValid cfg s then .ok (tmShPack s) else .error .validationError

/-- R172: the whole buffer after the first octet is the DataField. -/
def tmShDec (cfg : Config) : Bytes → Except ErrorStatus TmSecondaryHeader
  | [] => .error .malformedHeader
  | b :: rest =>
    if tmShValid cfg (tmShUnpack b rest) then .ok (tmShUnpack b rest) else .error .malformedHeader

/-! ## Derived identifiers -/

/-- R175: `tm_mcid`, on the container values as they are. -/
def tmMcid (cfg : Config) (h : TmPrimaryHeader) : Word16 :=
  BitVec.ofNat 16 (h.version.toNat <<< cfg.mcidShift ||| h.scid.toNat)

/-- R176: an addition, not a concatenation. -/
def tmGvcid (cfg : Config) (h : TmPrimaryHeader) : Word16 := tmMcid cfg h + h.vcid.setWidth 16

/-! ## The commands -/

/-- R160. -/
def execTmPhValidate (h : TmPrimaryHeader) (s : State) : Outcome :=
  s.answer (tmPhCheck h) fun _ => .unit

/-- R161. -/
def execTmPhEnc (h : TmPrimaryHeader) (s : State) : Outcome := s.answer (tmPhEnc h) .bytes

/-- R162. -/
def execTmPhDec (bytes : Bytes) (s : State) : Outcome := s.answer (tmPhDec bytes) .tmPh

/-- R170. -/
def execTmShValidate (sh : TmSecondaryHeader) (s : State) : Outcome :=
  s.answer (tmShCheck s.cfg sh) fun _ => .unit

/-- R171. -/
def execTmShEnc (sh : TmSecondaryHeader) (s : State) : Outcome :=
  s.answer (tmShEnc s.cfg sh) .bytes

/-- R172. -/
def execTmShDec (bytes : Bytes) (s : State) : Outcome := s.answer (tmShDec s.cfg bytes) .tmSh

/-- R175: the header is not validated. -/
def execTmGetMcid (h : TmPrimaryHeader) (s : State) : Outcome := s.ok (.mcid (tmMcid s.cfg h))

/-- R176: the header is not validated. -/
def execTmGetGvcid (h : TmPrimaryHeader) (s : State) : Outcome := s.ok (.gvcid (tmGvcid s.cfg h))

end Sys2Proof.Machine
end

