-- ==== Sys2Proof/Machine/TmFrame.lean ====
section
/-! DEFINITION. Unit U3, the TM frame assembler (spec/43_tm_frame.md), with the wire layout of
spec/30_encoding.md R90. The Frame Error Control is the function `crc16`; the `CRC` register is neither
read nor written (spec/10_state.md R24). -/

namespace Sys2Proof.Machine

/-! ## Serialisation -/

/-- R190 (b), (c), (d): the octets of the secondary header: none without the flag; with it, an absent
or an invalid secondary header is an error, and nothing is truncated (C4). -/
def frameSec (cfg : Config) (f : Frame) : Except ErrorStatus Bytes :=
  if f.header.fshFlag then
    match f.sec with
    | none => .error .validationError
    | some s => tmShEnc cfg s
  else .ok []

/-- R190 (b), (e): the octets of the OCF: none without the flag, and none when it is absent. -/
def frameOcf (f : Frame) : Bytes :=
  if f.header.ocfFlag then
    match f.ocf with
    | none => []
    | some o => octets4 o
  else []

/-- R190: `frame_body`, the frame without its Frame Error Control. -/
def frameBody (cfg : Config) (f : Frame) : Except ErrorStatus Bytes :=
  match tmPhEnc f.header with
  | .error e => .error e
  | .ok hdr =>
    match frameSec cfg f with
    | .error e => .error e
    | .ok sec => .ok (hdr ++ sec ++ f.data ++ frameOcf f)

/-- R193: the body, then the stored Frame Error Control, which is not recomputed (D14). -/
def tmfEncode (cfg : Config) (f : Frame) : Except ErrorStatus Bytes :=
  match frameBody cfg f with
  | .error e => .error e
  | .ok B => .ok (B ++ be16 f.fec)

/-! ## Construction -/

/-- R191: the header `TMF_NEW` builds: SCID and VCID masked silently, the flags from presence, the
pointer from the secondary header's length or the all-ones sentinel (D12). -/
def tmfNewHeader (scid : Word16) (vcid : Byte) (shLen : Nat) (hasOcf sync : Bool) :
    TmPrimaryHeader :=
  { version := 0
    scid := scid &&& 0x3FF
    vcid := vcid &&& 0x07
    ocfFlag := hasOcf
    mcCount := 0
    vcCount := 0
    fshFlag := decide (0 < shLen)
    syncFlag := sync
    pktOrderFlag := false
    segLenId := 3
    fhp := if sync then 0x7FF else BitVec.ofNat 16 shLen }

/-- R191: the secondary header given in wire form; present means non-empty (D11). -/
def tmfNewSec (cfg : Config) (shBytes : Bytes) : Except ErrorStatus (Option TmSecondaryHeader) :=
  if 0 < shBytes.length then
    match tmShDec cfg shBytes with
    | .error _ => .error .malformedHeader
    | .ok s => .ok (some s)
  else .ok none

/-- R191: the frame with its Frame Error Control computed over everything before it. -/
def tmfSeal (cfg : Config) (f : Frame) : Except ErrorStatus Frame :=
  match frameBody cfg f with
  | .error e => .error e
  | .ok B => .ok { f with fec := crc16 B }

/-- R191, in the order of tests of R315. -/
def tmfNew (cfg : Config) (scid : Word16) (vcid : Byte) (data shBytes : Bytes)
    (ocf : Option Octets4) (sync : Bool) : Except ErrorStatus Frame :=
  if data.length > 65535 then .error .validationError
  else if sync = false ∧ shBytes.length > 2047 then .error .validationError
  else
    match tmfNewSec cfg shBytes with
    | .error e => .error e
    | .ok sec =>
      tmfSeal cfg
        { header := tmfNewHeader scid vcid shBytes.length ocf.isSome sync
          sec := sec
          data := data
          ocf := ocf
          fec := 0 }

/-! ## Parsing -/

/-- R194, step 5: the secondary header at the front of the body, with the position after it. -/
def tmfDecodeSec (cfg : Config) (h : TmPrimaryHeader) (body : Bytes) :
    Except ErrorStatus (Option TmSecondaryHeader × Nat) :=
  if h.fshFlag then
    if h.fhp.toNat > body.length then .error .malformedHeader
    else
      match tmShDec cfg (slice body 0 h.fhp.toNat) with
      | .error _ => .error .malformedHeader
      | .ok s => .ok (some s, h.fhp.toNat)
  else .ok (none, 0)

/-- R194, step 6: the OCF, the last four octets of the body when flagged and four are left after
`pos`, with the end of the payload. -/
def tmfDecodeOcf (h : TmPrimaryHeader) (body : Bytes) (pos : Nat) : Option Octets4 × Nat :=
  if h.ocfFlag = true ∧ body.length - pos ≥ 4 then
    (toOctets4 (slice body (body.length - 4) body.length), body.length - 4)
  else (none, body.length)

/-- R194, steps 5 to 7: the parts of the body. -/
def tmfDecodeBody (cfg : Config) (h : TmPrimaryHeader) (body : Bytes) (rx : Word16) :
    Except ErrorStatus Frame :=
  match tmfDecodeSec cfg h body with
  | .error e => .error e
  | .ok (sec, pos) =>
    .ok { header := h
          sec := sec
          data := slice body pos (tmfDecodeOcf h body pos).2
          ocf := (tmfDecodeOcf h body pos).1
          fec := rx }

/-- R194, in the order of its steps: length, header, CRC, the seven-octet buffer (C7), then the body. -/
def tmfDecode (cfg : Config) (B : Bytes) : Except ErrorStatus Frame :=
  if B.length < 7 then .error .malformedHeader
  else
    match tmPhDec (slice B 0 6) with
    | .error _ => .error .malformedHeader
    | .ok h =>
      if crc16 (slice B 0 (B.length - 2)) ≠ fromBe16 (slice B (B.length - 2) B.length) then
        .error .integrityError
      else if B.length < 8 then .error .malformedHeader
      else
        tmfDecodeBody cfg h (slice B 6 (B.length - 2)) (fromBe16 (slice B (B.length - 2) B.length))

/-! ## The commands -/

/-- R191. -/
def execTmfNew (scid : Word16) (vcid : Byte) (data shBytes : Bytes) (ocf : Option Octets4)
    (sync : Bool) (s : State) : Outcome :=
  s.answer (tmfNew s.cfg scid vcid data shBytes ocf sync) .frame

/-- R192. -/
def execTmfEncodeNofec (f : Frame) (s : State) : Outcome := s.answer (frameBody s.cfg f) .bytes

/-- R193. -/
def execTmfEncode (f : Frame) (s : State) : Outcome := s.answer (tmfEncode s.cfg f) .bytes

/-- R194. -/
def execTmfDecode (bytes : Bytes) (s : State) : Outcome := s.answer (tmfDecode s.cfg bytes) .frame

end Sys2Proof.Machine
end

