-- ==== Sys2Proof/Machine/VirtualChannel.lean ====
section
/-! DEFINITION. Unit U4, the Virtual Channel FIFOs (spec/44_virtual_channel.md). -/

namespace Sys2Proof.Machine

/-- R25: `n` is within `MAX_DEPTH`. -/
def depthAllowed (cfg : Config) (n : Nat) : Bool :=
  match cfg.maxDepth with
  | none => true
  | some m => decide (n ≤ m)

/-- R220: `ChannelExists` before `ValidationError` (R315). -/
def execVcCreate (v : Vcid) (maxBufferSize : Nat) (s : State) : Outcome :=
  if (s.slot v).present then s.fail .channelExists
  else if depthAllowed s.cfg maxBufferSize then
    (s.setSlot v { present := true, max := maxBufferSize, q := [] }).ok .unit
  else s.fail .validationError

/-- R221: the frame is stored as given, unchecked (D18); a full queue evicts nothing. -/
def execVcAddFrame (v : Vcid) (f : Frame) (s : State) : Outcome :=
  if (s.slot v).present then
    if s.qLen v ≥ (s.slot v).max then s.fail .bufferFull else (s.qPush v f).ok .unit
  else s.fail .channelNotFound

/-- R222: the direct consumer; the multiplexer's cursor is neither consulted nor moved. -/
def execVcGetNextFrame (v : Vcid) (s : State) : Outcome :=
  if (s.slot v).present then
    match s.qPop v with
    | none => s.fail .empty
    | some (f, t) => t.ok (.frame f)
  else s.fail .channelNotFound

/-- R223: a peek. -/
def execVcHasFrames (v : Vcid) (s : State) : Outcome :=
  if (s.slot v).present then s.ok (.has (decide (s.qLen v > 0))) else s.fail .channelNotFound

end Sys2Proof.Machine
end

