-- ==== Sys2Proof/Machine/Dispatch.lean ====
section
/-! DEFINITION. One arm per command of spec/30_encoding.md R72. -/

namespace Sys2Proof.Machine

/-- R72: the meaning of each command. -/
def exec (i : Instr) (s : State) : Host.Outcome State Fault Refusal :=
  match i with
  | .crcInit => Sys2Proof.Machine.execCrcInit s
  | .crcUpdate data => Sys2Proof.Machine.execCrcUpdate data s
  | .crcRead => Sys2Proof.Machine.execCrcRead s
  | .crcCompute data => Sys2Proof.Machine.execCrcCompute data s
  | .sppPhEnc h => Sys2Proof.Machine.execSppPhEnc h s
  | .sppPhDec bytes => Sys2Proof.Machine.execSppPhDec bytes s
  | .sppPhValidate h => Sys2Proof.Machine.execSppPhValidate h s
  | .sppShEnc sh => Sys2Proof.Machine.execSppShEnc sh s
  | .sppShDec bytes => Sys2Proof.Machine.execSppShDec bytes s
  | .sppShValidate sh => Sys2Proof.Machine.execSppShValidate sh s
  | .tmPhEnc h => Sys2Proof.Machine.execTmPhEnc h s
  | .tmPhDec bytes => Sys2Proof.Machine.execTmPhDec bytes s
  | .tmPhValidate h => Sys2Proof.Machine.execTmPhValidate h s
  | .tmGetMcid h => Sys2Proof.Machine.execTmGetMcid h s
  | .tmGetGvcid h => Sys2Proof.Machine.execTmGetGvcid h s
  | .tmShEnc sh => Sys2Proof.Machine.execTmShEnc sh s
  | .tmShDec bytes => Sys2Proof.Machine.execTmShDec bytes s
  | .tmShValidate sh => Sys2Proof.Machine.execTmShValidate sh s
  | .tmfNew scid vcid data shBytes ocf sync => Sys2Proof.Machine.execTmfNew scid vcid data shBytes ocf sync s
  | .tmfEncode f => Sys2Proof.Machine.execTmfEncode f s
  | .tmfEncodeNofec f => Sys2Proof.Machine.execTmfEncodeNofec f s
  | .tmfDecode bytes => Sys2Proof.Machine.execTmfDecode bytes s
  | .vcCreate v maxBufferSize => Sys2Proof.Machine.execVcCreate v maxBufferSize s
  | .vcAddFrame v f => Sys2Proof.Machine.execVcAddFrame v f s
  | .vcGetNextFrame v => Sys2Proof.Machine.execVcGetNextFrame v s
  | .vcHasFrames v => Sys2Proof.Machine.execVcHasFrames v s
  | .muxAddChannel v priority => Sys2Proof.Machine.execMuxAddChannel v priority s
  | .muxGetNextFrame => Sys2Proof.Machine.execMuxGetNextFrame s
  | .sppPktNew apid type data options => Sys2Proof.Machine.execSppPktNew apid type data options s
  | .sppPktEncode p => Sys2Proof.Machine.execSppPktEncode p s
  | .sppPktDecode bytes => Sys2Proof.Machine.execSppPktDecode bytes s
  | .sppPktValidate p => Sys2Proof.Machine.execSppPktValidate p s

end Sys2Proof.Machine
end

