-- ==== Sys2Proof/Machine/Step.lean ====
section
/-! DEFINITION. One step of the block: it takes the next event from its port (spec/20_memory.md R56,
R61) and deals with it whole. -/

namespace Sys2Proof.Machine

/-- R56, R61: one event, to completion. -/
def step (s : State) : Host.Outcome State Fault Refusal :=
  match s.fetch with
  | .done t => .next t
  | .run i t => exec i t
  | .stop r => .refused r

/-- The command an opcode-table word stands for (its zero operand tuple, log 2), placed on the port
before whatever else the host has issued, so that the next step runs it (log 13). -/
def State.withFetchWord (s : State) (nbits w : Nat) : State :=
  { s with input := .command (zeroCommand (BitVec.ofNat 8 (w % 2 ^ nbits))) :: s.input }

end Sys2Proof.Machine
end

