-- ==== Sys2Proof/Safety.lean ====
section
/-! DEFINITION. What counts as a safe state and as valid operands, in the terms the statements use,
written from the spec's tables independently of the functions the commands run; and the relations
between states, and the record of a command sequence, the statements speak of. -/

namespace Sys2Proof.Machine

/-! ## Safe states -/

/-- R29, with the legal values of spec/10_state.md R25 and R26 and spec/00_scope.md R9: what holds
after reset and after every command. Clause (d) of R29 speaks of the identity of a frame, which a
record does not have (log 10). -/
structure State.Inv (s : State) : Prop where
  /-- R9: `MUX_ORDER` is a total order. -/
  orderTotal : s.cfg.wf
  /-- R29 (a): no queue is longer than its capacity. -/
  bounded : ∀ v, s.qLen v ≤ (s.slot v).max
  /-- R29 (b): a channel that was never created is empty, without capacity and not registered. -/
  absent : ∀ v, (s.slot v).present = false →
    s.queue v = [] ∧ (s.slot v).max = 0 ∧ s.registered v = false
  /-- R29 (c): at most eight channels are registered. -/
  atMostEight : s.muxOrder.length ≤ 8
  /-- R25: a capacity is within `MAX_DEPTH`. -/
  capacityAllowed : ∀ v n, s.cfg.maxDepth = some n → (s.slot v).max ≤ n
  /-- R26: a weight is a signed integer of `PRIO_W` bits. -/
  weightsFit : ∀ v, -(2 ^ s.cfg.prioW : Int) ≤ 2 * s.prio v ∧ 2 * s.prio v < 2 ^ s.cfg.prioW

/-! ## Valid records and their octets -/

/-- R31: the valid ranges of the SPP Primary Header's fields. -/
abbrev SppPhInRange (h : SppPrimaryHeader) : Prop :=
  h.version ≤ 7 ∧ h.type ≤ 1 ∧ h.secHdrFlag ≤ 1 ∧ h.apid ≤ 2047 ∧ h.seqFlags ≤ 3 ∧
    h.seqCount ≤ 16383

/-- R34: the valid ranges and the invariants of the TM Primary Header. -/
abbrev TmPhInRange (h : TmPrimaryHeader) : Prop :=
  h.version = 0 ∧ h.scid ≤ 1023 ∧ h.vcid ≤ 7 ∧ h.segLenId ≤ 3 ∧ h.fhp ≤ 2047 ∧
    (h.syncFlag = false → h.pktOrderFlag = false ∧ h.segLenId = 3) ∧
    (h.syncFlag = true → h.fhp = 0x7FF)

/-- R35, R170: the valid range of the TM Secondary Header. -/
abbrev TmShInRange (cfg : Config) (s : TmSecondaryHeader) : Prop :=
  s.version = 0 ∧ s.headerLength ≤ 63 ∧
    (cfg.tmshBoundEnforced = true → s.dataField.length ≤ s.headerLength.toNat)

/-- R172: a buffer that is a TM Secondary Header: a first octet with version bits 0, and, where the
bound is enforced, no more octets after it than it says. -/
abbrev TmShBuffer (cfg : Config) (B : Bytes) : Prop :=
  ∃ b rest, B = b :: rest ∧ b ≤ 63 ∧ (cfg.tmshBoundEnforced = true → rest.length ≤ b.toNat)

/-- R12: the octets of a length or other number below 65536, most significant first. -/
abbrev octets16 (n : Nat) : Bytes := [BitVec.ofNat 8 (n / 256), BitVec.ofNat 8 n]

/-- R80: six octets as the one 48-bit word `W`. -/
abbrev word48 (b0 b1 b2 b3 b4 b5 : Byte) : BitVec 48 := b0 ++ b1 ++ b2 ++ b3 ++ b4 ++ b5

/-- R80: the 48-bit word of an SPP Primary Header: version 3, type 1, flag 1, APID 11, sequence flags 2,
sequence count 14, packet length 16 bits, from the left. -/
abbrev sppPhWord (h : SppPrimaryHeader) : BitVec 48 :=
  h.version.setWidth 3 ++ h.type.setWidth 1 ++ h.secHdrFlag.setWidth 1 ++ h.apid.setWidth 11 ++
    h.seqFlags.setWidth 2 ++ h.seqCount.setWidth 14 ++ h.packetLength

/-- R87: the 48-bit word of a TM Primary Header: 2, 10, 3, 1, 8, 8, 1, 1, 1, 2, 11 bits from the left. -/
abbrev tmPhWord (h : TmPrimaryHeader) : BitVec 48 :=
  h.version.setWidth 2 ++ h.scid.setWidth 10 ++ h.vcid.setWidth 3 ++ BitVec.ofBool h.ocfFlag ++
    h.mcCount ++ h.vcCount ++ BitVec.ofBool h.fshFlag ++ BitVec.ofBool h.syncFlag ++
    BitVec.ofBool h.pktOrderFlag ++ h.segLenId.setWidth 2 ++ h.fhp.setWidth 11

/-- R84: the octets of one field record. -/
abbrev fieldOctets (f : SppField) : Bytes :=
  octets16 f.key.length ++ f.key ++ f.tag :: (octets16 f.value.length ++ f.value)

/-- R32, R85: a field the codec supports: a string value, key and value of type `Str16`. -/
abbrev StringField (f : SppField) : Prop :=
  f.tag = 1 ∧ f.key.length ≤ 65535 ∧ f.value.length ≤ 65535

/-- R32: the keys are pairwise different. -/
abbrev KeysDiffer (fs : List SppField) : Prop := (fs.map SppField.key).Nodup

/-- R12, R32: every key and value of the header is a `Str16`. -/
abbrev StringsFit (sh : SppSecondaryHeader) : Prop :=
  ∀ f ∈ sh.otherFields, f.key.length ≤ 65535 ∧ f.value.length ≤ 65535

/-- R71: a byte string within `MAX_BYTES`. -/
abbrev BytesFit (cfg : Config) (B : Bytes) : Prop := ∀ m, cfg.maxBytes = some m → B.length ≤ m

/-- R26: a signed integer of `PRIO_W` bits. -/
abbrev WeightFits (cfg : Config) (w : Int) : Prop :=
  -(2 ^ cfg.prioW : Int) ≤ 2 * w ∧ 2 * w < 2 ^ cfg.prioW

/-- R33, R73, R261: the SPP Secondary Headers an operand carries. -/
def sppShInside : Operand → List SppSecondaryHeader
  | .sppSh sh => [sh]
  | .packet p => p.sec.toList
  | .options os => os.filterMap fun
    | .withSecondaryHeader sh => some sh
    | .withErrorControl _ => none
  | _ => []

/-- R300: each error status with its code and the opcodes of the commands listed as producing it. That
of a reserved opcode is no command's. -/
def statusTable : List (ErrorStatus × Byte × List Byte) :=
  [(.validationError, 0x01, [0x20, 0x22, 0x26, 0x30, 0x32, 0x35, 0x37, 0x40, 0x41, 0x42, 0x50, 0x70,
      0x71, 0x72, 0x73]),
   (.malformedHeader, 0x02, [0x21, 0x25, 0x31, 0x36, 0x40, 0x43, 0x72]),
   (.unexpectedEOF, 0x03, []),
   (.integrityError, 0x04, [0x43]),
   (.bufferFull, 0x05, [0x51]),
   (.empty, 0x06, [0x52]),
   (.noFramesAvailable, 0x07, [0x61]),
   (.noChannels, 0x08, [0x61]),
   (.unsupportedFieldType, 0x09, [0x24, 0x25, 0x71]),
   (.secondaryHeaderMissing, 0x0A, [0x71]),
   (.serviceNotFound, 0x0C, []),
   (.masterChannelNotFound, 0x0D, []),
   (.scidMismatch, 0x0E, []),
   (.illegalCommand, 0x10, []),
   (.channelNotFound, 0x11, [0x51, 0x52, 0x53, 0x60]),
   (.channelExists, 0x12, [0x50])]

/-- R190: a frame `TMF_ENCODE` serialises: a valid header, and a valid secondary header if flagged. -/
abbrev FrameEncodable (cfg : Config) (f : Frame) : Prop :=
  TmPhInRange f.header ∧ (f.header.fshFlag = true → ∃ sh, f.sec = some sh ∧ TmShInRange cfg sh)

/-- R190 (b), (c): the octets of a frame's secondary header. -/
abbrev secOctets (f : Frame) : Bytes :=
  match f.header.fshFlag, f.sec with
  | true, some sh => sh.headerLength :: sh.dataField
  | _, _ => []

/-- R190 (b), (e): the octets of a frame's Operational Control Field. -/
abbrev ocfOctets (f : Frame) : Bytes :=
  match f.header.ocfFlag, f.ocf with
  | true, some o => [o.o0, o.o1, o.o2, o.o3]
  | _, _ => []

/-! ## Relations between states -/

/-- R243: two states agree on everything but the priority weights. -/
def State.sameButPrio (s t : State) : Prop := t = { s with muxPrio := t.muxPrio }

/-- Two outcomes are alike when both are next states in the relation, or both stop the same way. -/
def Alike (r : State → State → Prop) : Outcome → Outcome → Prop
  | .next s, .next t => r s t
  | .refused a, .refused b => a = b
  | .fault a, .fault b => a = b
  | _, _ => False

/-! ## What a command sequence puts into a channel and takes out of it -/

/-- R221: the frame a command answered with `ok` put into channel `v`, seen from the state after it. -/
def pushed (v : Vcid) (i : Instr) (t : State) : List Frame :=
  match i, t.response with
  | .vcAddFrame w f, some (.ok _) => if w = v then [f] else []
  | _, _ => []

/-- R222, R242: the frame a command answered with `ok` took out of channel `v`, seen from the state
after it: the multiplexer leaves its cursor at the channel it served. -/
def popped (v : Vcid) (i : Instr) (t : State) : List Frame :=
  match i, t.response with
  | .vcGetNextFrame w, some (.ok (.frame f)) => if w = v then [f] else []
  | .muxGetNextFrame, some (.ok (.frame f)) =>
    if t.muxOrder[t.muxLastUsed]? = some v then [f] else []
  | _, _ => []

/-- A sequence of commands that all answer, with the frames it put into channel `v` and the frames it
took out, each in order. -/
inductive Trace (v : Vcid) : List Instr → State → State → List Frame → List Frame → Prop where
  | nil (s : State) : Trace v [] s s [] []
  | cons {i : Instr} {is : List Instr} {s t u : State} {ins outs : List Frame} :
      exec i s = .next t → Trace v is t u ins outs →
      Trace v (i :: is) s u (pushed v i t ++ ins) (popped v i t ++ outs)


end Sys2Proof.Machine
end

