-- ==== Sys2Proof/Certificates/Slice0/Obligations.lean ====
section
/-! DEFINITION. The statements about the model. Each is over every state and every value of the
parameters (State.cfg) unless it says otherwise; where a command is said to answer `s.respond r`, the
whole state but the response is unchanged. -/

open Sys2Proof Sys2Proof.Machine

/-! ## Unit U1 -/

/-- R112: `CRC_INIT` sets `CRC` to 0xFFFF, answers `ok()`, and changes nothing else. -/
def Obligations.CrcInitLoadsAllOnes : Prop :=
  ∀ s : State, exec .crcInit s = .next { s with crc := 0xFFFF, response := some (.ok .unit) }

/-- R113: `CRC_UPDATE` goes on from what `CRC` holds, octet by octet, writes nothing else, leaves `CRC`
alone on the empty string, and does not depend on how the data is split. -/
def Obligations.CrcUpdateContinuesFromRegister : Prop :=
  ∀ (s : State) (A B : Bytes) (b : Byte),
    exec (.crcUpdate A) s =
      .next { s with crc := A.foldl crc16Step s.crc, response := some (.ok .unit) } ∧
    exec (.crcUpdate []) s = .next (s.respond (.ok .unit)) ∧
    exec (.crcUpdate [b]) s =
      .next { s with crc := crc16Step s.crc b, response := some (.ok .unit) } ∧
    ∀ t, exec (.crcUpdate A) s = .next t → exec (.crcUpdate B) t = exec (.crcUpdate (A ++ B)) s

/-- R114: `CRC_READ` answers with the register and changes nothing. -/
def Obligations.CrcReadReturnsRegister : Prop :=
  ∀ s : State, exec .crcRead s = .next (s.respond (.ok (.crc s.crc)))

/-- R77, R115: `CRC_COMPUTE` leaves the state and gives the response that `CRC_INIT`, `CRC_UPDATE` and
`CRC_READ` issued in a row leave and give; it ignores the previous content of `CRC`. -/
def Obligations.CrcComputeIsInitUpdateRead : Prop :=
  ∀ (s : State) (data : Bytes), ∃ s1 s2 s3,
    exec .crcInit s = .next s1 ∧ exec (.crcUpdate data) s1 = .next s2 ∧
    exec .crcRead s2 = .next s3 ∧ exec (.crcCompute data) s = .next s3 ∧
    s3 = { s with crc := crc16 data, response := some (.ok (.crc (crc16 data))) }

/-- R110, R111: `crc16_step` is the register rule on unbounded integers, eight times; `crc16` folds it
from 0xFFFF with no final adjustment. -/
def Obligations.CrcStepFollowsRegisterRule : Prop :=
  (∀ (c : Word16) (b : Byte), (crc16Step c b).toNat =
    (fun r : Nat => if r.testBit 15 then ((r <<< 1) &&& 0xFFFF) ^^^ 0x1021 else (r <<< 1) &&& 0xFFFF)^[8]
      (c.toNat ^^^ (b.toNat <<< 8))) ∧
  (∀ c, crc16From c [] = c) ∧
  (∀ c b D, crc16From c (b :: D) = crc16From (crc16Step c b) D) ∧
  (∀ D, crc16 D = crc16From 0xFFFF D) ∧
  crc16Step 0xFFFF 0x00 = 0xE1F0

/-- R116: the five arithmetic laws of the unit. -/
def Obligations.CrcArithmeticLaws : Prop :=
  crc16 [] = 0xFFFF ∧
  (∀ c A B, crc16From c (A ++ B) = crc16From (crc16From c A) B) ∧
  (∀ c1 c2 b1 b2, crc16Step (c1 ^^^ c2) (b1 ^^^ b2) = crc16Step c1 b1 ^^^ crc16Step c2 b2) ∧
  ((∀ b, Function.Bijective fun c => crc16Step c b) ∧ (∀ c, Function.Injective (crc16Step c)) ∧
    ∀ (P S : Bytes) (b : Byte) (k : Nat), k < 8 →
      crc16 (P ++ b :: S) ≠ crc16 (P ++ (b ^^^ (1#8 <<< k)) :: S)) ∧
  ∀ D, crc16 (D ++ be16 (crc16 D)) = 0x0000

/-- R24, R117: only `CRC_INIT`, `CRC_UPDATE` and `CRC_COMPUTE` write `CRC`; the frame commands, which
evaluate the same function, do not. -/
def Obligations.OnlyCrcCommandsWriteTheRegister : Prop :=
  ∀ (i : Instr) (s t : State), exec i s = .next t →
    t.crc = s.crc ∨ i = .crcInit ∨ (∃ data, i = .crcUpdate data) ∨ ∃ data, i = .crcCompute data

/-! ## Unit U2, SPP headers -/

/-- R130: `SPP_PH_VALIDATE`, opcode 0x22, tests the six ranges of R31 and nothing else. -/
def Obligations.SppPhValidateTestsSixRanges : Prop :=
  ∀ (h : SppPrimaryHeader) (s : State),
    encode (.sppPhValidate h) = { op := 0x22, args := [.sppPh h] } ∧
    (SppPhInRange h → exec (.sppPhValidate h) s = .next (s.respond (.ok .unit))) ∧
    (¬ SppPhInRange h →
      exec (.sppPhValidate h) s = .next (s.respond (.fail .validationError)))

/-- R131: `SPP_PH_ENC`, opcode 0x20, of a header in range answers with six octets whose 48 bits are the
fields side by side, none of them changed to fit; of any other header with `ValidationError`. -/
def Obligations.SppPhEncodeLaysOutFields : Prop :=
  ∀ (h : SppPrimaryHeader) (s : State),
    encode (.sppPhEnc h) = { op := 0x20, args := [.sppPh h] } ∧
    (SppPhInRange h → ∃ b0 b1 b2 b3 b4 b5,
      exec (.sppPhEnc h) s = .next (s.respond (.ok (.bytes [b0, b1, b2, b3, b4, b5]))) ∧
      word48 b0 b1 b2 b3 b4 b5 = sppPhWord h) ∧
    (¬ SppPhInRange h → exec (.sppPhEnc h) s = .next (s.respond (.fail .validationError)))

/-- R82, R132: `SPP_PH_DEC` of six or more octets answers with the header in range whose fields side by
side are the first 48 bits, whatever follows; of fewer octets with `MalformedHeader`. -/
def Obligations.SppPhDecodeReadsFirstSixOctets : Prop :=
  (∀ (b0 b1 b2 b3 b4 b5 : Byte) (rest : Bytes) (s : State), ∃ h,
    exec (.sppPhDec (b0 :: b1 :: b2 :: b3 :: b4 :: b5 :: rest)) s =
      .next (s.respond (.ok (.sppPh h))) ∧
    SppPhInRange h ∧ sppPhWord h = word48 b0 b1 b2 b3 b4 b5) ∧
  ∀ (B : Bytes) (s : State), B.length < 6 →
    exec (.sppPhDec B) s = .next (s.respond (.fail .malformedHeader))

/-- R133: the round-trip of the SPP Primary Header, both ways. -/
def Obligations.SppPhRoundTrip : Prop :=
  (∀ (h : SppPrimaryHeader) (s : State), SppPhInRange h → ∃ B,
    exec (.sppPhEnc h) s = .next (s.respond (.ok (.bytes B))) ∧
    exec (.sppPhDec B) s = .next (s.respond (.ok (.sppPh h)))) ∧
  ∀ (B : Bytes) (s : State), B.length = 6 → ∃ h,
    exec (.sppPhDec B) s = .next (s.respond (.ok (.sppPh h))) ∧
    exec (.sppPhEnc h) s = .next (s.respond (.ok (.bytes B)))

/-- R134: `SPP_SH_VALIDATE`, opcode 0x26, tests the timestamp and nothing else. -/
def Obligations.SppShValidateTestsTimestamp : Prop :=
  ∀ (sh : SppSecondaryHeader) (s : State),
    encode (.sppShValidate sh) = { op := 0x26, args := [.sppSh sh] } ∧
    (sh.timestamp ≠ 0 → exec (.sppShValidate sh) s = .next (s.respond (.ok .unit))) ∧
    (sh.timestamp = 0 → exec (.sppShValidate sh) s = .next (s.respond (.fail .validationError)))

/-- R83, R84, R135: `SPP_SH_ENC` answers with the eight octets of the timestamp and the field records
in list order, a zero timestamp included; the length is as R135 says; any tag but 1 is
`UnsupportedFieldType`. -/
def Obligations.SppShEncodeWritesRecords : Prop :=
  ∀ (sh : SppSecondaryHeader) (s : State),
    ((∀ f ∈ sh.otherFields, f.tag = 1) → ∃ a b c d e f g h B,
      exec (.sppShEnc sh) s = .next (s.respond (.ok (.bytes B))) ∧
      B = [a, b, c, d, e, f, g, h] ++ sh.otherFields.flatMap fieldOctets ∧
      (a ++ b ++ c ++ d ++ e ++ f ++ g ++ h : BitVec 64) = sh.timestamp ∧
      B.length = 8 + (sh.otherFields.map fun f => 5 + f.key.length + f.value.length).sum) ∧
    ((∃ f ∈ sh.otherFields, f.tag ≠ 1) →
      exec (.sppShEnc sh) s = .next (s.respond (.fail .unsupportedFieldType)))

/-- R136, R315: `SPP_SH_DEC` reads left to right, for buffers whose keys are pairwise different (UB6):
eight octets of timestamp and any number of whole records give the header they stand for; after any
number of whole records, a record cut anywhere is `MalformedHeader`, and a tag other than 1 is
`UnsupportedFieldType` whatever follows it; a buffer of fewer than eight octets is `MalformedHeader`. -/
def Obligations.SppShDecodeReadsRecordsOrReportsFirstFault : Prop :=
  (∀ (B : Bytes) (s : State), B.length < 8 →
    exec (.sppShDec B) s = .next (s.respond (.fail .malformedHeader))) ∧
  ∀ (a b c d e f g h : Byte) (fs : List SppField) (s : State), (∀ x ∈ fs, StringField x) →
    KeysDiffer fs →
    exec (.sppShDec ([a, b, c, d, e, f, g, h] ++ fs.flatMap fieldOctets)) s =
      .next (s.respond (.ok (.sppSh
        { timestamp := a ++ b ++ c ++ d ++ e ++ f ++ g ++ h, otherFields := fs }))) ∧
    (∀ (r : SppField) (n : Nat), StringField r → r.key ∉ fs.map SppField.key → 0 < n →
      n < (fieldOctets r).length →
      exec (.sppShDec ([a, b, c, d, e, f, g, h] ++ fs.flatMap fieldOctets ++ (fieldOctets r).take n)) s =
        .next (s.respond (.fail .malformedHeader))) ∧
    ∀ (key rest : Bytes) (tag : Byte), key.length ≤ 65535 → key ∉ fs.map SppField.key → tag ≠ 1 →
      exec (.sppShDec ([a, b, c, d, e, f, g, h] ++ fs.flatMap fieldOctets ++
          (octets16 key.length ++ key ++ tag :: rest))) s =
        .next (s.respond (.fail .unsupportedFieldType))

/-- R135, R136, R137: the round-trip of the SPP Secondary Header, both ways. -/
def Obligations.SppShRoundTrip : Prop :=
  (∀ (sh : SppSecondaryHeader) (s : State), (∀ f ∈ sh.otherFields, StringField f) →
    KeysDiffer sh.otherFields → ∃ B,
      exec (.sppShEnc sh) s = .next (s.respond (.ok (.bytes B))) ∧
      exec (.sppShDec B) s = .next (s.respond (.ok (.sppSh sh)))) ∧
  ∀ (B : Bytes) (sh : SppSecondaryHeader) (s : State),
    exec (.sppShDec B) s = .next (s.respond (.ok (.sppSh sh))) →
    exec (.sppShEnc sh) s = .next (s.respond (.ok (.bytes B)))

/-- The model's choice (log 6) for the buffers to which R136 and UB6 give no meaning: one whose records
all parse and in which a key occurs twice is refused by name; one that repeats a key and then is cut
or holds a tag other than 1 answers with that fault, as a buffer with different keys would. -/
def Obligations.SppShDecodeRefusesRepeatedKeys : Prop :=
  ∀ (T : Bytes) (fs : List SppField) (s : State), T.length = 8 → (∀ x ∈ fs, StringField x) →
    (¬ KeysDiffer fs →
      exec (.sppShDec (T ++ fs.flatMap fieldOctets)) s = .refused .repeatedKeyDecoded) ∧
    (∀ (r : SppField) (n : Nat), StringField r → 0 < n → n < (fieldOctets r).length →
      ¬ KeysDiffer (r :: fs) →
      exec (.sppShDec (T ++ fs.flatMap fieldOctets ++ (fieldOctets r).take n)) s =
        .next (s.respond (.fail .malformedHeader))) ∧
    ∀ (key rest : Bytes) (tag : Byte), key.length ≤ 65535 → tag ≠ 1 →
      ¬ (key :: fs.map SppField.key).Nodup →
      exec (.sppShDec (T ++ fs.flatMap fieldOctets ++
          (octets16 key.length ++ key ++ tag :: rest))) s =
        .next (s.respond (.fail .unsupportedFieldType))

/-! ## Unit U2, TM headers -/

/-- R160: `TM_PH_VALIDATE` tests the ranges and the two invariants of R34. -/
def Obligations.TmPhValidateTestsInvariants : Prop :=
  ∀ (h : TmPrimaryHeader) (s : State),
    (TmPhInRange h → exec (.tmPhValidate h) s = .next (s.respond (.ok .unit))) ∧
    (¬ TmPhInRange h → exec (.tmPhValidate h) s = .next (s.respond (.fail .validationError)))

/-- R87, R161: `TM_PH_ENC` of a valid header answers with six octets whose 48 bits are the fields side
by side; of any other header with `ValidationError`. -/
def Obligations.TmPhEncodeLaysOutFields : Prop :=
  ∀ (h : TmPrimaryHeader) (s : State),
    (TmPhInRange h → ∃ b0 b1 b2 b3 b4 b5,
      exec (.tmPhEnc h) s = .next (s.respond (.ok (.bytes [b0, b1, b2, b3, b4, b5]))) ∧
      word48 b0 b1 b2 b3 b4 b5 = tmPhWord h) ∧
    (¬ TmPhInRange h → exec (.tmPhEnc h) s = .next (s.respond (.fail .validationError)))

/-- R88, R162: `TM_PH_DEC` reads the first 48 bits into the fields; it answers with the header when that
header is valid, and with `MalformedHeader` when it is not or when fewer than six octets are given. -/
def Obligations.TmPhDecodeChecksInvariants : Prop :=
  (∀ (b0 b1 b2 b3 b4 b5 : Byte) (rest : Bytes) (s : State), ∃ h,
    tmPhWord h = word48 b0 b1 b2 b3 b4 b5 ∧
    h.version ≤ 3 ∧ h.scid ≤ 1023 ∧ h.vcid ≤ 7 ∧ h.segLenId ≤ 3 ∧ h.fhp ≤ 2047 ∧
    (TmPhInRange h → exec (.tmPhDec (b0 :: b1 :: b2 :: b3 :: b4 :: b5 :: rest)) s =
      .next (s.respond (.ok (.tmPh h)))) ∧
    (¬ TmPhInRange h → exec (.tmPhDec (b0 :: b1 :: b2 :: b3 :: b4 :: b5 :: rest)) s =
      .next (s.respond (.fail .malformedHeader)))) ∧
  ∀ (B : Bytes) (s : State), B.length < 6 →
    exec (.tmPhDec B) s = .next (s.respond (.fail .malformedHeader))

/-- R163: the round-trip of the TM Primary Header, both ways; not every six octets decode. -/
def Obligations.TmPhRoundTrip : Prop :=
  (∀ (h : TmPrimaryHeader) (s : State), TmPhInRange h → ∃ B,
    exec (.tmPhEnc h) s = .next (s.respond (.ok (.bytes B))) ∧
    exec (.tmPhDec B) s = .next (s.respond (.ok (.tmPh h)))) ∧
  (∀ (B : Bytes) (h : TmPrimaryHeader) (s : State), B.length = 6 →
    exec (.tmPhDec B) s = .next (s.respond (.ok (.tmPh h))) →
    exec (.tmPhEnc h) s = .next (s.respond (.ok (.bytes B)))) ∧
  ∃ B : Bytes, B.length = 6 ∧ ∀ (s : State) (h : TmPrimaryHeader),
    exec (.tmPhDec B) s ≠ .next (s.respond (.ok (.tmPh h)))

/-- R89, R170, R171: `TM_SH_VALIDATE` and `TM_SH_ENC` test the same ranges; the encoding of a valid
header is its `header_length` as the first octet, then the DataField. -/
def Obligations.TmShEncodeWritesLengthAndData : Prop :=
  ∀ (sh : TmSecondaryHeader) (s : State),
    (TmShInRange s.cfg sh →
      exec (.tmShValidate sh) s = .next (s.respond (.ok .unit)) ∧
      exec (.tmShEnc sh) s = .next (s.respond (.ok (.bytes (sh.headerLength :: sh.dataField))))) ∧
    (¬ TmShInRange s.cfg sh →
      exec (.tmShValidate sh) s = .next (s.respond (.fail .validationError)) ∧
      exec (.tmShEnc sh) s = .next (s.respond (.fail .validationError)))

/-- R172: `TM_SH_DEC` takes the first octet as version and header length and all the rest as the
DataField; an empty buffer, a version other than 0 and (when enforced) a broken bound are
`MalformedHeader`; decoding and encoding undo each other. -/
def Obligations.TmShDecodeAndRoundTrip : Prop :=
  (∀ (b : Byte) (rest : Bytes) (s : State),
    (b ≤ 63 → (s.cfg.tmshBoundEnforced = true → rest.length ≤ b.toNat) →
      exec (.tmShDec (b :: rest)) s =
        .next (s.respond (.ok (.tmSh { version := 0, headerLength := b, dataField := rest })))) ∧
    (¬ b ≤ 63 ∨ s.cfg.tmshBoundEnforced = true ∧ ¬ rest.length ≤ b.toNat →
      exec (.tmShDec (b :: rest)) s = .next (s.respond (.fail .malformedHeader)))) ∧
  (∀ s : State, exec (.tmShDec []) s = .next (s.respond (.fail .malformedHeader))) ∧
  (∀ (sh : TmSecondaryHeader) (s : State), TmShInRange s.cfg sh → ∃ B,
    exec (.tmShEnc sh) s = .next (s.respond (.ok (.bytes B))) ∧
    exec (.tmShDec B) s = .next (s.respond (.ok (.tmSh sh)))) ∧
  ∀ (B : Bytes) (sh : TmSecondaryHeader) (s : State),
    exec (.tmShDec B) s = .next (s.respond (.ok (.tmSh sh))) →
    exec (.tmShEnc sh) s = .next (s.respond (.ok (.bytes B)))

/-- R175, R176: the two identifiers as the source's formulas on the container values, reduced modulo
2^16, for every header; for a valid header MCID is the SCID and GVCID the sum of SCID and VCID, at
most 1030. -/
def Obligations.TmIdentifiersFollowFormulas : Prop :=
  ∀ (h : TmPrimaryHeader) (s : State), ∃ m g : Word16,
    exec (.tmGetMcid h) s = .next (s.respond (.ok (.mcid m))) ∧
    exec (.tmGetGvcid h) s = .next (s.respond (.ok (.gvcid g))) ∧
    m.toNat = (h.version.toNat * 2 ^ s.cfg.mcidShift ||| h.scid.toNat) % 2 ^ 16 ∧
    g.toNat = ((h.version.toNat * 2 ^ s.cfg.mcidShift ||| h.scid.toNat) + h.vcid.toNat) % 2 ^ 16 ∧
    (TmPhInRange h → m = h.scid ∧ g.toNat = h.scid.toNat + h.vcid.toNat ∧ g ≤ 1030)

/-! ## Unit U3 -/

/-- R191: what `TMF_NEW` builds and when it fails: SCID and VCID masked, flags from presence, `fhp` from
the secondary header's length or the sentinel, the FEC over the octets `TMF_ENCODE_NOFEC` writes. -/
def Obligations.TmfNewBuildsSealedFrame : Prop :=
  ∀ (scid : Word16) (vcid : Byte) (data sh : Bytes) (ocf : Option Octets4) (sync : Bool) (s : State),
    (data.length ≤ 65535 → (sync = false → sh.length ≤ 2047) → (sh ≠ [] → TmShBuffer s.cfg sh) →
      ∃ f B, exec (.tmfNew scid vcid data sh ocf sync) s = .next (s.respond (.ok (.frame f))) ∧
        f.header.version = 0 ∧ f.header.scid.toNat = scid.toNat % 1024 ∧
        f.header.vcid.toNat = vcid.toNat % 8 ∧ f.header.ocfFlag = ocf.isSome ∧
        f.header.mcCount = 0 ∧ f.header.vcCount = 0 ∧ (f.header.fshFlag = true ↔ sh ≠ []) ∧
        f.header.syncFlag = sync ∧ f.header.pktOrderFlag = false ∧ f.header.segLenId = 3 ∧
        f.header.fhp.toNat = (if sync then 0x7FF else sh.length) ∧
        f.sec = sh.head?.map (fun b =>
          { version := 0, headerLength := b, dataField := sh.tail }) ∧
        f.data = data ∧ f.ocf = ocf ∧
        exec (.tmfEncodeNofec f) s = .next (s.respond (.ok (.bytes B))) ∧ f.fec = crc16 B) ∧
    (data.length > 65535 → exec (.tmfNew scid vcid data sh ocf sync) s =
      .next (s.respond (.fail .validationError))) ∧
    (sync = false → sh.length > 2047 → exec (.tmfNew scid vcid data sh ocf sync) s =
      .next (s.respond (.fail .validationError))) ∧
    (data.length ≤ 65535 → (sync = false → sh.length ≤ 2047) → sh ≠ [] → ¬ TmShBuffer s.cfg sh →
      exec (.tmfNew scid vcid data sh ocf sync) s = .next (s.respond (.fail .malformedHeader)))

/-- R190, R192, R193: `TMF_ENCODE_NOFEC` writes header, secondary header if flagged, payload, and OCF if
flagged and present; `TMF_ENCODE` appends the record's stored FEC; both fail with `ValidationError`
on exactly the same records. -/
def Obligations.TmfEncodeWritesPartsInOrder : Prop :=
  ∀ (f : Frame) (s : State),
    (FrameEncodable s.cfg f → ∃ H,
      exec (.tmPhEnc f.header) s = .next (s.respond (.ok (.bytes H))) ∧
      exec (.tmfEncodeNofec f) s =
        .next (s.respond (.ok (.bytes (H ++ secOctets f ++ f.data ++ ocfOctets f)))) ∧
      exec (.tmfEncode f) s = .next (s.respond (.ok (.bytes
        (H ++ secOctets f ++ f.data ++ ocfOctets f ++ octets16 f.fec.toNat))))) ∧
    (¬ FrameEncodable s.cfg f →
      exec (.tmfEncodeNofec f) s = .next (s.respond (.fail .validationError)) ∧
      exec (.tmfEncode f) s = .next (s.respond (.fail .validationError)))

/-- R90, R194: `TMF_DECODE` of a buffer laid out as R90 says, under a valid header, with a right FEC,
answers with the frame made of the parts. With the OCF flag and fewer than four octets left there is
no OCF and they are payload (R194 (e), R356). -/
def Obligations.TmfDecodeParsesParts : Prop :=
  ∀ (h : TmPrimaryHeader) (sh data : Bytes) (o : Option Octets4) (s : State), TmPhInRange h →
    (h.fshFlag = true → sh.length = h.fhp.toNat ∧ TmShBuffer s.cfg sh) →
    (h.fshFlag = false → sh = []) →
    (h.ocfFlag = false → o = none) → (h.ocfFlag = true → o = none → data.length < 4) →
    ∃ H body, exec (.tmPhEnc h) s = .next (s.respond (.ok (.bytes H))) ∧
      body = H ++ sh ++ data ++ (o.map fun w => [w.o0, w.o1, w.o2, w.o3]).getD [] ∧
      exec (.tmfDecode (body ++ octets16 (crc16 body).toNat)) s =
        .next (s.respond (.ok (.frame
          { header := h
            sec := sh.head?.map fun b =>
              { version := 0, headerLength := b, dataField := sh.tail }
            data := data
            ocf := o
            fec := crc16 body })))

/-- R194, R315: the order of `TMF_DECODE`'s tests: length below 7, then the header, then the CRC, then
the length 7, then the secondary header: with the flag, a pointer beyond the body, and octets it
spans that are no TM Secondary Header (none at all, when it is 0), are `MalformedHeader`. -/
def Obligations.TmfDecodeTestsInOrder : Prop :=
  ∀ (B : Bytes) (s : State),
    (B.length < 7 → exec (.tmfDecode B) s = .next (s.respond (.fail .malformedHeader))) ∧
    (exec (.tmPhDec (B.take 6)) s = .next (s.respond (.fail .malformedHeader)) →
      exec (.tmfDecode B) s = .next (s.respond (.fail .malformedHeader))) ∧
    (∀ (D : Bytes) (hi lo : Byte) (h : TmPrimaryHeader), B = D ++ [hi, lo] → 7 ≤ B.length →
      exec (.tmPhDec (B.take 6)) s = .next (s.respond (.ok (.tmPh h))) →
      crc16 D ≠ (hi ++ lo : BitVec 16) →
      exec (.tmfDecode B) s = .next (s.respond (.fail .integrityError))) ∧
    (∀ (D : Bytes) (hi lo : Byte), B = D ++ [hi, lo] → B.length = 7 →
      crc16 D = (hi ++ lo : BitVec 16) →
      exec (.tmfDecode B) s = .next (s.respond (.fail .malformedHeader))) ∧
    ∀ (H body : Bytes) (hi lo : Byte) (h : TmPrimaryHeader), B = H ++ body ++ [hi, lo] →
      H.length = 6 → exec (.tmPhDec H) s = .next (s.respond (.ok (.tmPh h))) →
      crc16 (H ++ body) = (hi ++ lo : BitVec 16) → h.fshFlag = true →
      body.length < h.fhp.toNat ∨ ¬ TmShBuffer s.cfg (body.take h.fhp.toNat) →
      exec (.tmfDecode B) s = .next (s.respond (.fail .malformedHeader))

/-- R195: the round-trip of the frame, in its four clauses. -/
def Obligations.TmfRoundTrip : Prop :=
  (∀ scid vcid data sh ocf (f : Frame) (s : State),
    exec (.tmfNew scid vcid data sh ocf false) s = .next (s.respond (.ok (.frame f))) → ∃ B,
      exec (.tmfEncode f) s = .next (s.respond (.ok (.bytes B))) ∧
      exec (.tmfDecode B) s = .next (s.respond (.ok (.frame f)))) ∧
  (∀ scid vcid data ocf (f : Frame) (s : State),
    exec (.tmfNew scid vcid data [] ocf true) s = .next (s.respond (.ok (.frame f))) → ∃ B,
      exec (.tmfEncode f) s = .next (s.respond (.ok (.bytes B))) ∧
      exec (.tmfDecode B) s = .next (s.respond (.ok (.frame f)))) ∧
  (∀ scid vcid data sh ocf (f : Frame) (s : State), sh ≠ [] →
    exec (.tmfNew scid vcid data sh ocf true) s = .next (s.respond (.ok (.frame f))) → ∃ B,
      exec (.tmfEncode f) s = .next (s.respond (.ok (.bytes B))) ∧
      (exec (.tmfDecode B) s = .next (s.respond (.ok (.frame f))) ↔ sh.length = 2047)) ∧
  ∀ (B : Bytes) (f : Frame) (s : State),
    exec (.tmfDecode B) s = .next (s.respond (.ok (.frame f))) →
    exec (.tmfEncode f) s = .next (s.respond (.ok (.bytes B)))

/-- R196: a buffer that decodes, with exactly one bit flipped, never decodes: `MalformedHeader` when the
flip makes the primary header invalid, `IntegrityError` in every other case. -/
def Obligations.TmfDecodeDetectsEverySingleBitFlip : Prop :=
  ∀ (P S : Bytes) (b : Byte) (k : Nat) (f : Frame) (s : State), k < 8 →
    exec (.tmfDecode (P ++ b :: S)) s = .next (s.respond (.ok (.frame f))) →
    ∀ B', B' = P ++ (b ^^^ (1#8 <<< k)) :: S →
      ((∃ h, exec (.tmPhDec B') s = .next (s.respond (.ok (.tmPh h)))) →
        exec (.tmfDecode B') s = .next (s.respond (.fail .integrityError))) ∧
      ((¬ ∃ h, exec (.tmPhDec B') s = .next (s.respond (.ok (.tmPh h)))) →
        exec (.tmfDecode B') s = .next (s.respond (.fail .malformedHeader)))

/-- R352: a frame built with `sync` and a secondary header whose body is shorter than 2047 octets
encodes, and what it encodes to fails to decode with `MalformedHeader`. -/
def Obligations.TmfSyncWithSecondaryHeaderFailsToDecode : Prop :=
  ∀ scid vcid data sh ocf (f : Frame) (s : State), sh ≠ [] →
    sh.length + data.length + (if ocf.isSome then 4 else 0) < 2047 →
    exec (.tmfNew scid vcid data sh ocf true) s = .next (s.respond (.ok (.frame f))) → ∃ B,
      exec (.tmfEncode f) s = .next (s.respond (.ok (.bytes B))) ∧
      exec (.tmfDecode B) s = .next (s.respond (.fail .malformedHeader))

/-! ## Unit U4, channels -/

/-- R220: `VC_CREATE` on a free slot within `MAX_DEPTH` makes an empty channel of the given capacity;
`ChannelExists` is tested before `ValidationError`. -/
def Obligations.VcCreateMakesEmptyChannel : Prop :=
  ∀ (v : Vcid) (n : Nat) (s : State),
    ((s.slot v).present = false → (∀ m, s.cfg.maxDepth = some m → n ≤ m) →
      exec (.vcCreate v n) s = .next
        { s with vc := s.vc.set v.toNat { present := true, max := n, q := [] } v.isLt,
                 response := some (.ok .unit) }) ∧
    ((s.slot v).present = true →
      exec (.vcCreate v n) s = .next (s.respond (.fail .channelExists))) ∧
    ((s.slot v).present = false → (∃ m, s.cfg.maxDepth = some m ∧ m < n) →
      exec (.vcCreate v n) s = .next (s.respond (.fail .validationError)))

/-- R221: `VC_ADD_FRAME` puts the frame, as given, at the tail of the queue of a created channel that is
not full, and changes nothing else; `ChannelNotFound` is tested before `BufferFull`. -/
def Obligations.VcAddFrameAppendsUnlessFull : Prop :=
  ∀ (v : Vcid) (f : Frame) (s : State),
    ((s.slot v).present = true → (s.slot v).q.length < (s.slot v).max →
      exec (.vcAddFrame v f) s = .next
        { s with vc := s.vc.set v.toNat { s.slot v with q := (s.slot v).q ++ [f] } v.isLt,
                 response := some (.ok .unit) }) ∧
    ((s.slot v).present = false →
      exec (.vcAddFrame v f) s = .next (s.respond (.fail .channelNotFound))) ∧
    ((s.slot v).present = true → (s.slot v).max ≤ (s.slot v).q.length →
      exec (.vcAddFrame v f) s = .next (s.respond (.fail .bufferFull)))

/-- R222: `VC_GET_NEXT_FRAME` removes and returns the oldest frame of a created channel and changes
nothing else; `ChannelNotFound` is tested before `Empty`. -/
def Obligations.VcGetNextFramePopsOldest : Prop :=
  ∀ (v : Vcid) (s : State),
    (∀ f q, (s.slot v).present = true → (s.slot v).q = f :: q →
      exec (.vcGetNextFrame v) s = .next
        { s with vc := s.vc.set v.toNat { s.slot v with q := q } v.isLt,
                 response := some (.ok (.frame f)) }) ∧
    ((s.slot v).present = false →
      exec (.vcGetNextFrame v) s = .next (s.respond (.fail .channelNotFound))) ∧
    ((s.slot v).present = true → (s.slot v).q = [] →
      exec (.vcGetNextFrame v) s = .next (s.respond (.fail .empty)))

/-- R223: `VC_HAS_FRAMES` answers whether the queue of a created channel holds a frame, and changes
nothing. -/
def Obligations.VcHasFramesPeeks : Prop :=
  ∀ (v : Vcid) (s : State),
    ((s.slot v).present = true → (s.slot v).q ≠ [] →
      exec (.vcHasFrames v) s = .next (s.respond (.ok (.has true)))) ∧
    ((s.slot v).present = true → (s.slot v).q = [] →
      exec (.vcHasFrames v) s = .next (s.respond (.ok (.has false)))) ∧
    ((s.slot v).present = false →
      exec (.vcHasFrames v) s = .next (s.respond (.fail .channelNotFound)))

/-- R62, R224 (a): over any sequence of commands of any kind, what was in the queue of a created channel
followed by what was put in is what came out, by either path, followed by what is left. -/
def Obligations.ChannelQueuesAreFirstInFirstOut : Prop :=
  ∀ (v : Vcid) (is : List Instr) (s u : State) (ins outs : List Frame),
    Trace v is s u ins outs → (s.slot v).present = true →
    s.queue v ++ ins = outs ++ u.queue v ∧ (u.slot v).present = true ∧
      (u.slot v).max = (s.slot v).max

/-- R224 (e): the commands on channel `v` never change another channel, the `CRC` register or the
multiplexer's tables and cursor. -/
def Obligations.ChannelCommandsLeaveOthersAlone : Prop :=
  ∀ (v w : Vcid) (i : Instr) (s t : State),
    (∃ n, i = .vcCreate v n) ∨ (∃ f, i = .vcAddFrame v f) ∨ i = .vcGetNextFrame v ∨
      i = .vcHasFrames v →
    exec i s = .next t → w ≠ v →
    t.slot w = s.slot w ∧ t.crc = s.crc ∧ t.muxReg = s.muxReg ∧ t.muxPrio = s.muxPrio ∧
      t.muxLastUsed = s.muxLastUsed ∧ t.cfg = s.cfg ∧ t.input = s.input

/-! ## Unit U4, multiplexer -/

/-- R240: `MUX_ADD_CHANNEL` on a created channel registers it and stores its weight, whether or not it
was registered, and changes nothing else; otherwise `ChannelNotFound`. -/
def Obligations.MuxAddChannelRegisters : Prop :=
  ∀ (v : Vcid) (w : Int) (s : State),
    ((s.slot v).present = true →
      exec (.muxAddChannel v w) s = .next
        { s with muxReg := s.muxReg.set v.toNat true v.isLt,
                 muxPrio := s.muxPrio.set v.toNat w v.isLt,
                 response := some (.ok .unit) }) ∧
    ((s.slot v).present = false →
      exec (.muxAddChannel v w) s = .next (s.respond (.fail .channelNotFound)))

/-- R242: `MUX_GET_NEXT_FRAME` fails with `NoChannels` when no channel is registered and with
`NoFramesAvailable` when every registered channel is empty, and in no other case; a failure moves
neither cursor nor queue. -/
def Obligations.MuxGetNextFrameFailsOnlyWhenEmpty : Prop :=
  ∀ s : State,
    (s.muxOrder = [] → exec .muxGetNextFrame s = .next (s.respond (.fail .noChannels))) ∧
    (s.muxOrder ≠ [] → (∀ v ∈ s.muxOrder, s.queue v = []) →
      exec .muxGetNextFrame s = .next (s.respond (.fail .noFramesAvailable))) ∧
    ((∃ v ∈ s.muxOrder, s.queue v ≠ []) →
      ∃ (f : Frame) (t : State), exec .muxGetNextFrame s = .next (t.respond (.ok (.frame f))))

/-- R242, R244 (a): `MUX_GET_NEXT_FRAME` takes the oldest frame of the first channel with a pending
frame in the cyclic order that starts one position after the cursor, leaves the cursor at that
channel's position, and changes nothing else. -/
def Obligations.MuxGetNextFrameServesFirstPendingAfterCursor : Prop :=
  ∀ (s : State) (k : Nat) (v : Vcid) (f : Frame) (q : List Frame),
    1 ≤ k → k ≤ s.muxOrder.length →
    s.muxOrder[(s.muxLastUsed + k) % s.muxOrder.length]? = some v → s.queue v = f :: q →
    (∀ j w, 1 ≤ j → j < k →
      s.muxOrder[(s.muxLastUsed + j) % s.muxOrder.length]? = some w → s.queue w = []) →
    exec .muxGetNextFrame s = .next
      { s with vc := s.vc.set v.toNat { s.slot v with q := q } v.isLt,
               muxLastUsed := (s.muxLastUsed + k) % s.muxOrder.length,
               response := some (.ok (.frame f)) }

/-- R244 (b): no channel starves. Let `σ k` be the state before and `τ k` the state after the `k`-th of
`N` successful calls, `N` the number of registered channels. Between calls the queues may change in
any way, but not the registered set, its order or the cursor. If channel `v` is registered and
non-empty before every call, one of the calls serves it. -/
def Obligations.MuxStarvesNoChannel : Prop :=
  ∀ (σ τ : Nat → State) (v : Vcid) (N : Nat), N = (σ 0).muxOrder.length → v ∈ (σ 0).muxOrder →
    (∀ k, k < N → exec .muxGetNextFrame (σ k) = .next (τ k) ∧
      (∃ f, (τ k).response = some (.ok (.frame f))) ∧ (σ k).queue v ≠ []) →
    (∀ k, k + 1 < N → (σ (k + 1)).muxOrder = (τ k).muxOrder ∧
      (σ (k + 1)).muxLastUsed = (τ k).muxLastUsed) →
    ∃ k f, k < N ∧ (τ k).response = some (.ok (.frame f)) ∧
      (σ k).queue v = f :: (τ k).queue v ∧ (τ k).muxOrder[(τ k).muxLastUsed]? = some v

/-- R243: two states that differ only in the priority weights go through any run alike: the same
responses, the same states but for the weights, or the same stop. -/
def Obligations.PriorityWeightsCannotBeObserved : Prop :=
  ∀ (k : Nat) (s t : State), s.sameButPrio t →
    Alike State.sameButPrio (Host.Core.run Sys2Proof.core k s) (Host.Core.run Sys2Proof.core k t)

/-! ## Unit U5 -/

/-- R260, R261: what `SPP_PKT_NEW` builds and when it fails: the default header, the flag and the
secondary header from the last option that gives one, the error control word likewise. -/
def Obligations.SppPktNewBuildsPacket : Prop :=
  ∀ (apid : Word16) (type : Byte) (data : Bytes) (os : List SppOption) (s : State),
    (apid ≤ 2047 → 1 ≤ data.length → data.length ≤ 65536 →
      (∀ sh, SppOption.withSecondaryHeader sh ∈ os → sh.timestamp ≠ 0) →
      ∃ p, exec (.sppPktNew apid type data os) s = .next (s.respond (.ok (.packet p))) ∧
        p.header.version = 0 ∧ p.header.type = type ∧ p.header.apid = apid ∧
        p.header.seqFlags = 3 ∧ p.header.seqCount = 0 ∧
        p.header.packetLength.toNat + 1 = data.length ∧ p.userData = data ∧
        p.sec = (os.filterMap fun
          | .withSecondaryHeader sh => some sh
          | .withErrorControl _ => none).getLast? ∧
        p.header.secHdrFlag = (if p.sec.isSome then 1 else 0) ∧
        p.errorControl = (os.filterMap fun
          | .withSecondaryHeader _ => none
          | .withErrorControl c => some c).getLast?) ∧
    (2047 < apid ∨ data = [] ∨ 65536 < data.length ∨
      (∃ sh, SppOption.withSecondaryHeader sh ∈ os ∧ sh.timestamp = 0) →
      exec (.sppPktNew apid type data os) s = .next (s.respond (.fail .validationError)))

/-- R262: `SPP_PKT_ENCODE`, opcode 0x71, writes header, secondary header if flagged, user data, and the error
control word if present, without running `SPP_PKT_VALIDATE`; and its three errors in their order. -/
def Obligations.SppPktEncodeWritesPartsInOrder : Prop :=
  ∀ (p : SpacePacket) (s : State),
    encode (.sppPktEncode p) = { op := 0x71, args := [.packet p] } ∧
    (SppPhInRange p.header → p.header.secHdrFlag = 0 → ∃ H,
      exec (.sppPhEnc p.header) s = .next (s.respond (.ok (.bytes H))) ∧
      exec (.sppPktEncode p) s = .next (s.respond (.ok (.bytes
        (H ++ p.userData ++ (p.errorControl.map fun c => octets16 c.toNat).getD []))))) ∧
    (∀ sh, SppPhInRange p.header → p.header.secHdrFlag = 1 → p.sec = some sh →
      (∀ f ∈ sh.otherFields, f.tag = 1) → ∃ H S,
      exec (.sppPhEnc p.header) s = .next (s.respond (.ok (.bytes H))) ∧
      exec (.sppShEnc sh) s = .next (s.respond (.ok (.bytes S))) ∧
      exec (.sppPktEncode p) s = .next (s.respond (.ok (.bytes
        (H ++ S ++ p.userData ++ (p.errorControl.map fun c => octets16 c.toNat).getD []))))) ∧
    (¬ SppPhInRange p.header →
      exec (.sppPktEncode p) s = .next (s.respond (.fail .validationError))) ∧
    (SppPhInRange p.header → p.header.secHdrFlag = 1 → p.sec = none →
      exec (.sppPktEncode p) s = .next (s.respond (.fail .secondaryHeaderMissing))) ∧
    (∀ sh, SppPhInRange p.header → p.header.secHdrFlag = 1 → p.sec = some sh →
      (∃ f ∈ sh.otherFields, f.tag ≠ 1) →
      exec (.sppPktEncode p) s = .next (s.respond (.fail .unsupportedFieldType)))

/-- R263: `SPP_PKT_DECODE` of a header in range, the eight octets of a non-zero timestamp if flagged, as
much user data as announced, and any further octets: the first two of these are the error control
word and the rest are ignored, when the total is within 65542, and `ValidationError` when it is not;
a buffer that is too short for the header or the timestamp is `MalformedHeader`, for the user data
`ValidationError`, and so is a zero timestamp. -/
def Obligations.SppPktDecodeParsesParts : Prop :=
  ∀ (h : SppPrimaryHeader) (T data tail : Bytes) (s : State), SppPhInRange h → ∃ H,
    exec (.sppPhEnc h) s = .next (s.respond (.ok (.bytes H))) ∧
    (h.secHdrFlag = 0 → data.length = h.packetLength.toNat + 1 →
      (tail.length < 2 ∨ data.length ≤ 65534) →
      exec (.sppPktDecode (H ++ data ++ tail)) s = .next (s.respond (.ok (.packet
        { header := h, sec := none, userData := data
          errorControl := match tail with | hi :: lo :: _ => some (hi ++ lo) | _ => none })))) ∧
    (h.secHdrFlag = 1 → data.length = h.packetLength.toNat + 1 →
      (tail.length < 2 ∧ data.length ≤ 65528 ∨ data.length ≤ 65526) → ∀ ts : Word64, ts ≠ 0 →
      exec (.sppPktDecode (H ++ be64 ts ++ data ++ tail)) s = .next (s.respond (.ok (.packet
        { header := h, sec := some { timestamp := ts, otherFields := [] }, userData := data
          errorControl := match tail with | hi :: lo :: _ => some (hi ++ lo) | _ => none })))) ∧
    (h.secHdrFlag = 0 → data.length = h.packetLength.toNat + 1 →
      2 ≤ tail.length ∧ 65534 < data.length →
      exec (.sppPktDecode (H ++ data ++ tail)) s = .next (s.respond (.fail .validationError))) ∧
    (h.secHdrFlag = 1 → data.length = h.packetLength.toNat + 1 →
      65528 < data.length ∨ 2 ≤ tail.length ∧ 65526 < data.length → ∀ ts : Word64,
      exec (.sppPktDecode (H ++ be64 ts ++ data ++ tail)) s =
        .next (s.respond (.fail .validationError))) ∧
    (h.secHdrFlag = 1 → T.length < 8 →
      exec (.sppPktDecode (H ++ T)) s = .next (s.respond (.fail .malformedHeader))) ∧
    (h.secHdrFlag = 0 → data.length ≤ h.packetLength.toNat →
      exec (.sppPktDecode (H ++ data)) s = .next (s.respond (.fail .validationError))) ∧
    (h.secHdrFlag = 1 → T.length = 8 → data.length ≤ h.packetLength.toNat →
      exec (.sppPktDecode (H ++ T ++ data)) s = .next (s.respond (.fail .validationError))) ∧
    (h.secHdrFlag = 1 → exec (.sppPktDecode (H ++ be64 0 ++ data ++ tail)) s =
      .next (s.respond (.fail .validationError))) ∧
    ∀ n, n < 6 → exec (.sppPktDecode (H.take n)) s = .next (s.respond (.fail .malformedHeader))

/-- R264: `SPP_PKT_VALIDATE` tests the header, the timestamp of a secondary header that is present, the
length of the user data, and the total size counted from the record; nothing else. -/
def Obligations.SppPktValidateTestsFourClauses : Prop :=
  ∀ (p : SpacePacket) (s : State) (total : Nat),
    total = 6 +
      (p.sec.map fun sh => 8 + (sh.otherFields.map fun f => 5 + f.key.length + f.value.length).sum).getD 0 +
      p.userData.length + (if p.errorControl.isSome then 2 else 0) →
    (SppPhInRange p.header ∧ (∀ sh, p.sec = some sh → sh.timestamp ≠ 0) ∧
        p.userData.length = p.header.packetLength.toNat + 1 ∧ 7 ≤ total ∧ total ≤ 65542 →
      exec (.sppPktValidate p) s = .next (s.respond (.ok .unit))) ∧
    (¬ (SppPhInRange p.header ∧ (∀ sh, p.sec = some sh → sh.timestamp ≠ 0) ∧
        p.userData.length = p.header.packetLength.toNat + 1 ∧ 7 ≤ total ∧ total ≤ 65542) →
      exec (.sppPktValidate p) s = .next (s.respond (.fail .validationError)))

/-- R265: the round-trip of the packet: it holds for a valid packet whose flag agrees with its secondary
header when that has no fields, and fails when it has one or more. -/
def Obligations.SppPktRoundTrip : Prop :=
  ∀ (p : SpacePacket) (s : State),
    exec (.sppPktValidate p) s = .next (s.respond (.ok .unit)) →
    p.header.secHdrFlag = (if p.sec.isSome then 1 else 0) →
    ((∀ sh, p.sec = some sh → sh.otherFields = []) → ∃ B,
      exec (.sppPktEncode p) s = .next (s.respond (.ok (.bytes B))) ∧
      exec (.sppPktDecode B) s = .next (s.respond (.ok (.packet p)))) ∧
    ((∃ sh, p.sec = some sh ∧ sh.otherFields ≠ []) → ¬ ∃ B,
      exec (.sppPktEncode p) s = .next (s.respond (.ok (.bytes B))) ∧
      exec (.sppPktDecode B) s = .next (s.respond (.ok (.packet p))))

/-- R353: the fields of a secondary header do not survive, and the failure is silent: a valid flagged
packet with one or more string fields encodes and decodes with status `OK`, the decoded secondary
header has no fields, the user data is as many octets as announced from the front of the field records
and the rest of the packet, and the next two octets are reported as the error control word. -/
def Obligations.SppPktDecodeLosesSecondaryFields : Prop :=
  ∀ (p : SpacePacket) (sh : SppSecondaryHeader) (s : State),
    exec (.sppPktValidate p) s = .next (s.respond (.ok .unit)) →
    p.header.secHdrFlag = 1 → p.sec = some sh → sh.otherFields ≠ [] →
    (∀ f ∈ sh.otherFields, f.tag = 1) → ∃ B U hi lo rest,
      exec (.sppPktEncode p) s = .next (s.respond (.ok (.bytes B))) ∧
      sh.otherFields.flatMap fieldOctets ++ p.userData ++
        (p.errorControl.map fun c => octets16 c.toNat).getD [] = U ++ hi :: lo :: rest ∧
      U.length = p.userData.length ∧
      exec (.sppPktDecode B) s = .next (s.respond (.ok (.packet
        { header := p.header
          sec := some { timestamp := sh.timestamp, otherFields := [] }
          userData := U
          errorControl := some (hi ++ lo) })))

/-! ## The whole machine -/

/-- R29, R39: the invariant holds after reset. -/
def Obligations.InvariantHoldsAtReset : Prop := State.reset.Inv

/-- R29: every step from a state with the invariant leads to a state with the invariant. -/
def Obligations.InvariantKeptByEveryStep : Prop :=
  ∀ s t : State, s.Inv → step s = .next t → t.Inv

/-- R320 (a), (b), (c): a command that answers with an error status leaves everything but the response
exactly as it was. -/
def Obligations.FailureChangesNothing : Prop :=
  ∀ (i : Instr) (s t : State) (e : ErrorStatus), exec i s = .next t →
    t.response = some (.fail e) → t = s.respond (.fail e)

/-- R23, R57: a command of unit U2, U3 or U5 changes nothing but the response, and its response depends
on nothing in the state (the parameters apart). -/
def Obligations.CodecCommandsAreStateless : Prop :=
  ∀ (i : Instr) (s t u : State),
    (opcode i).toNat / 16 ∈ [2, 3, 4, 7] → exec i s = .next t →
    ∃ r, t = s.respond r ∧ (u.cfg = s.cfg → exec i u = .next (u.respond r))

/-- R58, R74: every command in every state is answered with a response, and takes nothing from the
port and leaves the parameters as they are; the one exception is `SPP_SH_DEC` of a buffer of whole
records with a repeated key, which R136 gives no meaning and the model refuses (log 6). -/
def Obligations.EveryCommandIsAnswered : Prop :=
  ∀ (i : Instr) (s : State),
    (∃ t r, exec i s = .next t ∧ t.response = some r ∧ t.input = s.input ∧ t.cfg = s.cfg) ∨
    ∃ (T : Bytes) (fs : List SppField), i = .sppShDec (T ++ fs.flatMap fieldOctets) ∧
      T.length = 8 ∧ (∀ f ∈ fs, StringField f) ∧ ¬ KeysDiffer fs ∧
      exec i s = .refused .repeatedKeyDecoded

/-- R22, R321: no command sees the response of an earlier one, or what is still to come on the port. -/
def Obligations.CommandsIgnoreThePort : Prop :=
  ∀ (i : Instr) (s t : State) (input : List PortEvent) (response : Option Response),
    exec i s = .next t →
    exec i { s with input := input, response := response } = .next { t with input := input }

/-- R61: when the next event on the port is a command that decodes to a well-formed command, the step
is the execution of that command on the state in which it has left the port. -/
def Obligations.StepRunsTheDecodedCommand : Prop :=
  ∀ (s : State) (c : Command) (rest : List PortEvent) (i : Instr),
    s.input = .command c :: rest → decode s.cfg c = .ok i → i.wellFormed s.cfg →
    step s = exec i { s with input := rest }

/-- R75, R312: the opcodes outside R72's table, 224 of the 256, or 228 without unit U5, are answered
with `IllegalCommand` and no change of state, whatever operands come with them. -/
def Obligations.ReservedOpcodesAreIllegalCommands : Prop :=
  ∀ (s : State) (R : List (BitVec 8)),
    R = ((List.range 256).map (BitVec.ofNat 8)).filter (fun op =>
      !([0x10, 0x11, 0x12, 0x13, 0x20, 0x21, 0x22, 0x24, 0x25, 0x26, 0x30, 0x31, 0x32, 0x33, 0x34,
         0x35, 0x36, 0x37, 0x40, 0x41, 0x42, 0x43, 0x50, 0x51, 0x52, 0x53, 0x60, 0x61].contains op)
      && !(s.cfg.hasSppPacket && [0x70, 0x71, 0x72, 0x73].contains op)) →
    R.length = (if s.cfg.hasSppPacket then 224 else 228) ∧
    ∀ (op : Byte) (args : List Operand) (rest : List PortEvent),
      s.input = .command { op := op, args := args } :: rest →
      (op ∈ R ↔ decode s.cfg { op := op, args := args } = .error .reservedOpcode) ∧
      (op ∈ R → step s = .next { s with input := rest, response := some (.fail .illegalCommand) })

/-- R39, R341, R328: the reset event sets every state element to its reset value, keeps the parameters
and what the host issues later, and gives no response; after it `MUX_GET_NEXT_FRAME` answers
`NoChannels`. With nothing on the port a step changes nothing. -/
def Obligations.ResetEventRestoresEveryElement : Prop :=
  (∀ (s : State) (rest : List PortEvent), s.input = .reset :: rest → ∃ t,
    step s = .next t ∧ t.crc = 0xFFFF ∧
    (∀ v, (t.slot v).present = false ∧ (t.slot v).max = 0 ∧ t.queue v = [] ∧
      t.registered v = false ∧ t.prio v = 0) ∧
    t.muxLastUsed = s.cfg.muxCursorReset ∧ t.cfg = s.cfg ∧ t.input = rest ∧ t.response = none ∧
    exec .muxGetNextFrame t = .next (t.respond (.fail .noChannels))) ∧
  ∀ s : State, s.input = [] → step s = .next s

/-- R70, R72, R73: a command put on the port is decoded as itself, where its opcode exists; and a
command whose opcode exists decodes exactly when its operand tuple has the types of R73's table. -/
def Obligations.DecodeAndEncodeAgree : Prop :=
  (∀ (cfg : Config) (i : Instr), (cfg.hasSppPacket = true ∨ (opcode i).toNat < 0x70) →
    decode cfg (encode i) = .ok i) ∧
  (∀ (cfg : Config) (c : Command) (i : Instr), decode cfg c = .ok i → encode i = c) ∧
  ∀ (cfg : Config) (c : Command), decode cfg c ≠ .error .reservedOpcode →
    (c.args.map typeOf = operandTypes c.op ↔ ∃ i, decode cfg c = .ok i)

/-- R72: opcodes written out from the table, one for each group, decode to their commands. -/
def Obligations.OpcodesDecodeAsTheTableSays : Prop :=
  decode Config.default { op := 0x11, args := [.bytes [0x31]] } = .ok (.crcUpdate [0x31]) ∧
  decode Config.default { op := 0x21, args := [.bytes [0x00]] } = .ok (.sppPhDec [0x00]) ∧
  decode Config.default { op := 0x36, args := [.bytes [0x3F]] } = .ok (.tmShDec [0x3F]) ∧
  decode Config.default
    { op := 0x40, args := [.u16 933, .u8 2, .bytes [1], .bytes [], .ocf none, .bool false] } =
    .ok (.tmfNew 933 2 [1] [] none false) ∧
  decode Config.default { op := 0x50, args := [.vcid 2, .nat 4] } = .ok (.vcCreate 2 4) ∧
  decode Config.default { op := 0x60, args := [.vcid 3, .prio (-5)] } =
    .ok (.muxAddChannel 3 (-5)) ∧
  decode Config.default { op := 0x72, args := [.bytes []] } = .ok (.sppPktDecode [])

/-- The model's choice (logs 2, 6, 7, 8) under R70, R71 and R32: whatever the command, operands that
cannot be on the port are refused by name, and none of its effect happens: a tuple of the wrong types,
a byte string beyond `MAX_BYTES`, a weight beyond `PRIO_W` bits, and an SPP Secondary Header (an operand
itself, or inside a packet or an option) with an over-long string or a repeated key. A command with
none of these is well formed and runs. -/
def Obligations.OperandsThatCannotBeOnThePortAreRefused : Prop :=
  ∀ (s : State) (c : Command) (rest : List PortEvent), s.input = .command c :: rest →
    (decode s.cfg c = .error .operandTypes → step s = .refused .operandTypes) ∧
    ∀ i, decode s.cfg c = .ok i →
      (∀ B, .bytes B ∈ c.args → ¬ BytesFit s.cfg B →
        step s = .refused (.offPort .byteStringTooLong)) ∧
      (∀ w, .prio w ∈ c.args → ¬ WeightFits s.cfg w →
        step s = .refused (.offPort .priorityRange)) ∧
      ((∀ B, .bytes B ∈ c.args → BytesFit s.cfg B) →
        (∀ sh ∈ c.args.flatMap sppShInside, ¬ StringsFit sh →
          (∀ x ∈ c.args.flatMap sppShInside, StringsFit x → KeysDiffer x.otherFields) →
          step s = .refused (.offPort .stringTooLong)) ∧
        (∀ sh ∈ c.args.flatMap sppShInside, ¬ KeysDiffer sh.otherFields →
          (∀ x ∈ c.args.flatMap sppShInside, StringsFit x) →
          step s = .refused (.offPort .repeatedKey)) ∧
        (∀ sh ∈ c.args.flatMap sppShInside, ¬ (StringsFit sh ∧ KeysDiffer sh.otherFields) →
          step s = .refused (.offPort .stringTooLong) ∨ step s = .refused (.offPort .repeatedKey))) ∧
      ((∀ B, .bytes B ∈ c.args → BytesFit s.cfg B) → (∀ w, .prio w ∈ c.args → WeightFits s.cfg w) →
        (∀ sh ∈ c.args.flatMap sppShInside, StringsFit sh ∧ KeysDiffer sh.otherFields) →
        i.wellFormed s.cfg ∧ step s = exec i { s with input := rest })

/-- R300, R74: the status octet of every response is as R300's table says, `OK` alone has the code 0x00,
no two statuses share a code, the codes R300 leaves out are never produced, and a command answers with
an error status only where the table lists the command as producing it. -/
def Obligations.StatusOctetsFollowTheTable : Prop :=
  (∀ r, statusOctet r = 0x00 ↔ ∃ x, r = .ok x) ∧
  (∀ row ∈ statusTable, statusOctet (.fail row.1) = row.2.1) ∧
  (∀ e, e ∈ statusTable.map Prod.fst) ∧
  (∀ e e', statusOctet (.fail e) = statusOctet (.fail e') → e = e') ∧
  (∀ r, statusOctet r ≠ 0x0B ∧ statusOctet r ≠ 0x0F ∧ statusOctet r < 0x13) ∧
  ∀ (i : Instr) (s t : State) (e : ErrorStatus), exec i s = .next t → t.response = some (.fail e) →
    ∃ row ∈ statusTable, row.1 = e ∧ opcode i ∈ row.2.2
end

