-- ==== Sys2Proof/Laws/State.lean ====
section
/-! SUPPORT. One lemma per field per update of State, true by unfolding, so that no later proof
unfolds a record update; and what each update of a slot or a table entry does to the others. -/

namespace Sys2Proof.Machine

/-! ## `respond` -/

@[simp] theorem respond_cfg (s : State) (r : Response) : (s.respond r).cfg = s.cfg := rfl
@[simp] theorem respond_crc (s : State) (r : Response) : (s.respond r).crc = s.crc := rfl
@[simp] theorem respond_vc (s : State) (r : Response) : (s.respond r).vc = s.vc := rfl
@[simp] theorem respond_muxReg (s : State) (r : Response) : (s.respond r).muxReg = s.muxReg := rfl
@[simp] theorem respond_muxPrio (s : State) (r : Response) :
    (s.respond r).muxPrio = s.muxPrio := rfl
@[simp] theorem respond_muxLastUsed (s : State) (r : Response) :
    (s.respond r).muxLastUsed = s.muxLastUsed := rfl
@[simp] theorem respond_input (s : State) (r : Response) : (s.respond r).input = s.input := rfl
@[simp] theorem respond_response (s : State) (r : Response) :
    (s.respond r).response = some r := rfl
@[simp] theorem respond_slot (s : State) (r : Response) (v : Vcid) :
    (s.respond r).slot v = s.slot v := rfl
@[simp] theorem respond_queue (s : State) (r : Response) (v : Vcid) :
    (s.respond r).queue v = s.queue v := rfl
@[simp] theorem respond_qLen (s : State) (r : Response) (v : Vcid) :
    (s.respond r).qLen v = s.qLen v := rfl
@[simp] theorem respond_registered (s : State) (r : Response) (v : Vcid) :
    (s.respond r).registered v = s.registered v := rfl
@[simp] theorem respond_prio (s : State) (r : Response) (v : Vcid) :
    (s.respond r).prio v = s.prio v := rfl
@[simp] theorem respond_muxOrder (s : State) (r : Response) :
    (s.respond r).muxOrder = s.muxOrder := rfl

/-! ## `setSlot` -/

@[simp] theorem setSlot_cfg (s : State) (v : Vcid) (x : Slot) : (s.setSlot v x).cfg = s.cfg := rfl
@[simp] theorem setSlot_crc (s : State) (v : Vcid) (x : Slot) : (s.setSlot v x).crc = s.crc := rfl
@[simp] theorem setSlot_muxReg (s : State) (v : Vcid) (x : Slot) :
    (s.setSlot v x).muxReg = s.muxReg := rfl
@[simp] theorem setSlot_muxPrio (s : State) (v : Vcid) (x : Slot) :
    (s.setSlot v x).muxPrio = s.muxPrio := rfl
@[simp] theorem setSlot_muxLastUsed (s : State) (v : Vcid) (x : Slot) :
    (s.setSlot v x).muxLastUsed = s.muxLastUsed := rfl
@[simp] theorem setSlot_input (s : State) (v : Vcid) (x : Slot) :
    (s.setSlot v x).input = s.input := rfl
@[simp] theorem setSlot_response (s : State) (v : Vcid) (x : Slot) :
    (s.setSlot v x).response = s.response := rfl
@[simp] theorem setSlot_registered (s : State) (v w : Vcid) (x : Slot) :
    (s.setSlot v x).registered w = s.registered w := rfl
@[simp] theorem setSlot_prio (s : State) (v w : Vcid) (x : Slot) :
    (s.setSlot v x).prio w = s.prio w := rfl
@[simp] theorem setSlot_muxOrder (s : State) (v : Vcid) (x : Slot) :
    (s.setSlot v x).muxOrder = s.muxOrder := rfl

@[simp] theorem setSlot_slot_self (s : State) (v : Vcid) (x : Slot) :
    (s.setSlot v x).slot v = x := by simp [State.slot, State.setSlot]

theorem setSlot_slot_ne (s : State) {v w : Vcid} (x : Slot) (h : w ≠ v) :
    (s.setSlot v x).slot w = s.slot w := by
  have hn : v.toNat ≠ w.toNat := fun e => h (BitVec.eq_of_toNat_eq e.symm)
  simp [State.slot, State.setSlot, Vector.getElem_set_ne, hn]

/-! ## `setQueue` -/

@[simp] theorem setQueue_cfg (s : State) (v : Vcid) (q : List Frame) :
    (s.setQueue v q).cfg = s.cfg := rfl
@[simp] theorem setQueue_crc (s : State) (v : Vcid) (q : List Frame) :
    (s.setQueue v q).crc = s.crc := rfl
@[simp] theorem setQueue_muxReg (s : State) (v : Vcid) (q : List Frame) :
    (s.setQueue v q).muxReg = s.muxReg := rfl
@[simp] theorem setQueue_muxPrio (s : State) (v : Vcid) (q : List Frame) :
    (s.setQueue v q).muxPrio = s.muxPrio := rfl
@[simp] theorem setQueue_muxLastUsed (s : State) (v : Vcid) (q : List Frame) :
    (s.setQueue v q).muxLastUsed = s.muxLastUsed := rfl
@[simp] theorem setQueue_input (s : State) (v : Vcid) (q : List Frame) :
    (s.setQueue v q).input = s.input := rfl
@[simp] theorem setQueue_response (s : State) (v : Vcid) (q : List Frame) :
    (s.setQueue v q).response = s.response := rfl
@[simp] theorem setQueue_registered (s : State) (v w : Vcid) (q : List Frame) :
    (s.setQueue v q).registered w = s.registered w := rfl
@[simp] theorem setQueue_prio (s : State) (v w : Vcid) (q : List Frame) :
    (s.setQueue v q).prio w = s.prio w := rfl
@[simp] theorem setQueue_muxOrder (s : State) (v : Vcid) (q : List Frame) :
    (s.setQueue v q).muxOrder = s.muxOrder := rfl

@[simp] theorem setQueue_slot_self (s : State) (v : Vcid) (q : List Frame) :
    (s.setQueue v q).slot v = { s.slot v with q := q } := setSlot_slot_self ..

theorem setQueue_slot_ne (s : State) {v w : Vcid} (q : List Frame) (h : w ≠ v) :
    (s.setQueue v q).slot w = s.slot w := setSlot_slot_ne s _ h

@[simp] theorem setQueue_queue_self (s : State) (v : Vcid) (q : List Frame) :
    (s.setQueue v q).queue v = q := by simp [State.queue]

theorem setQueue_queue_ne (s : State) {v w : Vcid} (q : List Frame) (h : w ≠ v) :
    (s.setQueue v q).queue w = s.queue w := by simp [State.queue, setQueue_slot_ne s q h]

theorem setQueue_present (s : State) (v w : Vcid) (q : List Frame) :
    ((s.setQueue v q).slot w).present = (s.slot w).present := by
  by_cases h : w = v
  · subst h; simp
  · rw [setQueue_slot_ne s q h]

theorem setQueue_max (s : State) (v w : Vcid) (q : List Frame) :
    ((s.setQueue v q).slot w).max = (s.slot w).max := by
  by_cases h : w = v
  · subst h; simp
  · rw [setQueue_slot_ne s q h]

/-! ## `register` -/

@[simp] theorem register_cfg (s : State) (v : Vcid) (w : Int) : (s.register v w).cfg = s.cfg := rfl
@[simp] theorem register_crc (s : State) (v : Vcid) (w : Int) : (s.register v w).crc = s.crc := rfl
@[simp] theorem register_vc (s : State) (v : Vcid) (w : Int) : (s.register v w).vc = s.vc := rfl
@[simp] theorem register_muxLastUsed (s : State) (v : Vcid) (w : Int) :
    (s.register v w).muxLastUsed = s.muxLastUsed := rfl
@[simp] theorem register_input (s : State) (v : Vcid) (w : Int) :
    (s.register v w).input = s.input := rfl
@[simp] theorem register_response (s : State) (v : Vcid) (w : Int) :
    (s.register v w).response = s.response := rfl
@[simp] theorem register_slot (s : State) (v u : Vcid) (w : Int) :
    (s.register v w).slot u = s.slot u := rfl
@[simp] theorem register_queue (s : State) (v u : Vcid) (w : Int) :
    (s.register v w).queue u = s.queue u := rfl

@[simp] theorem register_registered_self (s : State) (v : Vcid) (w : Int) :
    (s.register v w).registered v = true := by simp [State.registered, State.register]

@[simp] theorem register_prio_self (s : State) (v : Vcid) (w : Int) :
    (s.register v w).prio v = w := by simp [State.prio, State.register]

theorem register_registered_ne (s : State) {v u : Vcid} (w : Int) (h : u ≠ v) :
    (s.register v w).registered u = s.registered u := by
  have hn : v.toNat ≠ u.toNat := fun e => h (BitVec.eq_of_toNat_eq e.symm)
  simp [State.registered, State.register, Vector.getElem_set_ne, hn]

theorem register_prio_ne (s : State) {v u : Vcid} (w : Int) (h : u ≠ v) :
    (s.register v w).prio u = s.prio u := by
  have hn : v.toNat ≠ u.toNat := fun e => h (BitVec.eq_of_toNat_eq e.symm)
  simp [State.prio, State.register, Vector.getElem_set_ne, hn]

/-! ## Reset -/

@[simp] theorem resetWith_cfg (c : Config) : (State.resetWith c).cfg = c := rfl
@[simp] theorem resetWith_input (c : Config) : (State.resetWith c).input = [] := rfl
@[simp] theorem resetWith_response (c : Config) : (State.resetWith c).response = none := rfl

@[simp] theorem resetWith_slot (c : Config) (v : Vcid) :
    (State.resetWith c).slot v = Slot.reset := by simp [State.slot, State.resetWith]

@[simp] theorem resetWith_queue (c : Config) (v : Vcid) : (State.resetWith c).queue v = [] := by
  simp [State.queue, Slot.reset]

@[simp] theorem resetWith_registered (c : Config) (v : Vcid) :
    (State.resetWith c).registered v = false := by simp [State.registered, State.resetWith]

@[simp] theorem resetWith_prio (c : Config) (v : Vcid) : (State.resetWith c).prio v = 0 := by
  simp [State.prio, State.resetWith]

@[simp] theorem resetEvent_cfg (s : State) : s.resetEvent.cfg = s.cfg := rfl
@[simp] theorem resetEvent_input (s : State) : s.resetEvent.input = s.input := rfl
@[simp] theorem resetEvent_slot (s : State) (v : Vcid) : s.resetEvent.slot v = Slot.reset :=
  resetWith_slot s.cfg v
@[simp] theorem resetEvent_registered (s : State) (v : Vcid) : s.resetEvent.registered v = false :=
  resetWith_registered s.cfg v
@[simp] theorem resetEvent_prio (s : State) (v : Vcid) : s.resetEvent.prio v = 0 :=
  resetWith_prio s.cfg v

end Sys2Proof.Machine
end

