-- ==== Sys2Proof/Laws/Ops.lean ====
section
/-! SUPPORT. For each shared operation, once, everything it can do. -/

namespace Sys2Proof.Machine

theorem ok_eq_next {s t : State} {r : Result} : s.ok r = .next t ↔ t = s.respond (.ok r) := by
  simp [State.ok, eq_comm]

theorem fail_eq_next {s t : State} {e : ErrorStatus} :
    s.fail e = .next t ↔ t = s.respond (.fail e) := by
  simp [State.fail, eq_comm]

/-- A stateless command changes the response only. -/
theorem answer_eq_next {α : Type} {s t : State} {x : Except ErrorStatus α} {r : α → Result} :
    s.answer x r = .next t ↔
      (∃ a, x = .ok a ∧ t = s.respond (.ok (r a))) ∨ ∃ e, x = .error e ∧ t = s.respond (.fail e) := by
  cases x <;> simp [State.answer, ok_eq_next, fail_eq_next]

theorem answer_ok {α : Type} {s : State} {x : Except ErrorStatus α} {r : α → Result} {a : α}
    (h : x = .ok a) : s.answer x r = .next (s.respond (.ok (r a))) := by subst h; rfl

theorem answer_error {α : Type} {s : State} {x : Except ErrorStatus α} {r : α → Result}
    {e : ErrorStatus} (h : x = .error e) : s.answer x r = .next (s.respond (.fail e)) := by
  subst h; rfl

theorem qPop_nil {s : State} {v : Vcid} (h : s.queue v = []) : s.qPop v = none := by
  simp [State.qPop, h]

theorem qPop_cons {s : State} {v : Vcid} {f : Frame} {q : List Frame} (h : s.queue v = f :: q) :
    s.qPop v = some (f, s.setQueue v q) := by
  simp [State.qPop, h]

/-- A pop takes the oldest frame and nothing else. -/
theorem qPop_eq_some {s t : State} {v : Vcid} {f : Frame} :
    s.qPop v = some (f, t) ↔ ∃ q, s.queue v = f :: q ∧ t = s.setQueue v q := by
  unfold State.qPop
  split <;> rename_i h
  · simp [h]
  · simp only [Option.some.injEq, Prod.mk.injEq, h, List.cons.injEq]
    constructor
    · rintro ⟨rfl, rfl⟩; exact ⟨_, ⟨rfl, rfl⟩, rfl⟩
    · rintro ⟨q, ⟨rfl, rfl⟩, rfl⟩; exact ⟨rfl, rfl⟩

theorem qPop_eq_none {s : State} {v : Vcid} : s.qPop v = none ↔ s.queue v = [] := by
  unfold State.qPop
  split <;> rename_i h <;> simp [h]

theorem mem_muxOrder {s : State} {v : Vcid} :
    v ∈ s.muxOrder ↔ v ∈ s.cfg.muxOrder ∧ s.registered v = true := by
  simp [State.muxOrder]

theorem muxOrder_nodup {s : State} (h : s.cfg.wf) : s.muxOrder.Nodup := h.1.filter _

/-- A list of VCIDs without repeats has at most eight entries. -/
theorem vcids_length_le {l : List Vcid} (h : l.Nodup) : l.length ≤ 8 := by
  have hn : (l.map BitVec.toFin).Nodup :=
    h.map fun a b e => BitVec.eq_of_toNat_eq (congrArg Fin.val e)
  simpa using hn.length_le_card

theorem registered_of_pos {s : State} {v : Vcid} {p : Nat} (h : s.muxOrder[p]? = some v) :
    s.registered v = true := (mem_muxOrder.1 (List.mem_of_getElem? h)).2

/-- What taking a command from the port can do. -/
theorem takeCommand_cases (s : State) (c : Command) :
    (decode s.cfg c = .error .reservedOpcode ∧
      s.takeCommand c = .done (s.respond (.fail .illegalCommand))) ∨
    (decode s.cfg c = .error .operandTypes ∧ s.takeCommand c = .stop .operandTypes) ∨
    (∃ i why, decode s.cfg c = .ok i ∧ offPort s.cfg i = some why ∧
      s.takeCommand c = .stop (.offPort why)) ∨
    ∃ i, decode s.cfg c = .ok i ∧ i.wellFormed s.cfg ∧ s.takeCommand c = .run i s := by
  unfold State.takeCommand
  rcases h : decode s.cfg c with e | i
  · cases e <;> simp
  · rcases h' : offPort s.cfg i with _ | why
    · exact .inr (.inr (.inr ⟨i, rfl, h', by simp [h']⟩))
    · exact .inr (.inr (.inl ⟨i, why, rfl, h', by simp [h']⟩))

/-- What a step can do: the block idles, is reset, turns a reserved opcode away, or runs a
well-formed command it decoded; in every other case it does not answer a next state. -/
theorem step_eq_next {s t : State} (h : step s = .next t) :
    (s.input = [] ∧ t = s) ∨
    (∃ rest, s.input = .reset :: rest ∧ t = { s with input := rest }.resetEvent) ∨
    (∃ c rest, s.input = .command c :: rest ∧ decode s.cfg c = .error .reservedOpcode ∧
      t = { s with input := rest }.respond (.fail .illegalCommand)) ∨
    ∃ c rest i, s.input = .command c :: rest ∧ decode s.cfg c = .ok i ∧ i.wellFormed s.cfg ∧
      exec i { s with input := rest } = .next t := by
  unfold step State.fetch at h
  rcases hi : s.input with _ | ⟨_ | _, rest⟩
  · simp only [hi, Host.Outcome.next.injEq] at h
    exact .inl ⟨rfl, h.symm⟩
  · rename_i c
    simp only [hi] at h
    rcases takeCommand_cases { s with input := rest } c with ⟨h1, h2⟩ | ⟨h1, h2⟩ |
      ⟨i, w, h1, h2, h3⟩ | ⟨i, h1, h2, h3⟩
    · simp only [h2, Host.Outcome.next.injEq] at h
      exact .inr (.inr (.inl ⟨c, rest, rfl, h1, h.symm⟩))
    · simp [h2] at h
    · simp [h3] at h
    · simp only [h3] at h
      exact .inr (.inr (.inr ⟨c, rest, i, rfl, h1, h2, h⟩))
  · simp only [hi, Host.Outcome.next.injEq] at h
    exact .inr (.inl ⟨rest, rfl, h.symm⟩)

end Sys2Proof.Machine
end

