-- ==== Sys2Proof/Laws/Crc.lean ====
section
/-! SUPPORT. The CRC register: one iteration is linear and injective, and so is the register's path
over a byte string. -/

namespace Sys2Proof.Machine

theorem xor_right_cancel {w : Nat} {a b c : BitVec w} (h : a ^^^ c = b ^^^ c) : a = b := by
  have := congrArg (· ^^^ c) h
  simpa [BitVec.xor_assoc] using this

theorem crcShift_xor (a b : Word16) : crcShift (a ^^^ b) = crcShift a ^^^ crcShift b := by
  unfold crcShift
  rw [BitVec.msb_xor]
  cases a.msb <;> cases b.msb <;> simp [BitVec.shiftLeft_xor_distrib]
  · ac_rfl
  · ac_rfl
  · generalize a <<< 1 = x, b <<< 1 = y, (4129#16) = z
    rw [show x ^^^ z ^^^ (y ^^^ z) = (x ^^^ y) ^^^ (z ^^^ z) by ac_rfl]
    simp

theorem crcShift_eq_zero {x : Word16} (h : crcShift x = 0) : x = 0 := by
  unfold crcShift at h
  have hm : x.msb = false := by
    rcases hx : x.msb with _ | _
    · rfl
    · rw [hx] at h
      have := congrArg (·.getLsbD 0) h
      simp at this
  rw [hm] at h
  refine BitVec.eq_of_getLsbD_eq fun i hi => ?_
  by_cases h15 : i = 15
  · subst h15; simpa [BitVec.msb_eq_getLsbD_last] using hm
  · have := congrArg (·.getLsbD (i + 1)) h
    simpa [show i + 1 < 16 by omega, BitVec.getLsbD_eq_getElem hi] using this

theorem crcShift_inj {a b : Word16} (h : crcShift a = crcShift b) : a = b := by
  have := crcShift_eq_zero (x := a ^^^ b) (by rw [crcShift_xor, h]; simp)
  have h2 := congrArg (· ^^^ b) this
  simpa [BitVec.xor_assoc] using h2

/-- Equal registers after one octet come from equal registers after that octet is put in. -/
theorem crc16Step_cancel {a b : Word16} {x y : Byte} (h : crc16Step a x = crc16Step b y) :
    a ^^^ (x.setWidth 16 <<< 8) = b ^^^ (y.setWidth 16 <<< 8) := by
  unfold crc16Step at h
  exact crcShift_inj (crcShift_inj (crcShift_inj (crcShift_inj (crcShift_inj (crcShift_inj
    (crcShift_inj (crcShift_inj h)))))))

theorem crc16From_cancel {a b : Word16} {D : Bytes} (h : crc16From a D = crc16From b D) : a = b := by
  induction D generalizing a b with
  | nil => exact h
  | cons x D ih => exact xor_right_cancel (crc16Step_cancel (ih h))

end Sys2Proof.Machine
end

