-- ==== Sys2Proof/Laws/Decode.lean ====
section
/-! SUPPORT. Operand tuples by their types, and opcodes by their numbers. -/

namespace Sys2Proof.Machine

/-- An opcode is its number. -/
theorem opcode_of_toNat {op : Byte} {n : Nat} (h : op.toNat = n) : op = BitVec.ofNat 8 n := by
  apply BitVec.eq_of_toNat_eq
  rw [← h]; simp

theorem typeOf_bytes {a : Operand} (h : typeOf a = .bytes) : ∃ x, a = .bytes x := by
  cases a <;> first | exact ⟨_, rfl⟩ | cases h

theorem typeOf_u16 {a : Operand} (h : typeOf a = .u16) : ∃ x, a = .u16 x := by
  cases a <;> first | exact ⟨_, rfl⟩ | cases h

theorem typeOf_u8 {a : Operand} (h : typeOf a = .u8) : ∃ x, a = .u8 x := by
  cases a <;> first | exact ⟨_, rfl⟩ | cases h

theorem typeOf_vcid {a : Operand} (h : typeOf a = .vcid) : ∃ x, a = .vcid x := by
  cases a <;> first | exact ⟨_, rfl⟩ | cases h

theorem typeOf_nat {a : Operand} (h : typeOf a = .nat) : ∃ x, a = .nat x := by
  cases a <;> first | exact ⟨_, rfl⟩ | cases h

theorem typeOf_prio {a : Operand} (h : typeOf a = .prio) : ∃ x, a = .prio x := by
  cases a <;> first | exact ⟨_, rfl⟩ | cases h

theorem typeOf_bool {a : Operand} (h : typeOf a = .bool) : ∃ x, a = .bool x := by
  cases a <;> first | exact ⟨_, rfl⟩ | cases h

theorem typeOf_ocf {a : Operand} (h : typeOf a = .ocf) : ∃ x, a = .ocf x := by
  cases a <;> first | exact ⟨_, rfl⟩ | cases h

theorem typeOf_sppPh {a : Operand} (h : typeOf a = .sppPh) : ∃ x, a = .sppPh x := by
  cases a <;> first | exact ⟨_, rfl⟩ | cases h

theorem typeOf_sppSh {a : Operand} (h : typeOf a = .sppSh) : ∃ x, a = .sppSh x := by
  cases a <;> first | exact ⟨_, rfl⟩ | cases h

theorem typeOf_tmPh {a : Operand} (h : typeOf a = .tmPh) : ∃ x, a = .tmPh x := by
  cases a <;> first | exact ⟨_, rfl⟩ | cases h

theorem typeOf_tmSh {a : Operand} (h : typeOf a = .tmSh) : ∃ x, a = .tmSh x := by
  cases a <;> first | exact ⟨_, rfl⟩ | cases h

theorem typeOf_frame {a : Operand} (h : typeOf a = .frame) : ∃ x, a = .frame x := by
  cases a <;> first | exact ⟨_, rfl⟩ | cases h

theorem typeOf_packet {a : Operand} (h : typeOf a = .packet) : ∃ x, a = .packet x := by
  cases a <;> first | exact ⟨_, rfl⟩ | cases h

theorem typeOf_options {a : Operand} (h : typeOf a = .options) : ∃ x, a = .options x := by
  cases a <;> first | exact ⟨_, rfl⟩ | cases h

theorem types_nil {args : List Operand} (h : args.map typeOf = []) : args = [] := by
  simpa using h

/-- The first operand of a tuple has the first type. -/
theorem types_cons {args : List Operand} {t : OperandType} {ts : List OperandType}
    (h : args.map typeOf = t :: ts) :
    ∃ a rest, args = a :: rest ∧ typeOf a = t ∧ rest.map typeOf = ts := by
  cases args with
  | nil => cases h
  | cons a rest =>
    simp only [List.map_cons, List.cons.injEq] at h
    exact ⟨a, rest, rfl, h.1, h.2⟩

end Sys2Proof.Machine
end

