-- ==== Sys2Proof/Laws/Mux.lean ====
section
/-! SUPPORT. What the multiplexer's selection can do (spec/45_vc_multiplexer.md R242). -/

namespace Sys2Proof.Machine

theorem muxSelect_some {s t : State} {f : Frame} (h : s.muxSelect = some (f, t)) :
    ∃ k v q, 1 ≤ k ∧ k ≤ s.muxOrder.length ∧
      s.muxOrder[(s.muxLastUsed + k) % s.muxOrder.length]? = some v ∧ s.queue v = f :: q ∧
      (∀ j w, 1 ≤ j → j < k →
        s.muxOrder[(s.muxLastUsed + j) % s.muxOrder.length]? = some w → s.queue w = []) ∧
      t = { s.setQueue v q with muxLastUsed := (s.muxLastUsed + k) % s.muxOrder.length } := by
  unfold State.muxSelect at h
  obtain ⟨l1, p, l2, hl, hp, hn⟩ := List.findSome?_eq_some_iff.1 h
  have hlen : l1.length < s.muxOrder.length := by
    have := congrArg List.length hl
    simp [muxPositions] at this; omega
  have hpos : ∀ j (hj : j < s.muxOrder.length),
      (muxPositions s.muxLastUsed s.muxOrder.length)[j]? = some ((s.muxLastUsed + (j + 1)) % s.muxOrder.length) := by
    intro j hj; simp [muxPositions, hj]
  have hp' : p = (s.muxLastUsed + (l1.length + 1)) % s.muxOrder.length := by
    have := hpos _ hlen
    rw [hl] at this; simpa using this
  simp only [State.muxPopAt] at hp
  split at hp <;> rename_i h1
  · simp at hp
  · simp only [Option.some.injEq, Prod.mk.injEq] at hp
    obtain ⟨rfl, rfl⟩ := hp
    split at h1 <;> rename_i h2
    · simp at h1
    · rename_i v
      obtain ⟨q, h3, rfl⟩ := qPop_eq_some.1 h1
      refine ⟨l1.length + 1, v, q, by omega, by omega, hp' ▸ h2, h3, ?_, by rw [hp']⟩
      intro j w hj1 hj2 hw
      have hmem : (s.muxLastUsed + j) % s.muxOrder.length ∈ l1 := by
        have := hpos (j-1) (by omega)
        rw [hl, List.getElem?_append_left (by omega), show j - 1 + 1 = j by omega] at this
        exact List.mem_of_getElem? this
      have := hn _ hmem
      simp only [State.muxPopAt, hw] at this
      split at this <;> rename_i h5
      · exact qPop_eq_none.1 h5
      · simp at this

theorem muxSelect_none {s : State} : s.muxSelect = none ↔ ∀ v ∈ s.muxOrder, s.queue v = [] := by
  unfold State.muxSelect
  rw [List.findSome?_eq_none_iff]
  constructor
  · intro h v hv
    obtain ⟨p, hp, rfl⟩ := List.getElem_of_mem hv
    have : p ∈ muxPositions s.muxLastUsed s.muxOrder.length := by
      simp only [muxPositions, List.mem_map, List.mem_range]
      have hN : 0 < s.muxOrder.length := by omega
      set N := s.muxOrder.length
      set L := s.muxLastUsed
      refine ⟨(p + (N - (L + 1) % N)) % N, Nat.mod_lt _ hN, ?_⟩
      have h1 : (L + 1) % N < N := Nat.mod_lt _ hN
      have : (L + ((p + (N - (L + 1) % N)) % N + 1)) % N = ((L+1) + (p + (N - (L + 1) % N))) % N := by
        rw [show L + ((p + (N - (L + 1) % N)) % N + 1) = (L + 1) + (p + (N - (L + 1) % N)) % N by omega, Nat.add_mod_mod]
      rw [this, ← Nat.mod_add_mod, show (L+1)%N + (p + (N - (L+1)%N)) = p + N by omega, Nat.add_mod_right, Nat.mod_eq_of_lt hp]
    have := h p this
    simp only [State.muxPopAt, List.getElem?_eq_getElem hp] at this
    split at this <;> rename_i h5
    · exact qPop_eq_none.1 h5
    · simp at this
  · intro h p hp
    simp only [State.muxPopAt]
    split <;> rename_i h1
    · rfl
    · split at h1 <;> rename_i h2
      · simp at h1
      · rw [qPop_nil (h _ (List.mem_of_getElem? h2))] at h1; simp at h1

theorem muxGet_cases (s : State) :
    (s.muxOrder = [] ∧ exec .muxGetNextFrame s = .next (s.respond (.fail .noChannels))) ∨
    (s.muxOrder ≠ [] ∧ (∀ v ∈ s.muxOrder, s.queue v = []) ∧ exec .muxGetNextFrame s = .next (s.respond (.fail .noFramesAvailable))) ∨
    ∃ k v f q, 1 ≤ k ∧ k ≤ s.muxOrder.length ∧
      s.muxOrder[(s.muxLastUsed + k) % s.muxOrder.length]? = some v ∧ s.queue v = f :: q ∧
      (∀ j w, 1 ≤ j → j < k →
        s.muxOrder[(s.muxLastUsed + j) % s.muxOrder.length]? = some w → s.queue w = []) ∧
      exec .muxGetNextFrame s = .next (State.respond { s.setQueue v q with muxLastUsed := (s.muxLastUsed + k) % s.muxOrder.length } (.ok (.frame f))) := by
  simp only [exec, execMuxGetNextFrame]
  split
  · rename_i h; exact .inl ⟨List.length_eq_zero_iff.1 h, rfl⟩
  · rename_i h
    have h0 : s.muxOrder ≠ [] := fun e => h (by simp [e])
    rcases h1 : s.muxSelect with _ | ⟨f, t⟩
    · exact .inr (.inl ⟨h0, muxSelect_none.1 h1, rfl⟩)
    · obtain ⟨k, v, q, a, b, c, d, e, rfl⟩ := muxSelect_some h1
      exact .inr (.inr ⟨k, v, f, q, a, b, c, d, e, rfl⟩)

end Sys2Proof.Machine
end

