-- ==== Sys2Proof/Laws/Exec.lean ====
section
/-! SUPPORT. What a command that answers can do to the state, once for all commands. -/

namespace Sys2Proof.Machine

/-- A command that answers gives a response and nothing else, or is one of the seven that write: the
three CRC commands, `VC_CREATE`, `VC_ADD_FRAME`, `VC_GET_NEXT_FRAME`, `MUX_ADD_CHANNEL` and
`MUX_GET_NEXT_FRAME`, each with what it writes. -/
theorem exec_cases {i : Instr} {s t : State} (h : exec i s = .next t) :
    (∃ r, t = s.respond r ∧ ((∃ e, r = .fail e) ∨ (∀ v f, i ≠ .vcAddFrame v f) ∧
      (∀ v, i ≠ .vcGetNextFrame v) ∧ i ≠ .muxGetNextFrame)) ∨
    (∃ c r, t = { s with crc := c, response := some (.ok r) } ∧
      (i = .crcInit ∨ (∃ data, i = .crcUpdate data) ∨ ∃ data, i = .crcCompute data)) ∨
    (∃ v n, i = .vcCreate v n ∧ (s.slot v).present = false ∧
      (∀ m, s.cfg.maxDepth = some m → n ≤ m) ∧
      t = (s.setSlot v { present := true, max := n, q := [] }).respond (.ok .unit)) ∨
    (∃ v f, i = .vcAddFrame v f ∧ (s.slot v).present = true ∧ s.qLen v < (s.slot v).max ∧
      t = (s.setQueue v (s.queue v ++ [f])).respond (.ok .unit)) ∨
    (∃ v f q, i = .vcGetNextFrame v ∧ (s.slot v).present = true ∧ s.queue v = f :: q ∧
      t = (s.setQueue v q).respond (.ok (.frame f))) ∨
    (∃ v w, i = .muxAddChannel v w ∧ (s.slot v).present = true ∧
      t = (s.register v w).respond (.ok .unit)) ∨
    (∃ v p f q, i = .muxGetNextFrame ∧ s.muxOrder[p]? = some v ∧ s.queue v = f :: q ∧
      t = State.respond { s.setQueue v q with muxLastUsed := p } (.ok (.frame f))) := by
  have ans : ∀ {α : Type} {x : Except ErrorStatus α} {r : α → Result}, s.answer x r = .next t →
      ∃ r, t = s.respond r := by
    intro α x r h
    rcases answer_eq_next.1 h with ⟨a, _, h⟩ | ⟨a, _, h⟩ <;> exact ⟨_, h⟩
  cases i
  case crcInit => injection h with h; exact .inr (.inl ⟨_, _, h.symm, .inl rfl⟩)
  case crcUpdate d => injection h with h; exact .inr (.inl ⟨_, _, h.symm, .inr (.inl ⟨d, rfl⟩)⟩)
  case crcCompute d => injection h with h; exact .inr (.inl ⟨_, _, h.symm, .inr (.inr ⟨d, rfl⟩)⟩)
  case crcRead => injection h with h; exact .inl ⟨_, h.symm, by simp⟩
  case tmGetMcid => injection h with h; exact .inl ⟨_, h.symm, by simp⟩
  case tmGetGvcid => injection h with h; exact .inl ⟨_, h.symm, by simp⟩
  case sppShDec B =>
    simp only [exec, execSppShDec] at h
    split at h
    · injection h with h; exact .inl ⟨_, h.symm, by simp⟩
    · split at h
      · injection h with h; exact .inl ⟨_, h.symm, by simp⟩
      · cases h
  case vcCreate v n =>
    simp only [exec, execVcCreate] at h
    split at h
    · injection h with h; exact .inl ⟨_, h.symm, by simp⟩
    · rename_i hp
      split at h
      · rename_i hd
        injection h with h
        refine .inr (.inr (.inl ⟨v, n, rfl, by simpa using hp, ?_, h.symm⟩))
        intro m hm; simpa [depthAllowed, hm] using hd
      · injection h with h; exact .inl ⟨_, h.symm, by simp⟩
  case vcAddFrame v f =>
    simp only [exec, execVcAddFrame] at h
    split at h
    · rename_i hp
      split at h
      · injection h with h; exact .inl ⟨_, h.symm, by simp⟩
      · injection h with h
        exact .inr (.inr (.inr (.inl ⟨v, f, rfl, hp, by omega, h.symm⟩)))
    · injection h with h; exact .inl ⟨_, h.symm, by simp⟩
  case vcGetNextFrame v =>
    simp only [exec, execVcGetNextFrame] at h
    split at h
    · rename_i hp
      split at h
      · injection h with h; exact .inl ⟨_, h.symm, by simp⟩
      · rename_i hq
        obtain ⟨q, h1, rfl⟩ := qPop_eq_some.1 hq
        injection h with h
        exact .inr (.inr (.inr (.inr (.inl ⟨v, _, q, rfl, hp, h1, h.symm⟩))))
    · injection h with h; exact .inl ⟨_, h.symm, by simp⟩
  case vcHasFrames v =>
    simp only [exec, execVcHasFrames] at h
    split at h <;> (injection h with h; exact .inl ⟨_, h.symm, by simp⟩)
  case muxAddChannel v w =>
    simp only [exec, execMuxAddChannel] at h
    split at h
    · rename_i hp; injection h with h
      exact .inr (.inr (.inr (.inr (.inr (.inl ⟨v, w, rfl, hp, h.symm⟩)))))
    · injection h with h; exact .inl ⟨_, h.symm, by simp⟩
  case muxGetNextFrame =>
    rcases muxGet_cases s with ⟨_, e⟩ | ⟨_, _, e⟩ | ⟨k, v, f, q, _, _, c, d, _, e⟩
    · rw [h] at e; injection e with e; exact .inl ⟨_, e, by simp⟩
    · rw [h] at e; injection e with e; exact .inl ⟨_, e, by simp⟩
    · rw [h] at e; injection e with e
      exact .inr (.inr (.inr (.inr (.inr (.inr ⟨v, _, f, q, rfl, c, d, e⟩)))))
  all_goals
    obtain ⟨r, e⟩ := ans h
    exact .inl ⟨r, e, by simp⟩

end Sys2Proof.Machine
end

