-- ==== Sys2Proof/Laws/Headers.lean ====
section
/-! SUPPORT. The primary headers as bits: what packing writes, what unpacking reads, and that each
undoes the other; what the header functions answer. -/

namespace Sys2Proof.Machine

/-- A value below `2 ^ n` is the extension of its low `n` bits. -/
theorem eq_setWidth_of_lt {w n : Nat} {x : BitVec w} (h : x.toNat < 2 ^ n) :
    x = (x.setWidth n).setWidth w := by
  apply BitVec.eq_of_toNat_eq
  simp [Nat.mod_eq_of_lt h]

theorem exists_setWidth_of_le {w n : Nat} {x m : BitVec w} (h : x ≤ m) (hm : m.toNat < 2 ^ n) :
    ∃ y : BitVec n, x = y.setWidth w :=
  ⟨x.setWidth n, eq_setWidth_of_lt (Nat.lt_of_le_of_lt (BitVec.le_def.1 h) hm)⟩

/-- Two fields joined by shift and or are the two side by side. -/
theorem join_eq {m n w : Nat} (x : BitVec m) (y : BitVec n) :
    x.setWidth w <<< n ||| y.setWidth w = (x ++ y).setWidth w := by
  refine BitVec.eq_of_getLsbD_eq fun i hi => ?_
  by_cases h : i < n
  · simp [BitVec.getLsbD_append, h, hi]
  · have : y.getLsbD i = false := BitVec.getLsbD_of_ge _ _ (by omega)
    simp [BitVec.getLsbD_append, h, hi, this]

theorem join_le {m n w : Nat} (x : BitVec m) (y : BitVec n) :
    (x.setWidth w <<< n ||| y.setWidth w).toNat < 2 ^ (m + n) := by
  rw [join_eq, BitVec.toNat_setWidth]
  exact Nat.lt_of_le_of_lt (Nat.mod_le ..) (x ++ y).isLt

theorem extend_lt {m w : Nat} (x : BitVec m) : (x.setWidth w).toNat < 2 ^ m := by
  rw [BitVec.toNat_setWidth]
  exact Nat.lt_of_le_of_lt (Nat.mod_le ..) x.isLt

/-! ## SPP Primary Header -/

theorem sppPhValid_iff {h : SppPrimaryHeader} : sppPhValid h = true ↔ SppPhInRange h := by
  simp [sppPhValid, SppPhInRange, BitVec.le_def]

/-- A header in range is its fields at their widths. -/
theorem sppPh_narrow {h : SppPrimaryHeader} (r : SppPhInRange h) :
    ∃ (v : BitVec 3) (t f : BitVec 1) (a : BitVec 11) (q : BitVec 2) (c : BitVec 14) (l : Word16),
      h = { version := v.setWidth 8, type := t.setWidth 8, secHdrFlag := f.setWidth 8,
            apid := a.setWidth 16, seqFlags := q.setWidth 8, seqCount := c.setWidth 16,
            packetLength := l } := by
  obtain ⟨h1, h2, h3, h4, h5, h6⟩ := r
  obtain ⟨v, e1⟩ := exists_setWidth_of_le (n := 3) h1 (by decide)
  obtain ⟨t, e2⟩ := exists_setWidth_of_le (n := 1) h2 (by decide)
  obtain ⟨f, e3⟩ := exists_setWidth_of_le (n := 1) h3 (by decide)
  obtain ⟨a, e4⟩ := exists_setWidth_of_le (n := 11) h4 (by decide)
  obtain ⟨q, e5⟩ := exists_setWidth_of_le (n := 2) h5 (by decide)
  obtain ⟨c, e6⟩ := exists_setWidth_of_le (n := 14) h6 (by decide)
  cases h
  subst e1 e2 e3 e4 e5 e6
  exact ⟨v, t, f, a, q, c, _, rfl⟩

/-- Packing a header in range writes the 48 bits of its fields. -/
theorem sppPhPack_word {h : SppPrimaryHeader} (r : SppPhInRange h) :
    ∃ b0 b1 b2 b3 b4 b5, sppPhPack h = [b0, b1, b2, b3, b4, b5] ∧
      word48 b0 b1 b2 b3 b4 b5 = sppPhWord h := by
  obtain ⟨v, t, f, a, q, c, l, rfl⟩ := sppPh_narrow r
  refine ⟨_, _, _, _, _, _, rfl, BitVec.eq_of_getLsbD_eq fun i hi => ?_⟩
  simp only [BitVec.getLsbD_append]
  interval_cases i <;> simp

/-- Unpacking reads the 48 bits into the fields. -/
theorem sppPhUnpack_word (b0 b1 b2 b3 b4 b5 : Byte) :
    sppPhWord (sppPhUnpack b0 b1 b2 b3 b4 b5) = word48 b0 b1 b2 b3 b4 b5 := by
  refine BitVec.eq_of_getLsbD_eq fun i hi => ?_
  simp only [BitVec.getLsbD_append, sppPhUnpack]
  interval_cases i <;> simp

/-- Every six octets unpack to a header in range (R132: the validation of `SPP_PH_DEC` never fails). -/
theorem sppPhUnpack_inRange (b0 b1 b2 b3 b4 b5 : Byte) :
    SppPhInRange (sppPhUnpack b0 b1 b2 b3 b4 b5) :=
  ⟨Nat.le_of_lt_succ (extend_lt _), Nat.le_of_lt_succ (extend_lt _),
    Nat.le_of_lt_succ (extend_lt _), Nat.le_of_lt_succ (join_le _ _),
    Nat.le_of_lt_succ (extend_lt _), Nat.le_of_lt_succ (join_le _ _)⟩

/-- Unpacking undoes packing, on a header in range. -/
theorem sppPhUnpack_pack {h : SppPrimaryHeader} (r : SppPhInRange h) :
    ∃ b0 b1 b2 b3 b4 b5, sppPhPack h = [b0, b1, b2, b3, b4, b5] ∧
      sppPhUnpack b0 b1 b2 b3 b4 b5 = h := by
  obtain ⟨v, t, f, a, q, c, l, rfl⟩ := sppPh_narrow r
  refine ⟨_, _, _, _, _, _, rfl, ?_⟩
  simp only [sppPhUnpack, SppPrimaryHeader.mk.injEq]
  refine ⟨?_, ?_, ?_, ?_, ?_, ?_, ?_⟩ <;>
    · refine BitVec.eq_of_getLsbD_eq fun i hi => ?_
      interval_cases i <;> simp

/-- Packing undoes unpacking. -/
theorem sppPhPack_unpack (b0 b1 b2 b3 b4 b5 : Byte) :
    sppPhPack (sppPhUnpack b0 b1 b2 b3 b4 b5) = [b0, b1, b2, b3, b4, b5] := by
  simp only [sppPhPack, sppPhUnpack, List.cons.injEq, and_true]
  refine ⟨?_, ?_, ?_, ?_, ?_, ?_⟩ <;>
    · refine BitVec.eq_of_getLsbD_eq fun i hi => ?_
      interval_cases i <;> simp

/-- What `SPP_PH_ENC` computes. -/
theorem sppPhEnc_cases (h : SppPrimaryHeader) :
    (SppPhInRange h ∧ sppPhEnc h = .ok (sppPhPack h)) ∨
    (¬ SppPhInRange h ∧ sppPhEnc h = .error .validationError) := by
  by_cases r : SppPhInRange h
  · exact .inl ⟨r, by simp [sppPhEnc, sppPhValid_iff.2 r]⟩
  · exact .inr ⟨r, by simp [sppPhEnc, sppPhValid_iff, r]⟩

/-- What `SPP_PH_DEC` computes. -/
theorem sppPhDec_six (b0 b1 b2 b3 b4 b5 : Byte) (rest : Bytes) :
    sppPhDec (b0 :: b1 :: b2 :: b3 :: b4 :: b5 :: rest) =
      .ok (sppPhUnpack b0 b1 b2 b3 b4 b5) := by
  simp [sppPhDec, sppPhValid_iff.2 (sppPhUnpack_inRange ..)]

theorem sppPhDec_short {B : Bytes} (h : B.length < 6) : sppPhDec B = .error .malformedHeader := by
  unfold sppPhDec
  split
  · simp at h; omega
  · rfl

/-- Decoding undoes packing, whatever follows the header. -/
theorem sppPhDec_pack {h : SppPrimaryHeader} (r : SppPhInRange h) (rest : Bytes) :
    sppPhDec (sppPhPack h ++ rest) = .ok h := by
  obtain ⟨b0, b1, b2, b3, b4, b5, e, e'⟩ := sppPhUnpack_pack r
  rw [e, ← e']
  exact sppPhDec_six ..

/-! ## TM Primary Header -/

theorem tmPhValid_iff {h : TmPrimaryHeader} : tmPhValid h = true ↔ TmPhInRange h := by
  simp only [tmPhValid, TmPhInRange, BitVec.le_def, decide_eq_true_eq]
  rfl

/-- The widths of a TM Primary Header's fields. -/
abbrev TmPhFits (h : TmPrimaryHeader) : Prop :=
  h.version ≤ 3 ∧ h.scid ≤ 1023 ∧ h.vcid ≤ 7 ∧ h.segLenId ≤ 3 ∧ h.fhp ≤ 2047

theorem TmPhInRange.fits {h : TmPrimaryHeader} (r : TmPhInRange h) : TmPhFits h :=
  ⟨by rw [r.1]; decide, r.2.1, r.2.2.1, r.2.2.2.1, r.2.2.2.2.1⟩

/-- A header whose fields fit is its fields at their widths. -/
theorem tmPh_narrow {h : TmPrimaryHeader} (r : TmPhFits h) :
    ∃ (v : BitVec 2) (s : BitVec 10) (c : BitVec 3) (l : BitVec 2) (p : BitVec 11)
      (o f y k : Bool) (m n : Byte),
      h = { version := v.setWidth 8, scid := s.setWidth 16, vcid := c.setWidth 8, ocfFlag := o,
            mcCount := m, vcCount := n, fshFlag := f, syncFlag := y, pktOrderFlag := k,
            segLenId := l.setWidth 8, fhp := p.setWidth 16 } := by
  obtain ⟨h1, h2, h3, h4, h5⟩ := r
  obtain ⟨v, e1⟩ := exists_setWidth_of_le (n := 2) h1 (by decide)
  obtain ⟨s, e2⟩ := exists_setWidth_of_le (n := 10) h2 (by decide)
  obtain ⟨c, e3⟩ := exists_setWidth_of_le (n := 3) h3 (by decide)
  obtain ⟨l, e4⟩ := exists_setWidth_of_le (n := 2) h4 (by decide)
  obtain ⟨p, e5⟩ := exists_setWidth_of_le (n := 11) h5 (by decide)
  cases h
  subst e1 e2 e3 e4 e5
  exact ⟨v, s, c, l, p, _, _, _, _, _, _, rfl⟩

theorem bit_eq (b : Bool) : bit b = (BitVec.ofBool b).setWidth 8 := by cases b <;> rfl

/-- Packing a header whose fields fit writes the 48 bits of its fields. -/
theorem tmPhPack_word {h : TmPrimaryHeader} (r : TmPhFits h) :
    ∃ b0 b1 b2 b3 b4 b5, tmPhPack h = [b0, b1, b2, b3, b4, b5] ∧
      word48 b0 b1 b2 b3 b4 b5 = tmPhWord h := by
  obtain ⟨v, s, c, l, p, o, f, y, k, m, n, rfl⟩ := tmPh_narrow r
  refine ⟨_, _, _, _, _, _, rfl, BitVec.eq_of_getLsbD_eq fun i hi => ?_⟩
  simp only [BitVec.getLsbD_append, bit_eq]
  interval_cases i <;> simp

/-- Unpacking reads the 48 bits into the fields. -/
theorem tmPhUnpack_word (b0 b1 b2 b3 b4 b5 : Byte) :
    tmPhWord (tmPhUnpack b0 b1 b2 b3 b4 b5) = word48 b0 b1 b2 b3 b4 b5 := by
  refine BitVec.eq_of_getLsbD_eq fun i hi => ?_
  simp only [BitVec.getLsbD_append, tmPhUnpack]
  interval_cases i <;> simp

/-- Every six octets unpack to a header whose fields fit. -/
theorem tmPhUnpack_fits (b0 b1 b2 b3 b4 b5 : Byte) : TmPhFits (tmPhUnpack b0 b1 b2 b3 b4 b5) :=
  ⟨Nat.le_of_lt_succ (extend_lt _), Nat.le_of_lt_succ (join_le _ _),
    Nat.le_of_lt_succ (extend_lt _), Nat.le_of_lt_succ (extend_lt _),
    Nat.le_of_lt_succ (join_le _ _)⟩

/-- Unpacking undoes packing, on a header whose fields fit. -/
theorem tmPhUnpack_pack {h : TmPrimaryHeader} (r : TmPhFits h) :
    ∃ b0 b1 b2 b3 b4 b5, tmPhPack h = [b0, b1, b2, b3, b4, b5] ∧
      tmPhUnpack b0 b1 b2 b3 b4 b5 = h := by
  obtain ⟨v, s, c, l, p, o, f, y, k, m, n, rfl⟩ := tmPh_narrow r
  refine ⟨_, _, _, _, _, _, rfl, ?_⟩
  simp only [tmPhUnpack, bit_eq]
  congr 1
  case e_ocfFlag => simp
  case e_fshFlag => simp
  case e_syncFlag => simp
  case e_pktOrderFlag => simp
  all_goals
    refine BitVec.eq_of_getLsbD_eq fun i hi => ?_
    interval_cases i <;> simp

/-- Packing undoes unpacking. -/
theorem tmPhPack_unpack (b0 b1 b2 b3 b4 b5 : Byte) :
    tmPhPack (tmPhUnpack b0 b1 b2 b3 b4 b5) = [b0, b1, b2, b3, b4, b5] := by
  simp only [tmPhPack, tmPhUnpack, bit_eq, List.cons.injEq, and_true, true_and]
  refine ⟨?_, ?_, ?_, ?_⟩ <;>
    · refine BitVec.eq_of_getLsbD_eq fun i hi => ?_
      interval_cases i <;> simp

/-- What `TM_PH_ENC` computes. -/
theorem tmPhEnc_cases (h : TmPrimaryHeader) :
    (TmPhInRange h ∧ tmPhEnc h = .ok (tmPhPack h)) ∨
    (¬ TmPhInRange h ∧ tmPhEnc h = .error .validationError) := by
  by_cases r : TmPhInRange h
  · exact .inl ⟨r, by simp [tmPhEnc, tmPhValid_iff.2 r]⟩
  · exact .inr ⟨r, by simp [tmPhEnc, tmPhValid_iff, r]⟩

theorem tmPhEnc_ok {h : TmPrimaryHeader} (r : TmPhInRange h) : tmPhEnc h = .ok (tmPhPack h) := by
  simp [tmPhEnc, tmPhValid_iff.2 r]

/-- What `TM_PH_DEC` computes: short input, an invalid header, or a header that packs to the first six
octets. -/
theorem tmPhDec_cases (B : Bytes) :
    (B.length < 6 ∧ tmPhDec B = .error .malformedHeader) ∨
    ∃ h rest, B = tmPhPack h ++ rest ∧ TmPhFits h ∧
      ((TmPhInRange h ∧ tmPhDec B = .ok h) ∨
        (¬ TmPhInRange h ∧ tmPhDec B = .error .malformedHeader)) := by
  unfold tmPhDec
  split
  · rename_i b0 b1 b2 b3 b4 b5 rest
    refine .inr ⟨tmPhUnpack b0 b1 b2 b3 b4 b5, rest, by rw [tmPhPack_unpack]; rfl,
      tmPhUnpack_fits .., ?_⟩
    by_cases r : TmPhInRange (tmPhUnpack b0 b1 b2 b3 b4 b5)
    · exact .inl ⟨r, by simp [tmPhValid_iff.2 r]⟩
    · exact .inr ⟨r, by simp [tmPhValid_iff, r]⟩
  · rename_i h
    refine .inl ⟨?_, rfl⟩
    match B, h with
    | [], _ | [_], _ | [_, _], _ | [_, _, _], _ | [_, _, _, _], _ | [_, _, _, _, _], _ => simp
    | _ :: _ :: _ :: _ :: _ :: _ :: _, h => exact absurd rfl (h _ _ _ _ _ _ _)

/-- Decoding undoes packing, whatever follows the header. -/
theorem tmPhDec_pack {h : TmPrimaryHeader} (r : TmPhInRange h) (rest : Bytes) :
    tmPhDec (tmPhPack h ++ rest) = .ok h := by
  obtain ⟨b0, b1, b2, b3, b4, b5, e, e'⟩ := tmPhUnpack_pack r.fits
  rw [e]
  simp only [List.cons_append, List.nil_append, tmPhDec, e', tmPhValid_iff.2 r, if_true]

theorem tmPhPack_length (h : TmPrimaryHeader) : (tmPhPack h).length = 6 := rfl

end Sys2Proof.Machine
end

