-- ==== Sys2Proof/Laws/Frames.lean ====
section
/-! SUPPORT. The TM Secondary Header, slices, and the parts of a TM Transfer Frame: what serialising
and parsing each part answers. -/

namespace Sys2Proof.Machine

/-! ## Answers -/

/-- An `ok` answer comes from the computation's result. -/
theorem answer_ok_inv {α : Type} {s : State} {x : Except ErrorStatus α} {r : α → Result} {q : Result}
    (h : s.answer x r = .next (s.respond (.ok q))) : ∃ a, x = .ok a ∧ r a = q := by
  rcases answer_eq_next.1 h with ⟨a, e, h2⟩ | ⟨a, e, h2⟩
  · have := congrArg State.response h2
    simp only [respond_response, Option.some.injEq, Response.ok.injEq] at this
    exact ⟨a, e, this.symm⟩
  · have := congrArg State.response h2
    simp at this

/-- An error answer comes from the computation's error. -/
theorem answer_error_inv {α : Type} {s : State} {x : Except ErrorStatus α} {r : α → Result}
    {e : ErrorStatus} (h : s.answer x r = .next (s.respond (.fail e))) : x = .error e := by
  rcases answer_eq_next.1 h with ⟨a, _, h2⟩ | ⟨a, e', h2⟩
  · have := congrArg State.response h2
    simp at this
  · have := congrArg State.response h2
    simp only [respond_response, Option.some.injEq, Response.fail.injEq] at this
    rw [e', this]

/-! ## Octets and slices -/

theorem be16_eq (v : Word16) : be16 v = octets16 v.toNat := by
  simp only [be16, octets16]
  congr 1
  apply BitVec.eq_of_toNat_eq
  simp [BitVec.extractLsb'_toNat, Nat.shiftRight_eq_div_pow]

theorem be16_append (hi lo : Byte) : be16 (hi ++ lo) = [hi, lo] := by
  simp only [be16, List.cons.injEq, and_true]
  constructor <;>
    · refine BitVec.eq_of_getLsbD_eq fun i hi => ?_
      simp only [BitVec.getLsbD_extractLsb', BitVec.getLsbD_append]
      interval_cases i <;> simp

theorem fromBe16_be16 (v : Word16) : fromBe16 (be16 v) = v := by
  refine BitVec.eq_of_getLsbD_eq fun i hi => ?_
  simp only [be16, fromBe16, word16, BitVec.getLsbD_append]
  interval_cases i <;> simp

theorem word16_be16 (v : Word16) : word16 (v.extractLsb' 8 8) (v.extractLsb' 0 8) = v :=
  fromBe16_be16 v

@[simp] theorem be16_length (v : Word16) : (be16 v).length = 2 := rfl

theorem slice_left (A B : Bytes) {n : Nat} (h : n = A.length) : slice (A ++ B) 0 n = A := by
  subst h; simp [slice]

theorem slice_mid (A B C : Bytes) {m n : Nat} (hm : m = A.length) (hn : n = A.length + B.length) :
    slice (A ++ B ++ C) m n = B := by
  subst hm hn; simp [slice, List.take_append]

theorem slice_right (A B : Bytes) {m n : Nat} (hm : m = A.length) (hn : n = A.length + B.length) :
    slice (A ++ B) m n = B := by
  simpa using slice_mid A B [] hm hn

/-- A buffer of two or more octets is its front and its last two octets. -/
theorem split_last_two {B : Bytes} (h : 2 ≤ B.length) : ∃ D hi lo, B = D ++ [hi, lo] := by
  have h1 : (B.drop (B.length - 2)).length = 2 := by simp; omega
  match e : B.drop (B.length - 2), h1 with
  | [hi, lo], _ => exact ⟨B.take (B.length - 2), hi, lo, by rw [← e, List.take_append_drop]⟩

/-! ## TM Secondary Header -/

theorem tmShValid_iff {cfg : Config} {h : TmSecondaryHeader} :
    tmShValid cfg h = true ↔ TmShInRange cfg h := by
  simp only [tmShValid, TmShInRange, BitVec.le_def, decide_eq_true_eq]
  rfl

/-- What `TM_SH_ENC` computes. -/
theorem tmShEnc_cases (cfg : Config) (h : TmSecondaryHeader) :
    (TmShInRange cfg h ∧ tmShEnc cfg h = .ok (h.headerLength :: h.dataField)) ∨
    (¬ TmShInRange cfg h ∧ tmShEnc cfg h = .error .validationError) := by
  by_cases r : TmShInRange cfg h
  · refine .inl ⟨r, ?_⟩
    simp only [tmShEnc, tmShValid_iff.2 r, if_true, tmShPack, r.1]
    simp
  · exact .inr ⟨r, by simp only [tmShEnc, tmShValid_iff, r, if_false]⟩

/-- A first octet with version bits 0 is a header length. -/
theorem tmShUnpack_low {b : Byte} (h : b ≤ 63) (rest : Bytes) :
    tmShUnpack b rest = { version := 0, headerLength := b, dataField := rest } := by
  obtain ⟨y, rfl⟩ := exists_setWidth_of_le (n := 6) h (by decide)
  simp only [tmShUnpack, TmSecondaryHeader.mk.injEq, and_true]
  constructor <;>
    · refine BitVec.eq_of_getLsbD_eq fun i hi => ?_
      interval_cases i <;> simp

/-- A first octet with a version bit set unpacks to a version other than 0. -/
theorem tmShUnpack_high {b : Byte} (h : ¬ b ≤ 63) (rest : Bytes) :
    (tmShUnpack b rest).version ≠ 0 := by
  revert h; simp only [tmShUnpack]; revert b; decide

theorem TmShBuffer_cons {cfg : Config} {b : Byte} {rest : Bytes} :
    TmShBuffer cfg (b :: rest) ↔ b ≤ 63 ∧
      (cfg.tmshBoundEnforced = true → rest.length ≤ b.toNat) := by
  constructor
  · rintro ⟨b', rest', e, h⟩
    cases e; exact h
  · exact fun h => ⟨b, rest, rfl, h⟩

/-- What `TM_SH_DEC` computes. -/
theorem tmShDec_cases (cfg : Config) (B : Bytes) :
    (∃ b rest, B = b :: rest ∧ TmShBuffer cfg B ∧
      TmShInRange cfg { version := 0, headerLength := b, dataField := rest } ∧
      tmShDec cfg B = .ok { version := 0, headerLength := b, dataField := rest }) ∨
    (¬ TmShBuffer cfg B ∧ tmShDec cfg B = .error .malformedHeader) := by
  match B with
  | [] => exact .inr ⟨by simp [TmShBuffer], rfl⟩
  | b :: rest =>
    by_cases h : b ≤ 63
    · by_cases h2 : cfg.tmshBoundEnforced = true → rest.length ≤ b.toNat
      · have r : TmShInRange cfg { version := 0, headerLength := b, dataField := rest } := ⟨rfl, h, h2⟩
        refine .inl ⟨b, rest, rfl, ⟨b, rest, rfl, h, h2⟩, r, ?_⟩
        simp only [tmShDec, tmShUnpack_low h, tmShValid_iff.2 r, if_true]
      · refine .inr ⟨fun x => h2 (TmShBuffer_cons.1 x).2, ?_⟩
        simp only [tmShDec, tmShUnpack_low h]
        rw [if_neg]
        exact fun x => h2 (tmShValid_iff.1 x).2.2
    · refine .inr ⟨fun x => h (TmShBuffer_cons.1 x).1, ?_⟩
      simp only [tmShDec]
      rw [if_neg]
      exact fun x => tmShUnpack_high h rest (tmShValid_iff.1 x).1

/-- Decoding a wire form that is a TM Secondary Header. -/
theorem tmShDec_ok {cfg : Config} {b : Byte} {rest : Bytes} (h : TmShBuffer cfg (b :: rest)) :
    tmShDec cfg (b :: rest) = .ok { version := 0, headerLength := b, dataField := rest } := by
  rcases tmShDec_cases cfg (b :: rest) with ⟨_, _, e, _, _, h'⟩ | ⟨h', _⟩
  · cases e; exact h'
  · exact absurd h h'

/-! ## Serialising a frame -/

theorem secOctets_none {f : Frame} (h : f.header.fshFlag = false) : secOctets f = [] := by
  unfold secOctets; rw [h]

theorem secOctets_some {f : Frame} {sh : TmSecondaryHeader} (h : f.header.fshFlag = true)
    (h2 : f.sec = some sh) : secOctets f = sh.headerLength :: sh.dataField := by
  unfold secOctets; rw [h, h2]

theorem ocfOctets_none {f : Frame} (h : f.ocf = none) : ocfOctets f = [] := by
  unfold ocfOctets; rw [h]; cases f.header.ocfFlag <;> rfl

theorem ocfOctets_some {f : Frame} {o : Octets4} (h : f.header.ocfFlag = true)
    (h2 : f.ocf = some o) : ocfOctets f = [o.o0, o.o1, o.o2, o.o3] := by
  unfold ocfOctets; rw [h, h2]

/-- What `TMF_ENCODE_NOFEC` computes. -/
theorem frameBody_cases (cfg : Config) (f : Frame) :
    (FrameEncodable cfg f ∧
      frameBody cfg f = .ok (tmPhPack f.header ++ secOctets f ++ f.data ++ ocfOctets f)) ∨
    (¬ FrameEncodable cfg f ∧ frameBody cfg f = .error .validationError) := by
  have ho : frameOcf f = ocfOctets f := by
    unfold frameOcf ocfOctets octets4
    cases f.header.ocfFlag <;> cases f.ocf <;> rfl
  unfold frameBody FrameEncodable
  rcases tmPhEnc_cases f.header with ⟨r, e⟩ | ⟨r, e⟩
  · simp only [e, ho, frameSec, secOctets]
    rcases hf : f.header.fshFlag with _ | _
    · exact .inl ⟨⟨r, by simp⟩, by simp⟩
    · rcases hs : f.sec with _ | sh
      · exact .inr ⟨by simp, by simp⟩
      · rcases tmShEnc_cases cfg sh with ⟨r', e'⟩ | ⟨r', e'⟩
        · exact .inl ⟨⟨r, fun _ => ⟨sh, rfl, r'⟩⟩, by simp [e']⟩
        · refine .inr ⟨?_, by simp [e']⟩
          rintro ⟨_, h⟩
          obtain ⟨sh', e2, r2⟩ := h rfl
          cases e2; exact r' r2
  · exact .inr ⟨fun h => r h.1, by simp [e]⟩

theorem tmfEncode_ok {cfg : Config} {f : Frame} (h : FrameEncodable cfg f) :
    tmfEncode cfg f =
      .ok (tmPhPack f.header ++ secOctets f ++ f.data ++ ocfOctets f ++ be16 f.fec) := by
  rcases frameBody_cases cfg f with ⟨_, e⟩ | ⟨h', _⟩
  · simp [tmfEncode, e]
  · exact absurd h h'

/-! ## Building a frame -/

theorem tmfNewHeader_inRange (scid : Word16) (vcid : Byte) {n : Nat} (o : Bool) {sync : Bool}
    (h : sync = false → n ≤ 2047) : TmPhInRange (tmfNewHeader scid vcid n o sync) := by
  refine ⟨rfl, ?_, ?_, (by decide : (3#8) ≤ 3), ?_, fun _ => ⟨rfl, rfl⟩, fun e => ?_⟩
  · simp only [tmfNewHeader, BitVec.le_def, BitVec.toNat_and]; exact Nat.and_le_right
  · simp only [tmfNewHeader, BitVec.le_def, BitVec.toNat_and]; exact Nat.and_le_right
  · cases sync
    · have := h rfl
      simp only [tmfNewHeader, BitVec.le_def]
      simp; omega
    · simp [tmfNewHeader]
  · simp only [tmfNewHeader] at e
    subst e; rfl

/-- The secondary header a wire form stands for, when it is empty or decodes. -/
abbrev secOf (sh : Bytes) : Option TmSecondaryHeader :=
  sh.head?.map fun b => { version := 0, headerLength := b, dataField := sh.tail }

/-- What `TMF_NEW` makes of the wire form of the secondary header. -/
theorem tmfNewSec_cases (cfg : Config) (sh : Bytes) :
    ((sh ≠ [] → TmShBuffer cfg sh) ∧ tmfNewSec cfg sh = .ok (secOf sh)) ∨
    (sh ≠ [] ∧ ¬ TmShBuffer cfg sh ∧ tmfNewSec cfg sh = .error .malformedHeader) := by
  rcases sh with _ | ⟨b, rest⟩
  · exact .inl ⟨by simp, by simp [tmfNewSec]⟩
  · rcases tmShDec_cases cfg (b :: rest) with ⟨_, _, e, h, _, h'⟩ | ⟨h, h'⟩
    · cases e; exact .inl ⟨fun _ => h, by simp [tmfNewSec, h']⟩
    · exact .inr ⟨by simp, h, by simp [tmfNewSec, h']⟩

/-- The frame `TMF_NEW` builds, with Frame Error Control `c`. -/
abbrev newFrame (scid : Word16) (vcid : Byte) (data sh : Bytes) (ocf : Option Octets4)
    (sync : Bool) (c : Word16) : Frame :=
  { header := tmfNewHeader scid vcid sh.length ocf.isSome sync, sec := secOf sh, data := data,
    ocf := ocf, fec := c }

theorem newFrame_encodable {cfg : Config} {sh : Bytes} {sync : Bool} (scid : Word16) (vcid : Byte)
    (data : Bytes) (ocf : Option Octets4) (c : Word16) (h : sync = false → sh.length ≤ 2047)
    (h2 : sh ≠ [] → TmShBuffer cfg sh) :
    FrameEncodable cfg (newFrame scid vcid data sh ocf sync c) := by
  refine ⟨tmfNewHeader_inRange _ _ _ h, fun e => ?_⟩
  rcases sh with _ | ⟨b, rest⟩
  · simp [tmfNewHeader] at e
  · exact ⟨_, rfl, rfl, TmShBuffer_cons.1 (h2 (by simp))⟩

theorem newFrame_secOctets (scid : Word16) (vcid : Byte) (data sh : Bytes) (ocf : Option Octets4)
    (sync : Bool) (c : Word16) :
    secOctets (newFrame scid vcid data sh ocf sync c) = sh := by
  cases sh <;> rfl

theorem newFrame_ocfOctets (scid : Word16) (vcid : Byte) (data sh : Bytes) (ocf : Option Octets4)
    (sync : Bool) (c : Word16) :
    ocfOctets (newFrame scid vcid data sh ocf sync c) =
      (ocf.map fun o => [o.o0, o.o1, o.o2, o.o3]).getD [] := by
  cases ocf <;> rfl

/-- The octets of a frame `TMF_NEW` builds, without its Frame Error Control. -/
theorem newFrame_body {cfg : Config} {scid : Word16} {vcid : Byte} {data sh : Bytes}
    {ocf : Option Octets4} {sync : Bool} {c : Word16}
    (h : FrameEncodable cfg (newFrame scid vcid data sh ocf sync c)) :
    frameBody cfg (newFrame scid vcid data sh ocf sync c) =
      .ok (tmPhPack (tmfNewHeader scid vcid sh.length ocf.isSome sync) ++ sh ++ data ++
        (ocf.map fun o => [o.o0, o.o1, o.o2, o.o3]).getD []) := by
  rcases frameBody_cases cfg (newFrame scid vcid data sh ocf sync c) with ⟨_, e⟩ | ⟨h', _⟩
  · rw [e, newFrame_secOctets, newFrame_ocfOctets]
  · exact absurd h h'

/-- What `TMF_NEW` computes. -/
theorem tmfNew_cases (cfg : Config) (scid : Word16) (vcid : Byte) (data sh : Bytes)
    (ocf : Option Octets4) (sync : Bool) :
    (data.length > 65535 ∧ tmfNew cfg scid vcid data sh ocf sync = .error .validationError) ∨
    (sync = false ∧ sh.length > 2047 ∧
      tmfNew cfg scid vcid data sh ocf sync = .error .validationError) ∨
    (data.length ≤ 65535 ∧ (sync = false → sh.length ≤ 2047) ∧
      ((sh ≠ [] ∧ ¬ TmShBuffer cfg sh ∧
          tmfNew cfg scid vcid data sh ocf sync = .error .malformedHeader) ∨
        (sh ≠ [] → TmShBuffer cfg sh) ∧
          (∀ c, FrameEncodable cfg (newFrame scid vcid data sh ocf sync c)) ∧
          ∃ B, B = tmPhPack (tmfNewHeader scid vcid sh.length ocf.isSome sync) ++ sh ++ data ++
              (ocf.map fun o => [o.o0, o.o1, o.o2, o.o3]).getD [] ∧
            tmfNew cfg scid vcid data sh ocf sync =
              .ok (newFrame scid vcid data sh ocf sync (crc16 B)))) := by
  by_cases h1 : data.length > 65535
  · exact .inl ⟨h1, by simp [tmfNew, h1]⟩
  by_cases h2 : sync = false ∧ sh.length > 2047
  · exact .inr (.inl ⟨h2.1, h2.2, by simp [tmfNew, h1, h2]⟩)
  have h3 : sync = false → sh.length ≤ 2047 := fun e => by
    by_contra hc; exact h2 ⟨e, by omega⟩
  refine .inr (.inr ⟨by omega, h3, ?_⟩)
  rcases tmfNewSec_cases cfg sh with ⟨h, e⟩ | ⟨h, h', e⟩
  · have hn := fun c => newFrame_encodable scid vcid data ocf c h3 h
    refine .inr ⟨h, hn, _, rfl, ?_⟩
    simp only [tmfNew, h1, h2, if_false, e, tmfSeal, newFrame_body (hn 0)]
  · exact .inl ⟨h, h', by simp only [tmfNew, h1, h2, if_false, e]⟩

/-! ## Parsing a frame -/

theorem toOctets4_octets (o : Octets4) : toOctets4 [o.o0, o.o1, o.o2, o.o3] = some o := rfl

/-- A buffer of eight or more octets is a header whose fields fit, a body and two octets. -/
theorem frame_split {B : Bytes} (h : 8 ≤ B.length) :
    ∃ hd body hi lo, B = tmPhPack hd ++ body ++ [hi, lo] ∧ TmPhFits hd := by
  match B, h with
  | b0 :: b1 :: b2 :: b3 :: b4 :: b5 :: rest, h =>
    obtain ⟨body, hi, lo, rfl⟩ := split_last_two (B := rest) (by simpa using h)
    exact ⟨tmPhUnpack b0 b1 b2 b3 b4 b5, body, hi, lo, by rw [tmPhPack_unpack]; rfl,
      tmPhUnpack_fits ..⟩

/-- `TMF_DECODE` of eight or more octets: the header, then the CRC, then the body. -/
theorem tmfDecode_split (cfg : Config) {h : TmPrimaryHeader} (hf : TmPhFits h) (body : Bytes)
    (hi lo : Byte) :
    (¬ TmPhInRange h ∧
      tmfDecode cfg (tmPhPack h ++ body ++ [hi, lo]) = .error .malformedHeader) ∨
    (TmPhInRange h ∧ crc16 (tmPhPack h ++ body) ≠ word16 hi lo ∧
      tmfDecode cfg (tmPhPack h ++ body ++ [hi, lo]) = .error .integrityError) ∨
    (TmPhInRange h ∧ crc16 (tmPhPack h ++ body) = word16 hi lo ∧
      tmfDecode cfg (tmPhPack h ++ body ++ [hi, lo]) = tmfDecodeBody cfg h body (word16 hi lo)) := by
  have hl : (tmPhPack h ++ body ++ [hi, lo]).length = body.length + 8 := by
    simp [tmPhPack_length]; omega
  have s1 : slice (tmPhPack h ++ body ++ [hi, lo]) 0 6 = tmPhPack h := by
    rw [List.append_assoc]; exact slice_left _ _ rfl
  have s2 : slice (tmPhPack h ++ body ++ [hi, lo]) 0 (body.length + 8 - 2) = tmPhPack h ++ body :=
    slice_left _ _ (by simp [tmPhPack_length]; omega)
  have s3 : slice (tmPhPack h ++ body ++ [hi, lo]) (body.length + 8 - 2) (body.length + 8) = [hi, lo] :=
    slice_right _ _ (by simp [tmPhPack_length]; omega) (by simp [tmPhPack_length]; omega)
  have s4 : slice (tmPhPack h ++ body ++ [hi, lo]) 6 (body.length + 8 - 2) = body :=
    slice_mid _ _ _ rfl (by simp [tmPhPack_length]; omega)
  unfold tmfDecode
  rw [hl, s1, s2, s3, s4, if_neg (by omega)]
  by_cases r : TmPhInRange h
  · have hd := tmPhDec_pack r []
    rw [List.append_nil] at hd
    rw [hd]
    dsimp only
    by_cases hc : crc16 (tmPhPack h ++ body) = word16 hi lo
    · exact .inr (.inr ⟨r, hc, by rw [if_neg (not_not.2 hc : ¬ crc16 _ ≠ fromBe16 [hi, lo]), if_neg (by omega)]; rfl⟩)
    · exact .inr (.inl ⟨r, hc, by rw [if_pos (show crc16 (tmPhPack h ++ body) ≠ fromBe16 [hi, lo] from hc)]⟩)
  · refine .inl ⟨r, ?_⟩
    obtain ⟨b0, b1, b2, b3, b4, b5, e, e'⟩ := tmPhUnpack_pack hf
    have hd : tmPhDec (tmPhPack h) = .error .malformedHeader := by
      rw [e]; simp only [tmPhDec, e', tmPhValid_iff, r, if_false]
    rw [hd]

/-- `TMF_DECODE` of a valid header and a body under the right Frame Error Control parses the body. -/
theorem tmfDecode_sealed {cfg : Config} {h : TmPrimaryHeader} (r : TmPhInRange h) (body : Bytes) :
    tmfDecode cfg (tmPhPack h ++ body ++ be16 (crc16 (tmPhPack h ++ body))) =
      tmfDecodeBody cfg h body (crc16 (tmPhPack h ++ body)) := by
  rcases tmfDecode_split cfg r.fits body ((crc16 (tmPhPack h ++ body)).extractLsb' 8 8)
    ((crc16 (tmPhPack h ++ body)).extractLsb' 0 8) with ⟨r', _⟩ | ⟨_, hc, _⟩ | ⟨_, hc, e⟩
  · exact absurd r r'
  · exact absurd (word16_be16 _).symm hc
  · rw [word16_be16] at e; exact e

/-- A buffer `TMF_DECODE` answers with a frame has eight octets or more. -/
theorem tmfDecode_length {cfg : Config} {B : Bytes} {f : Frame} (h : tmfDecode cfg B = .ok f) :
    8 ≤ B.length := by
  by_contra hc
  unfold tmfDecode at h
  split at h
  · cases h
  · split at h
    · cases h
    · split at h
      · cases h
      · simp [show B.length < 8 by omega] at h

/-- What parsing the secondary header at the front of a body can answer. -/
theorem tmfDecodeSec_cases (cfg : Config) (h : TmPrimaryHeader) (body : Bytes) :
    (h.fshFlag = false ∧ tmfDecodeSec cfg h body = .ok (none, 0)) ∨
    (h.fshFlag = true ∧ h.fhp.toNat ≤ body.length ∧ TmShBuffer cfg (body.take h.fhp.toNat) ∧
      ∃ sh, tmfDecodeSec cfg h body = .ok (some sh, h.fhp.toNat)) ∨
    (h.fshFlag = true ∧ (body.length < h.fhp.toNat ∨ ¬ TmShBuffer cfg (body.take h.fhp.toNat)) ∧
      tmfDecodeSec cfg h body = .error .malformedHeader) := by
  unfold tmfDecodeSec
  rcases hf : h.fshFlag with _ | _
  · exact .inl ⟨rfl, rfl⟩
  · refine .inr ?_
    rw [if_pos rfl]
    by_cases hl : h.fhp.toNat > body.length
    · exact .inr ⟨rfl, .inl hl, if_pos hl⟩
    · rw [if_neg hl, show slice body 0 h.fhp.toNat = body.take h.fhp.toNat from rfl]
      rcases tmShDec_cases cfg (body.take h.fhp.toNat) with ⟨_, _, _, b, _, e⟩ | ⟨b, e⟩
      · exact .inl ⟨rfl, by omega, b, _, by rw [e]⟩
      · exact .inr ⟨rfl, .inr b, by rw [e]⟩

/-- Parsing the body that R90 lays out for a header. -/
theorem tmfDecodeBody_parts {cfg : Config} {h : TmPrimaryHeader} {sh : Bytes} (data : Bytes)
    {o : Option Octets4} (rx : Word16)
    (h1 : h.fshFlag = true → sh.length = h.fhp.toNat ∧ TmShBuffer cfg sh)
    (h2 : h.fshFlag = false → sh = []) (h3 : h.ocfFlag = false → o = none)
    (h4 : h.ocfFlag = true → o = none → data.length < 4) :
    tmfDecodeBody cfg h (sh ++ data ++ (o.map fun w => [w.o0, w.o1, w.o2, w.o3]).getD []) rx =
      .ok { header := h, sec := secOf sh, data := data, ocf := o, fec := rx } := by
  have hs : tmfDecodeSec cfg h (sh ++ data ++ (o.map fun w => [w.o0, w.o1, w.o2, w.o3]).getD []) =
      .ok (secOf sh, sh.length) := by
    unfold tmfDecodeSec
    rcases hf : h.fshFlag with _ | _
    · rw [h2 hf]; rfl
    · obtain ⟨e1, e2⟩ := h1 hf
      rw [if_pos rfl, ← e1, if_neg (by simp), List.append_assoc, slice_left _ _ rfl]
      rcases sh with _ | ⟨b, rest⟩
      · obtain ⟨_, _, e, _⟩ := e2; cases e
      · rw [tmShDec_ok e2]; rfl
  unfold tmfDecodeBody
  rw [hs]
  dsimp only
  congr 2
  · unfold tmfDecodeOcf
    rcases o with _ | w
    · rw [if_neg]
      · simp [slice, -List.length_append]
      · rintro ⟨hc, hl⟩
        have := h4 hc rfl
        simp at hl; omega
    · have hc : h.ocfFlag = true := by
        rcases hc : h.ocfFlag with _ | _
        · cases h3 hc
        · rfl
      have hlen : (sh ++ data ++ ((some w).map fun w => [w.o0, w.o1, w.o2, w.o3]).getD []).length =
          sh.length + data.length + 4 := by simp; omega
      rw [if_pos ⟨hc, by simp only [hlen]; omega⟩]
      exact slice_mid sh data _ rfl (by simp only [hlen]; omega)
  · unfold tmfDecodeOcf
    rcases o with _ | w
    · rw [if_neg]
      rintro ⟨hc, hl⟩
      have := h4 hc rfl
      simp at hl; omega
    · have hc : h.ocfFlag = true := by
        rcases hc : h.ocfFlag with _ | _
        · cases h3 hc
        · rfl
      have hlen : (sh ++ data ++ ((some w).map fun w => [w.o0, w.o1, w.o2, w.o3]).getD []).length =
          sh.length + data.length + 4 := by simp; omega
      rw [if_pos ⟨hc, by simp only [hlen]; omega⟩]
      dsimp only
      rw [slice_right (sh ++ data) (((some w).map fun w => [w.o0, w.o1, w.o2, w.o3]).getD [])]
      · rfl
      · simp only [hlen, List.length_append]; omega
      · simp; omega

/-- A frame parsed from a body serialises to that body. -/
theorem tmfDecodeBody_inv {cfg : Config} {h : TmPrimaryHeader} {body : Bytes} {rx : Word16} {f : Frame}
    (r : TmPhInRange h) (e : tmfDecodeBody cfg h body rx = .ok f) :
    FrameEncodable cfg f ∧ f.header = h ∧ f.fec = rx ∧
      body = secOctets f ++ f.data ++ ocfOctets f := by
  have part : ∀ sec pos, tmfDecodeSec cfg h body = .ok (sec, pos) → pos ≤ body.length ∧
      (∀ f : Frame, f.header = h → f.sec = sec → secOctets f = body.take pos) ∧
      (h.fshFlag = true → ∃ sh, sec = some sh ∧ TmShInRange cfg sh) := by
    intro sec pos e
    unfold tmfDecodeSec at e
    split at e
    · rename_i hf
      split at e
      · cases e
      · rename_i hp
        rcases tmShDec_cases cfg (slice body 0 h.fhp.toNat) with ⟨b, rest, e2, _, r, e3⟩ | ⟨_, e3⟩
        · rw [e3] at e; cases e
          refine ⟨by omega, fun f h1 h2 => ?_, fun _ => ⟨_, rfl, r⟩⟩
          rw [secOctets_some (by rw [h1]; exact hf) h2, ← e2]; rfl
        · rw [e3] at e; cases e
    · rename_i hf
      cases e
      refine ⟨by omega, fun f h1 h2 => ?_, fun h => absurd h hf⟩
      rw [secOctets_none (by rw [h1]; simpa using hf)]; rfl
  unfold tmfDecodeBody at e
  split at e
  · cases e
  · rename_i sec pos e2
    obtain ⟨p1, p2, p3⟩ := part sec pos e2
    injection e with e
    subst e
    refine ⟨⟨r, p3⟩, rfl, rfl, ?_⟩
    rw [p2 _ rfl rfl]
    unfold tmfDecodeOcf
    split
    · rename_i hc
      have h4 : (slice body (body.length - 4) body.length).length = 4 := by simp [slice]; omega
      match e4 : slice body (body.length - 4) body.length, h4 with
      | [a, b, c, d], _ =>
        rw [ocfOctets_some (o := ⟨a, b, c, d⟩) hc.1 rfl, ← e4]
        simp only [slice, List.take_length]
        have : body.take pos ++ (body.take (body.length - 4)).drop pos =
            body.take (body.length - 4) := by
          conv_rhs => rw [← List.take_append_drop pos (body.take (body.length - 4))]
          rw [List.take_take, Nat.min_eq_left (by omega)]
        rw [this, List.take_append_drop]
    · rw [ocfOctets_none rfl]
      simp [slice]

end Sys2Proof.Machine
end

