-- ==== Sys2Proof/Laws/Operands.lean ====
section
/-! SUPPORT. What the operand checks of the port can answer (spec/30_encoding.md R70, R71), in the terms
of the statements. -/

namespace Sys2Proof.Machine

theorem checkBytes_cases (cfg : Config) (B : Bytes) :
    (BytesFit cfg B ∧ checkBytes cfg B = none) ∨
    (¬ BytesFit cfg B ∧ checkBytes cfg B = some .byteStringTooLong) := by
  unfold checkBytes BytesFit
  rcases cfg.maxBytes with _ | m
  · exact .inl ⟨by simp, rfl⟩
  · by_cases h : B.length ≤ m <;> simp [h]

theorem checkPrio_cases (cfg : Config) (w : Int) :
    (WeightFits cfg w ∧ checkPrio cfg w = none) ∨
    (¬ WeightFits cfg w ∧ checkPrio cfg w = some .priorityRange) := by
  unfold checkPrio fitsSigned WeightFits
  by_cases h : -(2 ^ cfg.prioW : Int) ≤ 2 * w ∧ 2 * w < 2 ^ cfg.prioW
  · exact .inl ⟨h, if_pos (decide_eq_true h)⟩
  · exact .inr ⟨h, if_neg (by simpa only [decide_eq_true_eq] using h)⟩

/-- What a check of the SPP Secondary Headers in `L` can answer: nothing is wrong, or one of them has an
over-long string, or one of them repeats a key. -/
abbrev HeadersChecked (L : List SppSecondaryHeader) (x : Option OffPort) : Prop :=
  (x = none ∧ ∀ sh ∈ L, StringsFit sh ∧ KeysDiffer sh.otherFields) ∨
  (x = some .stringTooLong ∧ ∃ sh ∈ L, ¬ StringsFit sh) ∨
  (x = some .repeatedKey ∧ ∃ sh ∈ L, StringsFit sh ∧ ¬ KeysDiffer sh.otherFields)

theorem checkSppSh_cases (sh : SppSecondaryHeader) : HeadersChecked [sh] (checkSppSh sh) := by
  have h1 : (sh.otherFields.all fun f => isStr16 f.key && isStr16 f.value) = true ↔ StringsFit sh := by
    simp [isStr16]
  unfold HeadersChecked checkSppSh
  by_cases s : StringsFit sh
  · rw [if_pos (h1.2 s)]
    by_cases k : KeysDiffer sh.otherFields
    · exact .inl ⟨if_pos (decide_eq_true k), by simpa only [List.mem_singleton, forall_eq] using ⟨s, k⟩⟩
    · exact .inr (.inr ⟨if_neg (by simpa only [keysDistinct, decide_eq_true_eq] using k),
        sh, List.mem_singleton.2 rfl, s, k⟩)
  · exact .inr (.inl ⟨if_neg (mt h1.1 s), sh, List.mem_singleton.2 rfl, s⟩)

theorem checkPacket_cases (p : SpacePacket) :
    HeadersChecked (sppShInside (.packet p)) (checkPacket p) := by
  rcases p with ⟨_, _ | sh, _, _⟩
  · exact .inl ⟨rfl, by simp [sppShInside]⟩
  · exact checkSppSh_cases sh

theorem checkOptions_cases (os : List SppOption) :
    HeadersChecked (sppShInside (.options os)) (checkOptions os) := by
  induction os with
  | nil => exact .inl ⟨rfl, by simp [sppShInside]⟩
  | cons o os ih =>
    rcases o with sh | c
    · have e : sppShInside (.options (.withSecondaryHeader sh :: os)) =
          sh :: sppShInside (.options os) := rfl
      rw [e, checkOptions]
      rcases checkSppSh_cases sh with ⟨h, a⟩ | ⟨h, x, hx, a⟩ | ⟨h, x, hx, a⟩
      · rw [h, Option.none_or]
        have a := a sh (List.mem_singleton.2 rfl)
        rcases ih with ⟨h', b⟩ | ⟨h', x, hx, b⟩ | ⟨h', x, hx, b⟩
        · exact .inl ⟨h', List.forall_mem_cons.2 ⟨a, b⟩⟩
        · exact .inr (.inl ⟨h', x, List.mem_cons_of_mem _ hx, b⟩)
        · exact .inr (.inr ⟨h', x, List.mem_cons_of_mem _ hx, b⟩)
      · obtain rfl := List.mem_singleton.1 hx
        exact .inr (.inl ⟨by rw [h]; rfl, x, List.mem_cons_self, a⟩)
      · obtain rfl := List.mem_singleton.1 hx
        exact .inr (.inr ⟨by rw [h]; rfl, x, List.mem_cons_self, a⟩)
    · exact ih

/-- Why the operands of a command cannot be on the port, for all commands at once: nothing is wrong, or
the first thing found to be wrong, byte strings before headers. -/
theorem offPort_cases (cfg : Config) (i : Instr) :
    (∀ B, .bytes B ∈ operands i → BytesFit cfg B) ∧ (∀ w, .prio w ∈ operands i → WeightFits cfg w) ∧
      HeadersChecked ((operands i).flatMap sppShInside) (offPort cfg i) ∨
    ((∃ B, .bytes B ∈ operands i ∧ ¬ BytesFit cfg B) ∧ (∀ w, .prio w ∉ operands i) ∧
      offPort cfg i = some .byteStringTooLong) ∨
    ((∃ w, .prio w ∈ operands i ∧ ¬ WeightFits cfg w) ∧ (∀ B, .bytes B ∉ operands i) ∧
      (operands i).flatMap sppShInside = [] ∧ offPort cfg i = some .priorityRange) := by
  have none_ok : HeadersChecked [] none := .inl ⟨rfl, by simp⟩
  cases i
  case crcUpdate B | crcCompute B | sppPhDec B | sppShDec B | tmPhDec B | tmShDec B | tmfDecode B |
      sppPktDecode B =>
    rcases checkBytes_cases cfg B with ⟨h, e⟩ | ⟨h, e⟩
    · refine .inl ⟨by simpa [operands] using h, by simp [operands], ?_⟩
      exact (show HeadersChecked [] (checkBytes cfg B) from e ▸ none_ok)
    · exact .inr (.inl ⟨⟨B, by simp [operands], h⟩, by simp [operands], e⟩)
  case sppShEnc sh | sppShValidate sh =>
    refine .inl ⟨by simp [operands], by simp [operands], ?_⟩
    exact checkSppSh_cases sh
  case sppPktEncode p | sppPktValidate p =>
    refine .inl ⟨by simp [operands], by simp [operands], ?_⟩
    rw [show (operands _).flatMap sppShInside = sppShInside (.packet p) by simp [operands]]
    exact checkPacket_cases p
  case muxAddChannel v w =>
    rcases checkPrio_cases cfg w with ⟨h, e⟩ | ⟨h, e⟩
    · refine .inl ⟨by simp [operands], by simpa [operands] using h, ?_⟩
      exact (show HeadersChecked [] (checkPrio cfg w) from e ▸ none_ok)
    · exact .inr (.inr ⟨⟨w, by simp [operands], h⟩, by simp [operands], rfl, e⟩)
  case tmfNew scid vcid data sh o sync =>
    rcases checkBytes_cases cfg data with ⟨h, e⟩ | ⟨h, e⟩
    · rcases checkBytes_cases cfg sh with ⟨h2, e2⟩ | ⟨h2, e2⟩
      · refine .inl ⟨by simpa [operands] using ⟨h, h2⟩, by simp [operands], ?_⟩
        rw [show offPort cfg _ = none by simp [offPort, e, e2]]; exact none_ok
      · exact .inr (.inl ⟨⟨sh, by simp [operands], h2⟩, by simp [operands], by simp [offPort, e, e2]⟩)
    · exact .inr (.inl ⟨⟨data, by simp [operands], h⟩, by simp [operands], by simp [offPort, e]⟩)
  case sppPktNew apid type data os =>
    rcases checkBytes_cases cfg data with ⟨h, e⟩ | ⟨h, e⟩
    · refine .inl ⟨by simpa [operands] using h, by simp [operands], ?_⟩
      rw [show offPort cfg _ = checkOptions os by simp [offPort, e],
        show (operands _).flatMap sppShInside = sppShInside (.options os) by
          simp [operands, sppShInside]]
      exact checkOptions_cases os
    · exact .inr (.inl ⟨⟨data, by simp [operands], h⟩, by simp [operands], by simp [offPort, e]⟩)
  all_goals
    refine .inl ⟨by simp [operands], by simp [operands], ?_⟩
    exact none_ok

end Sys2Proof.Machine
end

