-- ==== Sys2Proof/Laws/Packets.lean ====
section
/-! SUPPORT. The SPP Secondary Header's field records and timestamp, and the parts of an SPP packet:
what serialising and parsing each part answers. -/

namespace Sys2Proof.Machine

/-! ## Reads at the front of a buffer -/

theorem be16_ofNat (n : Nat) : be16 (BitVec.ofNat 16 n) = octets16 n := by
  rw [be16_eq]
  simp only [octets16, BitVec.toNat_ofNat, List.cons.injEq, and_true]
  constructor <;>
    · apply BitVec.eq_of_toNat_eq
      simp only [BitVec.toNat_ofNat]
      omega

theorem readU16_octets16 (n : Nat) (rest : Bytes) :
    readU16 (octets16 n ++ rest) = some (BitVec.ofNat 16 n, rest) := by
  rw [← be16_ofNat]
  simp only [be16, List.cons_append, List.nil_append, readU16, word16_be16]

theorem readU16_be16 (c : Word16) (rest : Bytes) : readU16 (be16 c ++ rest) = some (c, rest) := by
  simp only [be16, List.cons_append, List.nil_append, readU16, word16_be16]

theorem readU16_short {B : Bytes} (h : B.length < 2) : readU16 B = none := by
  match B, h with
  | [], _ => rfl
  | [_], _ => rfl

/-- A 16-bit read takes the two octets of the value it answers. -/
theorem readU16_inv {B rest : Bytes} {v : Word16} (h : readU16 B = some (v, rest)) :
    B = octets16 v.toNat ++ rest := by
  match B, h with
  | hi :: lo :: _, h =>
    simp only [readU16, Option.some.injEq, Prod.mk.injEq] at h
    obtain ⟨rfl, rfl⟩ := h
    rw [← be16_eq, word16, be16_append]
    rfl

theorem readN_append (A rest : Bytes) : readN A.length (A ++ rest) = some (A, rest) := by
  simp [readN]

theorem readN_short {n : Nat} {B : Bytes} (h : B.length < n) : readN n B = none := by
  rw [readN, if_neg (by omega)]

theorem readN_inv {n : Nat} {B A rest : Bytes} (h : readN n B = some (A, rest)) :
    B = A ++ rest ∧ A.length = n := by
  unfold readN at h
  split at h
  · simp only [Option.some.injEq, Prod.mk.injEq] at h
    obtain ⟨rfl, rfl⟩ := h
    exact ⟨(List.take_append_drop ..).symm, by simp; omega⟩
  · cases h

theorem word64_be64 (v : Word64) :
    word64 (v.extractLsb' 56 8) (v.extractLsb' 48 8) (v.extractLsb' 40 8) (v.extractLsb' 32 8)
      (v.extractLsb' 24 8) (v.extractLsb' 16 8) (v.extractLsb' 8 8) (v.extractLsb' 0 8) = v := by
  refine BitVec.eq_of_getLsbD_eq fun i hi => ?_
  simp only [word64, BitVec.getLsbD_append]
  interval_cases i <;> simp

theorem be64_word64 (a b c d e f g h : Byte) :
    be64 (word64 a b c d e f g h) = [a, b, c, d, e, f, g, h] := by
  simp only [be64, word64, List.cons.injEq, and_true]
  refine ⟨?_, ?_, ?_, ?_, ?_, ?_, ?_, ?_⟩ <;>
    · refine BitVec.eq_of_getLsbD_eq fun i hi => ?_
      simp only [BitVec.getLsbD_extractLsb', BitVec.getLsbD_append]
      interval_cases i <;> simp

@[simp] theorem be64_length (v : Word64) : (be64 v).length = 8 := rfl

theorem readU64_be64 (v : Word64) (rest : Bytes) : readU64 (be64 v ++ rest) = some (v, rest) := by
  simp only [be64, List.cons_append, List.nil_append, readU64, word64_be64]

theorem readU64_inv {B rest : Bytes} {v : Word64} (h : readU64 B = some (v, rest)) :
    B = be64 v ++ rest := by
  unfold readU64 at h
  split at h
  · simp only [Option.some.injEq, Prod.mk.injEq] at h
    obtain ⟨rfl, rfl⟩ := h
    rw [be64_word64]; rfl
  · cases h

theorem readU64_short {B : Bytes} (h : B.length < 8) : readU64 B = none := by
  rcases e : readU64 B with _ | ⟨v, rest⟩
  · rfl
  · have := readU64_inv e
    subst this
    simp at h

/-! ## Field records -/

theorem fieldOctets_length (f : SppField) :
    (fieldOctets f).length = 5 + f.key.length + f.value.length := by
  simp; omega

theorem sppFieldPack_eq {f : SppField} (h : f.tag = 1) : sppFieldPack f = fieldOctets f := by
  simp [sppFieldPack, be16_ofNat, h]

/-- What writing the field records computes. -/
theorem sppFieldsEnc_cases (fs : List SppField) :
    ((∀ f ∈ fs, f.tag = 1) ∧ sppFieldsEnc fs = .ok (fs.flatMap fieldOctets)) ∨
    ((∃ f ∈ fs, f.tag ≠ 1) ∧ sppFieldsEnc fs = .error .unsupportedFieldType) := by
  induction fs with
  | nil => exact .inl ⟨by simp, rfl⟩
  | cons f fs ih =>
    by_cases h : f.tag = 1
    · rcases ih with ⟨h1, e⟩ | ⟨h1, e⟩
      · refine .inl ⟨by simpa [h] using h1, ?_⟩
        simp only [sppFieldsEnc, h, if_true, e, sppFieldPack_eq h, List.flatMap_cons]
      · refine .inr ⟨?_, by simp [sppFieldsEnc, h, e]⟩
        obtain ⟨x, hx, hx'⟩ := h1
        exact ⟨x, by simp [hx], hx'⟩
    · exact .inr ⟨⟨f, by simp, h⟩, by rw [sppFieldsEnc, if_neg h]⟩

/-- What `SPP_SH_ENC` computes. -/
theorem sppShEnc_cases (sh : SppSecondaryHeader) :
    ((∀ f ∈ sh.otherFields, f.tag = 1) ∧
      sppShEnc sh = .ok (be64 sh.timestamp ++ sh.otherFields.flatMap fieldOctets)) ∨
    ((∃ f ∈ sh.otherFields, f.tag ≠ 1) ∧ sppShEnc sh = .error .unsupportedFieldType) := by
  rcases sppFieldsEnc_cases sh.otherFields with ⟨h, e⟩ | ⟨h, e⟩
  · exact .inl ⟨h, by simp [sppShEnc, e]⟩
  · exact .inr ⟨h, by simp [sppShEnc, e]⟩

/-- Reading a whole field record. -/
theorem sppFieldRead_octets {f : SppField} (h : StringField f) (rest : Bytes) :
    sppFieldRead (fieldOctets f ++ rest) = .ok (f, rest) := by
  obtain ⟨h1, h2, h3⟩ := h
  have e : fieldOctets f ++ rest = octets16 f.key.length ++ (f.key ++ (f.tag ::
      (octets16 f.value.length ++ (f.value ++ rest)))) := by simp
  have n : ∀ B : Bytes, B.length ≤ 65535 → (BitVec.ofNat 16 B.length).toNat = B.length := by
    intro B hB; simp; omega
  unfold sppFieldRead
  rw [e, readU16_octets16]
  dsimp only
  rw [n _ h2, readN_append]
  dsimp only
  rw [if_pos h1, readU16_octets16]
  dsimp only
  rw [n _ h3, readN_append]
  cases f; subst h1; rfl

/-- A field record that was read is a string field, and its octets stood at the front. -/
theorem sppFieldRead_inv {B rest : Bytes} {f : SppField} (h : sppFieldRead B = .ok (f, rest)) :
    StringField f ∧ B = fieldOctets f ++ rest := by
  unfold sppFieldRead at h
  split at h
  · cases h
  · rename_i kl B1 h1
    split at h
    · cases h
    · cases h
    · rename_i key tag B2 h2
      split at h
      · rename_i ht
        split at h
        · cases h
        · rename_i vl B3 h3
          split at h
          · cases h
          · rename_i value B4 h4
            simp only [Except.ok.injEq, Prod.mk.injEq] at h
            obtain ⟨rfl, rfl⟩ := h
            have := readU16_inv h1
            obtain ⟨rfl, hk⟩ := readN_inv h2
            have := readU16_inv h3
            obtain ⟨rfl, hv⟩ := readN_inv h4
            have := kl.isLt
            have := vl.isLt
            refine ⟨⟨rfl, by dsimp only; omega, by dsimp only; omega⟩, ?_⟩
            subst_vars
            simp [hk, hv]
      · cases h

/-- A field record cut short is `MalformedHeader`. -/
theorem sppFieldRead_cut {r : SppField} (h : StringField r) {n : Nat}
    (hn : n < (fieldOctets r).length) :
    sppFieldRead ((fieldOctets r).take n) = .error .malformedHeader := by
  obtain ⟨h1, h2, h3⟩ := h
  have e : fieldOctets r = octets16 r.key.length ++ (r.key ++ (r.tag ::
      (octets16 r.value.length ++ r.value))) := by simp
  have nat : ∀ B : Bytes, B.length ≤ 65535 → (BitVec.ofNat 16 B.length).toNat = B.length := by
    intro B hB; simp; omega
  have l2 : ∀ m, (octets16 m).length = 2 := fun _ => rfl
  rw [fieldOctets_length] at hn
  unfold sppFieldRead
  rw [e]
  by_cases c1 : n < 2
  · rw [readU16_short (by simp; omega)]
  rw [List.take_append, List.take_of_length_le (by rw [l2]; omega), readU16_octets16, l2]
  dsimp only
  rw [nat _ h2]
  by_cases c2 : n - 2 < r.key.length
  · rw [readN_short (by simp; omega)]
  rw [List.take_append, List.take_of_length_le (by omega), readN_append]
  by_cases c3 : n - 2 - r.key.length = 0
  · rw [c3]; rfl
  obtain ⟨m, hm⟩ := Nat.exists_eq_succ_of_ne_zero c3
  rw [hm, List.take_succ_cons]
  dsimp only
  rw [if_pos h1]
  by_cases c4 : m < 2
  · rw [readU16_short (by simp; omega)]
  rw [List.take_append, List.take_of_length_le (by rw [l2]; omega), readU16_octets16, l2]
  dsimp only
  rw [nat _ h3, readN_short (by simp; omega)]

/-- A tag other than 1 is `UnsupportedFieldType`, whatever follows it. -/
theorem sppFieldRead_tag {key : Bytes} {tag : Byte} (h : key.length ≤ 65535) (h2 : tag ≠ 1)
    (rest : Bytes) :
    sppFieldRead (octets16 key.length ++ key ++ tag :: rest) = .error .unsupportedFieldType := by
  unfold sppFieldRead
  rw [List.append_assoc, readU16_octets16]
  dsimp only
  rw [show (BitVec.ofNat 16 key.length).toNat = key.length by simp; omega, readN_append]
  dsimp only
  rw [if_neg h2]

/-- Reading whole field records, then whatever follows them. -/
theorem sppFieldsRead_append {fs : List SppField} (h : ∀ f ∈ fs, StringField f) (rest : Bytes)
    (n : Nat) (hn : (fs.flatMap fieldOctets ++ rest).length ≤ n) :
    ∃ m, rest.length ≤ m ∧ sppFieldsRead n (fs.flatMap fieldOctets ++ rest) =
      (sppFieldsRead m rest).map (fs ++ ·) := by
  induction fs generalizing n with
  | nil => exact ⟨n, by simpa using hn, by simp [Except.map]; cases sppFieldsRead n rest <;> rfl⟩
  | cons f fs ih =>
    have e : (f :: fs).flatMap fieldOctets ++ rest =
        fieldOctets f ++ (fs.flatMap fieldOctets ++ rest) := by simp
    rw [e] at hn ⊢
    rw [List.length_append, fieldOctets_length] at hn
    obtain ⟨k, rfl⟩ : ∃ k, n = k + 1 := ⟨n - 1, by omega⟩
    obtain ⟨m, hm, e2⟩ := ih (fun x hx => h x (by simp [hx])) k (by omega)
    refine ⟨m, hm, ?_⟩
    have hr := sppFieldRead_octets (h f (by simp)) (fs.flatMap fieldOctets ++ rest)
    have step : ∀ B : Bytes, B ≠ [] → sppFieldsRead (k + 1) B =
        match sppFieldRead B with
        | .error e => .error e
        | .ok (f, rest) =>
          match sppFieldsRead k rest with
          | .error e => .error e
          | .ok fs => .ok (f :: fs) := by
      intro B hB
      cases B with
      | nil => exact absurd rfl hB
      | cons b B => rfl
    rw [step _ (by simp), hr]
    dsimp only
    rw [e2]
    cases sppFieldsRead m rest <;> rfl

/-- Reading something that is not empty starts with one field record. -/
theorem sppFieldsRead_error {n : Nat} {B : Bytes} {e : ErrorStatus} (hn : B.length ≤ n) (hB : B ≠ [])
    (h : sppFieldRead B = .error e) : sppFieldsRead n B = .error e := by
  match n, B, hB with
  | 0, _ :: _, _ => simp at hn
  | n + 1, b :: B, _ => simp only [sppFieldsRead, h]

/-- Field records that were read are string fields, and their octets were the whole buffer. -/
theorem sppFieldsRead_inv {n : Nat} {B : Bytes} {fs : List SppField}
    (h : sppFieldsRead n B = .ok fs) : (∀ f ∈ fs, StringField f) ∧ B = fs.flatMap fieldOctets := by
  induction n generalizing B fs with
  | zero =>
    cases B with
    | nil => simp only [sppFieldsRead, Except.ok.injEq] at h; subst h; simp
    | cons b B => simp [sppFieldsRead] at h
  | succ n ih =>
    cases B with
    | nil => simp only [sppFieldsRead, Except.ok.injEq] at h; subst h; simp
    | cons b B =>
      simp only [sppFieldsRead] at h
      split at h
      · cases h
      · rename_i f rest h1
        split at h
        · cases h
        · rename_i gs h2
          simp only [Except.ok.injEq] at h
          subst h
          obtain ⟨s1, e1⟩ := sppFieldRead_inv h1
          obtain ⟨s2, e2⟩ := ih h2
          refine ⟨?_, by rw [e1, e2, List.flatMap_cons]⟩
          intro x hx
          rcases List.mem_cons.1 hx with rfl | hx
          · exact s1
          · exact s2 x hx

/-- What `SPP_SH_DEC`'s pseudocode answers on whole field records. -/
theorem sppShDec_octets (ts : Word64) {fs : List SppField} (h : ∀ f ∈ fs, StringField f) :
    sppShDec (be64 ts ++ fs.flatMap fieldOctets) = .ok { timestamp := ts, otherFields := fs } := by
  unfold sppShDec
  rw [readU64_be64]
  dsimp only
  obtain ⟨m, _, e⟩ := sppFieldsRead_append h [] (fs.flatMap fieldOctets).length (by simp)
  rw [List.append_nil] at e
  rw [e]
  cases m <;> simp [sppFieldsRead, Except.map]

/-- A header `SPP_SH_DEC`'s pseudocode answers with has string fields, and its octets were the buffer. -/
theorem sppShDec_inv {B : Bytes} {sh : SppSecondaryHeader} (h : sppShDec B = .ok sh) :
    (∀ f ∈ sh.otherFields, StringField f) ∧
      B = be64 sh.timestamp ++ sh.otherFields.flatMap fieldOctets := by
  unfold sppShDec at h
  split at h
  · cases h
  · rename_i ts rest h1
    split at h
    · cases h
    · rename_i fs h2
      simp only [Except.ok.injEq] at h
      subst h
      obtain ⟨s1, e1⟩ := sppFieldsRead_inv h2
      exact ⟨s1, by rw [readU64_inv h1, e1]⟩

/-- The first fault met, reading from left to right, is the answer. -/
theorem sppShDec_error {T : Bytes} (hT : T.length = 8) {fs : List SppField}
    (h : ∀ f ∈ fs, StringField f) {rest : Bytes} {e : ErrorStatus} (hr : rest ≠ [])
    (he : sppFieldRead rest = .error e) :
    sppShDec (T ++ fs.flatMap fieldOctets ++ rest) = .error e := by
  match T, hT with
  | [a, b, c, d, f, g, i, j], _ =>
    unfold sppShDec
    simp only [List.cons_append, List.nil_append, readU64]
    obtain ⟨m, hm, e2⟩ := sppFieldsRead_append h rest (fs.flatMap fieldOctets ++ rest).length
      (Nat.le_refl _)
    rw [e2, sppFieldsRead_error hm hr he]
    rfl

theorem keysDistinct_iff {fs : List SppField} : keysDistinct fs = true ↔ KeysDiffer fs := by
  simp [keysDistinct]

/-! ## Packets -/

/-- The validity of a packet, in the terms of the statements. -/
theorem sppPktValid_iff {p : SpacePacket} :
    sppPktValid p = true ↔ SppPhInRange p.header ∧ (∀ sh, p.sec = some sh → sh.timestamp ≠ 0) ∧
      p.userData.length = p.header.packetLength.toNat + 1 ∧ 7 ≤ sppPktSize p ∧
      sppPktSize p ≤ 65542 := by
  have : sppPktSecValid p = true ↔ ∀ sh, p.sec = some sh → sh.timestamp ≠ 0 := by
    unfold sppPktSecValid
    rcases p.sec with _ | sh <;> simp [sppShValid]
  simp only [sppPktValid, Bool.and_eq_true, decide_eq_true_eq, sppPhValid_iff, this, and_assoc]

theorem sppPktSize_eq (p : SpacePacket) :
    sppPktSize p = 6 +
      (p.sec.map fun sh => 8 + (sh.otherFields.map fun f => 5 + f.key.length + f.value.length).sum).getD 0 +
      p.userData.length + (if p.errorControl.isSome then 2 else 0) := by
  unfold sppPktSize sppShSize
  rcases p.sec with _ | sh <;> rcases p.errorControl with _ | c <;> rfl

theorem sppPktTrailer_eq (p : SpacePacket) :
    sppPktTrailer p = (p.errorControl.map fun c => octets16 c.toNat).getD [] := by
  unfold sppPktTrailer
  rcases p.errorControl with _ | c
  · rfl
  · exact be16_eq c

theorem sppPhPack_length (h : SppPrimaryHeader) : (sppPhPack h).length = 6 := rfl

/-- `SPP_PKT_DECODE` after a header in range: the secondary header, then the rest. -/
theorem sppPktDecode_header {h : SppPrimaryHeader} (r : SppPhInRange h) (B : Bytes) :
    sppPktDecode (sppPhPack h ++ B) =
      match sppPktDecodeSec h B with
      | .error e => .error e
      | .ok (sec, rest) =>
        if sppPktValid (sppPktAssemble h sec rest) then .ok (sppPktAssemble h sec rest)
        else .error .validationError := by
  unfold sppPktDecode
  rw [sppPhDec_pack r]
  rfl

end Sys2Proof.Machine
end

