-- ==== Sys2Proof/Laws/PerInstr.lean ====
section
/-! SUPPORT. What holds of every command as syntax, one lemma per constructor: the operand tuple it is
put on the port with has the types the operand table gives its opcode (spec/30_encoding.md R73). -/

/-- R73: the operands of the command have the types of its opcode's row. -/
def Sys2Proof.Laws.OperandTypes.Statement (i : Sys2Proof.Instr) : Prop :=
  (Sys2Proof.operands i).map Sys2Proof.Machine.typeOf =
    Sys2Proof.Machine.operandTypes (Sys2Proof.opcode i)

namespace Sys2Proof.Laws.OperandTypes

theorem crcInit : Statement .crcInit := rfl

theorem crcUpdate (data : Bytes) : Statement (.crcUpdate data) := rfl

theorem crcRead : Statement .crcRead := rfl

theorem crcCompute (data : Bytes) : Statement (.crcCompute data) := rfl

theorem sppPhEnc (h : SppPrimaryHeader) : Statement (.sppPhEnc h) := rfl

theorem sppPhDec (bytes : Bytes) : Statement (.sppPhDec bytes) := rfl

theorem sppPhValidate (h : SppPrimaryHeader) : Statement (.sppPhValidate h) := rfl

theorem sppShEnc (sh : SppSecondaryHeader) : Statement (.sppShEnc sh) := rfl

theorem sppShDec (bytes : Bytes) : Statement (.sppShDec bytes) := rfl

theorem sppShValidate (sh : SppSecondaryHeader) : Statement (.sppShValidate sh) := rfl

theorem tmPhEnc (h : TmPrimaryHeader) : Statement (.tmPhEnc h) := rfl

theorem tmPhDec (bytes : Bytes) : Statement (.tmPhDec bytes) := rfl

theorem tmPhValidate (h : TmPrimaryHeader) : Statement (.tmPhValidate h) := rfl

theorem tmGetMcid (h : TmPrimaryHeader) : Statement (.tmGetMcid h) := rfl

theorem tmGetGvcid (h : TmPrimaryHeader) : Statement (.tmGetGvcid h) := rfl

theorem tmShEnc (sh : TmSecondaryHeader) : Statement (.tmShEnc sh) := rfl

theorem tmShDec (bytes : Bytes) : Statement (.tmShDec bytes) := rfl

theorem tmShValidate (sh : TmSecondaryHeader) : Statement (.tmShValidate sh) := rfl

theorem tmfNew (scid : Word16) (vcid : Byte) (data shBytes : Bytes) (ocf : Option Octets4) (sync : Bool) :
    Statement (.tmfNew scid vcid data shBytes ocf sync) := rfl

theorem tmfEncode (f : Frame) : Statement (.tmfEncode f) := rfl

theorem tmfEncodeNofec (f : Frame) : Statement (.tmfEncodeNofec f) := rfl

theorem tmfDecode (bytes : Bytes) : Statement (.tmfDecode bytes) := rfl

theorem vcCreate (v : Vcid) (maxBufferSize : Nat) : Statement (.vcCreate v maxBufferSize) := rfl

theorem vcAddFrame (v : Vcid) (f : Frame) : Statement (.vcAddFrame v f) := rfl

theorem vcGetNextFrame (v : Vcid) : Statement (.vcGetNextFrame v) := rfl

theorem vcHasFrames (v : Vcid) : Statement (.vcHasFrames v) := rfl

theorem muxAddChannel (v : Vcid) (priority : Int) : Statement (.muxAddChannel v priority) := rfl

theorem muxGetNextFrame : Statement .muxGetNextFrame := rfl

theorem sppPktNew (apid : Word16) (type : Byte) (data : Bytes) (options : List SppOption) :
    Statement (.sppPktNew apid type data options) := rfl

theorem sppPktEncode (p : SpacePacket) : Statement (.sppPktEncode p) := rfl

theorem sppPktDecode (bytes : Bytes) : Statement (.sppPktDecode bytes) := rfl

theorem sppPktValidate (p : SpacePacket) : Statement (.sppPktValidate p) := rfl

end Sys2Proof.Laws.OperandTypes
end

