-- ==== Sys2Proof/Tests/Slice0.lean ====
section
/-! SUPPORT. The model's own tests: ill-formed operands, opcodes written out from the table, the
vectors of spec/95_test_vectors.md (named in each docstring), and a witness for the hypotheses of each
statement. -/

namespace Sys2Proof.Tests

open Sys2Proof.Machine

/-- The response of a step that answers. -/
def resp : Outcome → Option Response
  | .next t => t.response
  | _ => none

/-- The state after a command, or the same state if it does not answer. -/
def after (i : Instr) (s : State) : State :=
  match exec i s with
  | .next t => t
  | _ => s

/-- The state after a list of commands from reset. -/
def run (is : List Instr) : State := is.foldl (fun s i => after i s) State.reset

/-- An SPP Primary Header, fields in the order of the vectors. -/
def ph (version type flag : Byte) (apid : Word16) (seqFlags : Byte) (seqCount len : Word16) :
    SppPrimaryHeader :=
  { version := version, type := type, secHdrFlag := flag, apid := apid, seqFlags := seqFlags,
    seqCount := seqCount, packetLength := len }

/-- A TM Primary Header, fields in the order of the vectors. -/
def th (version : Byte) (scid : Word16) (vcid : Byte) (ocf : Bool) (mc vc : Byte)
    (fsh sync order : Bool) (seg : Byte) (fhp : Word16) : TmPrimaryHeader :=
  { version := version, scid := scid, vcid := vcid, ocfFlag := ocf, mcCount := mc, vcCount := vc,
    fshFlag := fsh, syncFlag := sync, pktOrderFlag := order, segLenId := seg, fhp := fhp }

/-- A string field. -/
def fld (key value : Bytes) : SppField := { key := key, tag := 1, value := value }

/-- V-TMF-3's frame. -/
def f3 : Frame :=
  { header := th 0 1 7 false 0 0 false true false 3 0x7FF, sec := none, data := [0x55], ocf := none,
    fec := 0x10B9 }

/-- V-TMF-4's frame, the shortest. -/
def f4 : Frame :=
  { header := th 0 0 0 false 0 0 false false false 3 0, sec := none, data := [], ocf := none,
    fec := 0x84CA }

/-- V-TMF-2's frame: secondary header and OCF. -/
def f2 : Frame :=
  { header := th 0 933 2 true 0 0 true false false 3 4
    sec := some { version := 0, headerLength := 3, dataField := [0xAA, 0xBB, 0xCC] }
    data := [0x10, 0x20]
    ocf := some { o0 := 0xDE, o1 := 0xAD, o2 := 0xBE, o3 := 0xEF }
    fec := 0x01D9 }

/-- A header with a key one octet longer than `Str16` holds. -/
def longKey : SppSecondaryHeader :=
  { timestamp := 1, otherFields := [fld (List.replicate 65536 0) []] }

/-- V-PKT-1's packet. -/
def p1 : SpacePacket :=
  { header := ph 0 0 0 100 3 0 2, sec := none, userData := [1, 2, 3], errorControl := none }

/-! ## Operands that cannot be on the port -/

/-- UB6: a repeated key. -/
theorem test_wf_repeatedKey :
    offPort Config.default (.sppShEnc
      { timestamp := 1, otherFields := [fld [0x61] [], fld [0x62] [], fld [0x61] [1]] }) =
      some .repeatedKey := by decide

/-- UB7: a key longer than `Str16` holds. -/
theorem test_wf_stringTooLong (key : Bytes) (h : key.length = 65536) :
    offPort Config.default (.sppShEnc { timestamp := 1, otherFields := [fld key []] }) =
      some .stringTooLong := by
  have : isStr16 key = false := by rw [isStr16, decide_eq_false_iff_not]; omega
  simp [offPort, checkSppSh, fld, this]

/-- R26: a weight one above the largest of 32 bits, and the largest. -/
theorem test_wf_priorityRange :
    offPort Config.default (.muxAddChannel 1 2147483648) = some .priorityRange ∧
      offPort Config.default (.muxAddChannel 1 2147483647) = none ∧
      offPort Config.default (.muxAddChannel 1 (-2147483648)) = none := by decide

/-- R71: an operand of three octets where `MAX_BYTES` is 2, and one of two. -/
theorem test_wf_byteStringTooLong :
    offPort { Config.default with maxBytes := some 2 } (.crcUpdate [1, 2, 3]) =
        some .byteStringTooLong ∧
      offPort { Config.default with maxBytes := some 2 } (.crcUpdate [1, 2]) = none := by decide

/-- R73: an operand of a wrong type, and one too many. -/
theorem test_decode_operandTypes :
    decode Config.default { op := 0x12, args := [.u8 0] } = .error .operandTypes ∧
      decode Config.default { op := 0x11, args := [.u8 0] } = .error .operandTypes := by decide

/-! ## Opcodes written out from R72 -/

theorem test_decode_crc :
    decode Config.default { op := 0b00010000, args := [] } = .ok .crcInit ∧
    decode Config.default { op := 0b00010001, args := [.bytes [1]] } = .ok (.crcUpdate [1]) ∧
    decode Config.default { op := 0b00010010, args := [] } = .ok .crcRead ∧
    decode Config.default { op := 0b00010011, args := [.bytes [1]] } = .ok (.crcCompute [1]) := by
  decide

theorem test_decode_spp (h : SppPrimaryHeader) (sh : SppSecondaryHeader) (b : Bytes) :
    decode Config.default { op := 0b00100000, args := [.sppPh h] } = .ok (.sppPhEnc h) ∧
    decode Config.default { op := 0b00100001, args := [.bytes b] } = .ok (.sppPhDec b) ∧
    decode Config.default { op := 0b00100010, args := [.sppPh h] } = .ok (.sppPhValidate h) ∧
    decode Config.default { op := 0b00100100, args := [.sppSh sh] } = .ok (.sppShEnc sh) ∧
    decode Config.default { op := 0b00100101, args := [.bytes b] } = .ok (.sppShDec b) ∧
    decode Config.default { op := 0b00100110, args := [.sppSh sh] } = .ok (.sppShValidate sh) :=
  ⟨rfl, rfl, rfl, rfl, rfl, rfl⟩

theorem test_decode_tm (h : TmPrimaryHeader) (sh : TmSecondaryHeader) (b : Bytes) :
    decode Config.default { op := 0b00110000, args := [.tmPh h] } = .ok (.tmPhEnc h) ∧
    decode Config.default { op := 0b00110001, args := [.bytes b] } = .ok (.tmPhDec b) ∧
    decode Config.default { op := 0b00110010, args := [.tmPh h] } = .ok (.tmPhValidate h) ∧
    decode Config.default { op := 0b00110011, args := [.tmPh h] } = .ok (.tmGetMcid h) ∧
    decode Config.default { op := 0b00110100, args := [.tmPh h] } = .ok (.tmGetGvcid h) ∧
    decode Config.default { op := 0b00110101, args := [.tmSh sh] } = .ok (.tmShEnc sh) ∧
    decode Config.default { op := 0b00110110, args := [.bytes b] } = .ok (.tmShDec b) ∧
    decode Config.default { op := 0b00110111, args := [.tmSh sh] } = .ok (.tmShValidate sh) :=
  ⟨rfl, rfl, rfl, rfl, rfl, rfl, rfl, rfl⟩

theorem test_decode_frame (f : Frame) (a : Word16) (v : Byte) (d e : Bytes) (o : Option Octets4)
    (y : Bool) :
    decode Config.default
      { op := 0b01000000, args := [.u16 a, .u8 v, .bytes d, .bytes e, .ocf o, .bool y] } =
        .ok (.tmfNew a v d e o y) ∧
    decode Config.default { op := 0b01000001, args := [.frame f] } = .ok (.tmfEncode f) ∧
    decode Config.default { op := 0b01000010, args := [.frame f] } = .ok (.tmfEncodeNofec f) ∧
    decode Config.default { op := 0b01000011, args := [.bytes d] } = .ok (.tmfDecode d) :=
  ⟨rfl, rfl, rfl, rfl⟩

theorem test_decode_channel (f : Frame) (v : Vcid) (n : Nat) (w : Int) :
    decode Config.default { op := 0b01010000, args := [.vcid v, .nat n] } = .ok (.vcCreate v n) ∧
    decode Config.default { op := 0b01010001, args := [.vcid v, .frame f] } = .ok (.vcAddFrame v f) ∧
    decode Config.default { op := 0b01010010, args := [.vcid v] } = .ok (.vcGetNextFrame v) ∧
    decode Config.default { op := 0b01010011, args := [.vcid v] } = .ok (.vcHasFrames v) ∧
    decode Config.default { op := 0b01100000, args := [.vcid v, .prio w] } =
        .ok (.muxAddChannel v w) ∧
    decode Config.default { op := 0b01100001, args := [] } = .ok .muxGetNextFrame :=
  ⟨rfl, rfl, rfl, rfl, rfl, rfl⟩

theorem test_decode_packet (p : SpacePacket) (a : Word16) (v : Byte) (d : Bytes)
    (os : List SppOption) :
    decode Config.default { op := 0b01110000, args := [.u16 a, .u8 v, .bytes d, .options os] } =
        .ok (.sppPktNew a v d os) ∧
    decode Config.default { op := 0b01110001, args := [.packet p] } = .ok (.sppPktEncode p) ∧
    decode Config.default { op := 0b01110010, args := [.bytes d] } = .ok (.sppPktDecode d) ∧
    decode Config.default { op := 0b01110011, args := [.packet p] } = .ok (.sppPktValidate p) :=
  ⟨rfl, rfl, rfl, rfl⟩

/-- Section 2.11's reserved opcodes, and group 7 without unit U5. -/
theorem test_decode_reserved :
    (∀ op ∈ ([0x00, 0x14, 0x23, 0x27, 0x38, 0x44, 0x54, 0x62, 0x74, 0x80, 0xFF] : Bytes),
      decode Config.default { op := op, args := [.u8 1] } = .error .reservedOpcode) ∧
    ∀ op ∈ ([0x70, 0x71, 0x72, 0x73] : Bytes),
      decode { Config.default with hasSppPacket := false } { op := op, args := [] } =
        .error .reservedOpcode := by decide

/-- Opcode-table words as the host asks for them. -/
theorem test_tableWord :
    decodeTableWord 8 0x10 = some .crcInit ∧ decodeTableWord 8 0x61 = some .muxGetNextFrame ∧
      decodeTableWord 8 0x50 = some (.vcCreate 0 0) ∧ decodeTableWord 8 0x43 = some (.tmfDecode []) ∧
      decodeTableWord 8 0x14 = none := by decide

/-- A word placed on the port runs as the first command after reset. -/
theorem test_fetchWord :
    resp (step (State.reset.withFetchWord 8 0x12)) = some (.ok (.crc 0xFFFF)) ∧
      resp (step (State.reset.withFetchWord 8 0x61)) = some (.fail .noChannels) := by decide

/-! ## The CRC generator: section 2.1 -/

/-- V-CRC-4, and a register left over. -/
theorem test_crcCompute :
    resp (exec (.crcCompute [0x41]) { State.reset with crc := 0x1234 }) =
      some (.ok (.crc 0xB915)) := by decide +kernel

/-- V-CRC-8, "123456789". -/
theorem test_crc_check_value :
    crc16 [0x31, 0x32, 0x33, 0x34, 0x35, 0x36, 0x37, 0x38, 0x39] = 0x29B1 := by decide +kernel

/-- Program P1, its first two updates. -/
theorem test_crcUpdate_streams :
    (run [.crcInit, .crcUpdate [0x31, 0x32, 0x33, 0x34]]).crc = 0x5349 ∧
      (run [.crcUpdate [0x31, 0x32, 0x33, 0x34], .crcUpdate [0x35, 0x36, 0x37, 0x38, 0x39]]).crc =
        0x29B1 := by decide +kernel

/-- `CRC_INIT` and `CRC_READ`. -/
theorem test_crcInit_crcRead :
    (after .crcInit { State.reset with crc := 5 }).crc = 0xFFFF ∧
      resp (exec .crcRead { State.reset with crc := 5 }) = some (.ok (.crc 5)) := by decide

/-- Single steps of section 2.1. -/
theorem test_crc16Step :
    crc16Step 0 0x01 = 0x1021 ∧ crc16Step 0 0x80 = 0x9188 ∧ crc16Step 0x1234 0x56 = 0x3C40 := by
  decide +kernel

/-! ## Headers: sections 2.2 to 2.6 -/

/-- V-SPP-3, and S2's `apid = 2048`. -/
theorem test_sppPhEnc :
    resp (exec (.sppPhEnc (ph 0 1 1 0x2AB 1 0x1234 0x00FF)) State.reset) =
        some (.ok (.bytes [0x1A, 0xAB, 0x52, 0x34, 0x00, 0xFF])) ∧
      resp (exec (.sppPhEnc (ph 0 0 0 2048 3 0 0)) State.reset) =
        some (.fail .validationError) := by decide

/-- V-SPP-4 with an octet behind it, and five octets. -/
theorem test_sppPhDec :
    resp (exec (.sppPhDec [0xA8, 0x01, 0x80, 0x01, 0x00, 0x01, 0x77]) State.reset) =
        some (.ok (.sppPh (ph 5 0 1 1 2 1 1))) ∧
      resp (exec (.sppPhDec [0x00, 0x64, 0xC0, 0x00, 0x00]) State.reset) =
        some (.fail .malformedHeader) := by decide

/-- Section 2.2's rejected headers. -/
theorem test_sppPhValidate :
    resp (exec (.sppPhValidate (ph 7 1 1 2047 3 16383 65535)) State.reset) = some (.ok .unit) ∧
      ∀ h ∈ [ph 0 0 0 0 3 16384 0, ph 0 0 2 0 0 0 0, ph 8 0 0 0 0 0 0, ph 0 2 0 0 0 0 0,
        ph 0 0 0 0 4 0 0],
        resp (exec (.sppPhValidate h) State.reset) = some (.fail .validationError) := by decide

/-- V-SSH-2. -/
theorem test_sppShEnc :
    resp (exec (.sppShEnc
        { timestamp := 0x0102030405060708
          otherFields := [fld [0x69, 0x64] [0x41, 0x31], fld [0x6D] []] }) State.reset) =
      some (.ok (.bytes [1, 2, 3, 4, 5, 6, 7, 8, 0, 2, 0x69, 0x64, 1, 0, 2, 0x41, 0x31,
        0, 1, 0x6D, 1, 0, 0])) := by decide

/-- V-SSH-3 and V-SSH-4. -/
theorem test_sppShEnc_tag :
    resp (exec (.sppShEnc { timestamp := 1, otherFields := [{ key := [0x6B], tag := 2, value := [0x76] }] })
        State.reset) = some (.fail .unsupportedFieldType) ∧
      resp (exec (.sppShEnc { timestamp := 0, otherFields := [] }) State.reset) =
        some (.ok (.bytes [0, 0, 0, 0, 0, 0, 0, 0])) := by decide

/-- V-SSH-15, V-SSH-16, V-SSH-14. -/
theorem test_sppShDec :
    resp (exec (.sppShDec [0, 0, 0, 0, 0, 0, 0, 1, 0, 1, 0x61, 1, 0, 1, 0x7A]) State.reset) =
        some (.ok (.sppSh { timestamp := 1, otherFields := [fld [0x61] [0x7A]] })) ∧
      resp (exec (.sppShDec [0, 0, 0, 0, 0, 0, 0, 1, 0, 1, 0x61, 1, 0, 2, 0x7A]) State.reset) =
        some (.fail .malformedHeader) ∧
      resp (exec (.sppShDec [0, 0, 0, 0, 0, 0, 0, 1, 0, 1, 0x61, 2, 0, 0]) State.reset) =
        some (.fail .unsupportedFieldType) := by decide

/-- V-SSH-5, V-SSH-6. -/
theorem test_sppShValidate :
    resp (exec (.sppShValidate { timestamp := 0, otherFields := [] }) State.reset) =
        some (.fail .validationError) ∧
      resp (exec (.sppShValidate
        { timestamp := 1, otherFields := [{ key := [0x6B], tag := 2, value := [0x76] }] })
        State.reset) = some (.ok .unit) := by decide

/-- V-TM-3, and `vcid = 8`. -/
theorem test_tmPhEnc :
    resp (exec (.tmPhEnc (th 0 0x155 5 true 0x12 0x34 true false false 3 5)) State.reset) =
        some (.ok (.bytes [0x15, 0x5B, 0x12, 0x34, 0x98, 0x05])) ∧
      resp (exec (.tmPhEnc (th 0 0 8 false 0 0 false false false 3 0)) State.reset) =
        some (.fail .validationError) := by decide

/-- V-TM-17, V-TM-10, V-TM-12. -/
theorem test_tmPhDec :
    resp (exec (.tmPhDec [0, 0, 0, 0, 0x47, 0xFF]) State.reset) =
        some (.ok (.tmPh (th 0 0 0 false 0 0 false true false 0 0x7FF))) ∧
      resp (exec (.tmPhDec [0, 0, 0, 0, 0, 0]) State.reset) = some (.fail .malformedHeader) ∧
      resp (exec (.tmPhDec [0, 0, 0, 0, 0x58, 0]) State.reset) = some (.fail .malformedHeader) := by
  decide

/-- Section 2.4's rejected headers. -/
theorem test_tmPhValidate :
    resp (exec (.tmPhValidate (th 0 0x3FF 7 true 255 255 true true true 3 0x7FF)) State.reset) =
        some (.ok .unit) ∧
      ∀ h ∈ [th 1 0 0 false 0 0 false false false 3 0, th 0 1024 0 false 0 0 false false false 3 0,
        th 0 0 0 false 0 0 false false false 2 0, th 0 0 0 false 0 0 false false true 3 0,
        th 0 0 0 false 0 0 false true false 3 0x7FE, th 0 0 0 false 0 0 false false false 3 2048],
        resp (exec (.tmPhValidate h) State.reset) = some (.fail .validationError) := by decide

/-- V-ID-2 and V-ID-6. -/
theorem test_tmGetMcid_tmGetGvcid :
    resp (exec (.tmGetMcid (th 0 1023 7 false 0 0 false false false 3 0)) State.reset) =
        some (.ok (.mcid 0x03FF)) ∧
      resp (exec (.tmGetGvcid (th 0 1023 7 false 0 0 false false false 3 0)) State.reset) =
        some (.ok (.gvcid 0x0406)) ∧
      resp (exec (.tmGetMcid (th 1 256 0 false 0 0 false false false 3 0)) State.reset) =
        some (.ok (.mcid 0x0100)) := by decide

/-- V-TSH-1, V-TSH-4, V-TSH-6 under both values of the parameter. -/
theorem test_tmShEnc_tmShValidate :
    resp (exec (.tmShEnc { version := 0, headerLength := 3, dataField := [0xAA, 0xBB, 0xCC] })
        State.reset) = some (.ok (.bytes [3, 0xAA, 0xBB, 0xCC])) ∧
      resp (exec (.tmShValidate { version := 0, headerLength := 64, dataField := [] }) State.reset) =
        some (.fail .validationError) ∧
      resp (exec (.tmShEnc { version := 0, headerLength := 0, dataField := [0x11] }) State.reset) =
        some (.ok (.bytes [0, 0x11])) ∧
      resp (exec (.tmShEnc { version := 0, headerLength := 0, dataField := [0x11] })
        (State.resetWith { Config.default with tmshBoundEnforced := true })) =
        some (.fail .validationError) := by decide

/-- V-TSH-8, V-TSH-9, V-TSH-11. -/
theorem test_tmShDec :
    resp (exec (.tmShDec [0x3F]) State.reset) =
        some (.ok (.tmSh { version := 0, headerLength := 63, dataField := [] })) ∧
      resp (exec (.tmShDec [0x40]) State.reset) = some (.fail .malformedHeader) ∧
      resp (exec (.tmShDec []) State.reset) = some (.fail .malformedHeader) := by decide

/-! ## Frames: section 2.7 -/

/-- V-TMF-3. -/
theorem test_tmfNew :
    resp (exec (.tmfNew 1 7 [0x55] [] none true) State.reset) = some (.ok (.frame f3)) := by
  decide +kernel

/-- V-TMF-2. -/
theorem test_tmfNew_sec :
    resp (exec (.tmfNew 933 2 [0x10, 0x20] [3, 0xAA, 0xBB, 0xCC]
      (some { o0 := 0xDE, o1 := 0xAD, o2 := 0xBE, o3 := 0xEF }) false) State.reset) =
      some (.ok (.frame f2)) := by decide +kernel

/-- V-TMF-2's octets, with and without the Frame Error Control. -/
theorem test_tmfEncode :
    resp (exec (.tmfEncode f2) State.reset) = some (.ok (.bytes
        [0x3A, 0x55, 0, 0, 0x98, 4, 3, 0xAA, 0xBB, 0xCC, 0x10, 0x20, 0xDE, 0xAD, 0xBE, 0xEF, 1, 0xD9])) ∧
      resp (exec (.tmfEncodeNofec f4) State.reset) = some (.ok (.bytes [0, 0, 0, 0, 0x18, 0])) := by
  decide

/-- Section 2.7: the flag set without a secondary header. -/
theorem test_tmfEncode_missing :
    resp (exec (.tmfEncode { f2 with sec := none }) State.reset) = some (.fail .validationError) ∧
      resp (exec (.tmfEncodeNofec { f2 with sec := none }) State.reset) =
        some (.fail .validationError) := by decide

/-- V-TMF-2's octets, and V-TMF-11. -/
theorem test_tmfDecode :
    resp (exec (.tmfDecode
        [0x3A, 0x55, 0, 0, 0x98, 4, 3, 0xAA, 0xBB, 0xCC, 0x10, 0x20, 0xDE, 0xAD, 0xBE, 0xEF, 1, 0xD9])
        State.reset) = some (.ok (.frame f2)) ∧
      resp (exec (.tmfDecode [0, 0, 0, 0, 0x18, 0x82, 0x35]) State.reset) =
        some (.fail .malformedHeader) := by decide +kernel

/-- V-TMF-10, V-TMF-15, V-TMF-12. -/
theorem test_tmfDecode_errors :
    resp (exec (.tmfDecode [0, 0, 0, 0, 0x18, 0, 0]) State.reset) = some (.fail .integrityError) ∧
      resp (exec (.tmfDecode [0x3A, 0x55, 0, 0, 0x98, 7, 3, 0xAA, 0xBB, 0xCC, 0x10, 0x20, 0xA6, 0x65])
        State.reset) = some (.fail .malformedHeader) ∧
      resp (exec (.tmfDecode [0x40, 0, 0, 0, 0x18, 0, 0, 0]) State.reset) =
        some (.fail .malformedHeader) := by decide +kernel

/-! ## Channels and multiplexer: sections 2.8 and 2.9 -/

/-- Program P3: channel 2 with capacity 2. -/
theorem test_vcAddFrame :
    (run [.vcCreate 2 2, .vcAddFrame 2 f3, .vcAddFrame 2 f4]).queue 2 = [f3, f4] ∧
      resp (exec (.vcAddFrame 2 f2) (run [.vcCreate 2 2, .vcAddFrame 2 f3, .vcAddFrame 2 f4])) =
        some (.fail .bufferFull) := by decide

/-- Program P3: the pops. -/
theorem test_vcGetNextFrame :
    resp (exec (.vcGetNextFrame 2) (run [.vcCreate 2 2, .vcAddFrame 2 f3, .vcAddFrame 2 f4])) =
        some (.ok (.frame f3)) ∧
      resp (exec (.vcGetNextFrame 2) (run [.vcCreate 2 2])) = some (.fail .empty) := by decide

/-- V-VC-1, V-VC-3. -/
theorem test_vcHasFrames :
    resp (exec (.vcHasFrames 0) State.reset) = some (.fail .channelNotFound) ∧
      resp (exec (.vcHasFrames 0) (run [.vcCreate 0 0])) = some (.ok (.has false)) := by decide

/-- V-VC-4, and a capacity above `MAX_DEPTH` (D17). -/
theorem test_vcCreate :
    resp (exec (.vcCreate 7 9) (run [.vcCreate 7 1])) = some (.fail .channelExists) ∧
      resp (exec (.vcCreate 7 9) (State.resetWith { Config.default with maxDepth := some 8 })) =
        some (.fail .validationError) := by decide

/-- V-MUX-10, V-MUX-11. -/
theorem test_muxAddChannel :
    resp (exec (.muxAddChannel 5 0) State.reset) = some (.fail .channelNotFound) ∧
      (run [.vcCreate 1 4, .muxAddChannel 1 10, .muxAddChannel 1 (-3)]).prio 1 = -3 ∧
      (run [.vcCreate 1 4, .muxAddChannel 1 10, .muxAddChannel 1 (-3)]).muxOrder = [1] := by decide

/-- V-MUX-1's set-up. -/
def mux1 : State :=
  { run [.vcCreate 0 4, .vcCreate 1 4, .muxAddChannel 0 0, .muxAddChannel 1 0, .vcAddFrame 0 f3,
      .vcAddFrame 1 f4] with response := none }

/-- V-MUX-1. -/
theorem test_muxGetNextFrame :
    resp (exec .muxGetNextFrame mux1) = some (.ok (.frame f4)) ∧
      (after .muxGetNextFrame mux1).muxLastUsed = 1 ∧
      resp (exec .muxGetNextFrame (after .muxGetNextFrame mux1)) = some (.ok (.frame f3)) ∧
      (after .muxGetNextFrame (after .muxGetNextFrame mux1)).muxLastUsed = 0 := by decide

/-- V-MUX-3, V-MUX-4. -/
theorem test_muxGetNextFrame_errors :
    resp (exec .muxGetNextFrame (run [.vcCreate 2 4, .vcAddFrame 2 f3])) = some (.fail .noChannels) ∧
      resp (exec .muxGetNextFrame
        (run [.vcCreate 2 4, .vcAddFrame 2 f3, .vcCreate 3 4, .muxAddChannel 3 0])) =
        some (.fail .noFramesAvailable) := by decide

/-! ## Packets: section 2.10 -/

/-- V-PKT-1, V-PKT-7. -/
theorem test_sppPktNew :
    resp (exec (.sppPktNew 100 0 [1, 2, 3] []) State.reset) = some (.ok (.packet p1)) ∧
      resp (exec (.sppPktNew 1 0 [1] [.withSecondaryHeader { timestamp := 0, otherFields := [] }])
        State.reset) = some (.fail .validationError) := by decide

/-- V-PKT-1, V-PKT-9. -/
theorem test_sppPktEncode :
    resp (exec (.sppPktEncode p1) State.reset) =
        some (.ok (.bytes [0, 0x64, 0xC0, 0, 0, 2, 1, 2, 3])) ∧
      resp (exec (.sppPktEncode { p1 with header := ph 0 0 1 100 3 0 2 }) State.reset) =
        some (.fail .secondaryHeaderMissing) := by decide

/-- V-PKT-17, V-PKT-14. -/
theorem test_sppPktDecode :
    resp (exec (.sppPktDecode [0, 0x64, 0xC0, 0, 0, 2, 1, 2, 3, 4, 5, 6]) State.reset) =
        some (.ok (.packet { p1 with errorControl := some 0x0405 })) ∧
      resp (exec (.sppPktDecode [0, 0x64, 0xC0, 0, 0, 2, 1, 2]) State.reset) =
        some (.fail .validationError) := by decide

/-- V-PKT-1, V-PKT-23. -/
theorem test_sppPktValidate :
    resp (exec (.sppPktValidate p1) State.reset) = some (.ok .unit) ∧
      resp (exec (.sppPktValidate { p1 with userData := [1, 2] }) State.reset) =
        some (.fail .validationError) := by decide

/-! ## The port -/

/-- Program P1: a reserved opcode, then the next command; and a reset. -/
theorem test_port :
    resp (step { State.reset with input := [.command { op := 0x00, args := [.nat 3] }] }) =
        some (.fail .illegalCommand) ∧
      step { State.reset with crc := 5, input := [.reset] } = .next State.reset := ⟨by decide, rfl⟩

/-- R300: the codes of the statuses. -/
theorem test_statusOctet :
    statusOctet (.ok .unit) = 0x00 ∧ statusOctet (.fail .integrityError) = 0x04 ∧
      statusOctet (.fail .secondaryHeaderMissing) = 0x0A ∧
      statusOctet (.fail .illegalCommand) = 0x10 ∧ statusOctet (.fail .channelExists) = 0x12 := by
  decide

/-! ## Witnesses: the hypotheses of each statement are met, clause by clause -/

/-- A command that answers. -/
theorem witness_CrcUpdateContinuesFromRegister :
    ∃ t, exec (.crcUpdate [0x31]) State.reset = .next t := ⟨_, rfl⟩

theorem witness_CrcArithmeticLaws : (7 : Nat) < 8 := by decide

theorem witness_OnlyCrcCommandsWriteTheRegister :
    ∃ t, exec (.vcCreate 1 4) State.reset = .next t := ⟨_, rfl⟩

/-- Every field at its largest, and one field one above. -/
theorem witness_SppPhValidateTestsSixRanges :
    SppPhInRange (ph 7 1 1 2047 3 16383 65535) ∧ ¬ SppPhInRange (ph 0 0 0 2048 3 0 0) := by decide

theorem witness_SppPhEncodeLaysOutFields :
    SppPhInRange (ph 7 1 1 2047 3 16383 65535) ∧ ¬ SppPhInRange (ph 0 0 0 0 3 16384 0) := by decide

/-- One octet too few. -/
theorem witness_SppPhDecodeReadsFirstSixOctets :
    ([0x00, 0x64, 0xC0, 0x00, 0x00] : Bytes).length < 6 := by decide

theorem witness_SppPhRoundTrip :
    SppPhInRange (ph 7 1 1 2047 3 16383 65535) ∧
      ([0xFF, 0xFF, 0xFF, 0xFF, 0xFF, 0xFF] : Bytes).length = 6 := by decide

theorem witness_SppShValidateTestsTimestamp :
    ({ timestamp := 1, otherFields := [] } : SppSecondaryHeader).timestamp ≠ 0 ∧
      ({ timestamp := 0, otherFields := [] } : SppSecondaryHeader).timestamp = 0 := by decide

/-- String fields with an empty key and value, and one tag of another type. -/
theorem witness_SppShEncodeWritesRecords :
    (∀ f ∈ [fld [] [], fld [0x61] [0x7A]], f.tag = 1) ∧
      ∃ f ∈ [fld [] [], { key := [0x6B], tag := 2, value := [0x76] }], f.tag ≠ 1 := by decide

/-- Seven octets; two records with different keys, then a third key, cut before its last octet or
followed by a tag 0. -/
theorem witness_SppShDecodeReadsRecordsOrReportsFirstFault :
    ([0, 0, 0, 0, 0, 0, 1] : Bytes).length < 8 ∧
      (∀ x ∈ [fld [] [], fld [0x61] [0x7A]], StringField x) ∧
      KeysDiffer [fld [] [], fld [0x61] [0x7A]] ∧
      StringField (fld [0x62] [1]) ∧ [0x62] ∉ [fld [] [], fld [0x61] [0x7A]].map SppField.key ∧
      0 < 6 ∧ 6 < (fieldOctets (fld [0x62] [1])).length ∧
      ([0x62] : Bytes).length ≤ 65535 ∧ (0 : Byte) ≠ 1 := by decide

/-- Fields of a header, and the octets of one that decodes (V-SSH-13). -/
theorem witness_SppShRoundTrip :
    (∀ f ∈ [fld [] [], fld [0x61] [0x7A]], StringField f) ∧
      KeysDiffer [fld [] [], fld [0x61] [0x7A]] ∧
      exec (.sppShDec [0, 0, 0, 0, 0, 0, 0, 1, 0, 1, 0x61, 1, 0, 0]) State.reset =
        .next (State.reset.respond
          (.ok (.sppSh { timestamp := 1, otherFields := [fld [0x61] []] }))) :=
  ⟨by decide, by decide, rfl⟩

/-- A key twice among whole records, and a record or a tag of another kind under a key met before. -/
theorem witness_SppShDecodeRefusesRepeatedKeys :
    ([0, 0, 0, 0, 0, 0, 0, 1] : Bytes).length = 8 ∧
      (∀ x ∈ [fld [0x61] [], fld [0x62] [], fld [0x61] [1]], StringField x) ∧
      ¬ KeysDiffer [fld [0x61] [], fld [0x62] [], fld [0x61] [1]] ∧
      StringField (fld [0x62] []) ∧ 4 < (fieldOctets (fld [0x62] [])).length ∧
      ¬ KeysDiffer [fld [0x62] [], fld [0x61] [], fld [0x62] []] ∧
      ¬ ([0x61] :: [fld [0x61] [], fld [0x62] []].map SppField.key).Nodup ∧ (2 : Byte) ≠ 1 := by decide

/-- V-TM-2 with every field at its largest, V-TM-5, and one field one above. -/
theorem witness_TmPhValidateTestsInvariants :
    TmPhInRange (th 0 0x3FF 7 true 255 255 true true true 3 0x7FF) ∧
      TmPhInRange (th 0 0 0 false 0 0 false false false 3 0) ∧
      ¬ TmPhInRange (th 0 1024 0 false 0 0 false false false 3 0) ∧
      ¬ TmPhInRange (th 0 0 0 false 0 0 false true false 3 0x7FE) := by decide

theorem witness_TmPhEncodeLaysOutFields :
    TmPhInRange (th 0 0x3FF 7 true 255 255 true true true 3 0x7FF) ∧
      ¬ TmPhInRange (th 0 0 8 false 0 0 false false false 3 0) := by decide

/-- Octets of a valid header (V-TM-17), of an invalid one (V-TM-10), and five octets. -/
theorem witness_TmPhDecodeChecksInvariants :
    TmPhInRange (tmPhUnpack 0 0 0 0 0x47 0xFF) ∧ ¬ TmPhInRange (tmPhUnpack 0 0 0 0 0 0) ∧
      ([0, 0, 0, 0, 0x18] : Bytes).length < 6 := by decide

theorem witness_TmPhRoundTrip :
    TmPhInRange (th 0 0x155 5 true 0x12 0x34 true false false 3 5) ∧
      ([0, 0, 0, 0, 0x47, 0xFF] : Bytes).length = 6 ∧
      exec (.tmPhDec [0, 0, 0, 0, 0x47, 0xFF]) State.reset = .next (State.reset.respond
        (.ok (.tmPh (th 0 0 0 false 0 0 false true false 0 0x7FF)))) := ⟨by decide, rfl, rfl⟩

theorem witness_TmShEncodeWritesLengthAndData :
    TmShInRange State.reset.cfg { version := 0, headerLength := 63, dataField := [1] } ∧
      ¬ TmShInRange State.reset.cfg { version := 0, headerLength := 64, dataField := [] } ∧
      ¬ TmShInRange { Config.default with tmshBoundEnforced := true }
        { version := 0, headerLength := 0, dataField := [0x11] } := by decide

/-- A first octet of 63, one of 64, and an enforced bound met and broken by one octet. -/
theorem witness_TmShDecodeAndRoundTrip :
    ((63 : Byte) ≤ 63 ∧ (State.reset.cfg.tmshBoundEnforced = true → [1, 2].length ≤ (63 : Byte).toNat)) ∧
      ¬ (64 : Byte) ≤ 63 ∧
      ((1 : Byte) ≤ 63 ∧ ({ Config.default with tmshBoundEnforced := true }.tmshBoundEnforced = true →
        [1].length ≤ (1 : Byte).toNat)) ∧
      ({ Config.default with tmshBoundEnforced := true }.tmshBoundEnforced = true ∧
        ¬ [1, 2].length ≤ (1 : Byte).toNat) ∧
      TmShInRange State.reset.cfg { version := 0, headerLength := 63, dataField := [1] } ∧
      exec (.tmShDec [0x3F]) State.reset = .next (State.reset.respond
        (.ok (.tmSh { version := 0, headerLength := 63, dataField := [] }))) :=
  ⟨by decide, by decide, by decide, by decide, by decide, rfl⟩

theorem witness_TmIdentifiersFollowFormulas :
    TmPhInRange (th 0 1023 7 false 0 0 false false false 3 0) := by decide

/-- Operands that build a frame; a payload one octet too long; a secondary header one octet too long
without `sync`; and one of version 1. -/
theorem witness_TmfNewBuildsSealedFrame (D S : Bytes) (hD : D.length = 65536) (hS : S.length = 2048) :
    (([0x10, 0x20] : Bytes).length ≤ 65535 ∧ (false = false → ([3, 0xAA] : Bytes).length ≤ 2047) ∧
        (([3, 0xAA] : Bytes) ≠ [] → TmShBuffer State.reset.cfg [3, 0xAA])) ∧
      D.length > 65535 ∧ S.length > 2047 ∧
      (([0x40, 0x01] : Bytes) ≠ [] ∧ ¬ TmShBuffer State.reset.cfg [0x40, 0x01]) := by
  refine ⟨⟨by decide, fun _ => by decide, fun _ => ⟨3, [0xAA], rfl, by decide, by decide⟩⟩, by omega,
    by omega, by decide, ?_⟩
  rintro ⟨b, rest, e, h, _⟩
  cases e
  exact absurd h (by decide)

/-- V-TMF-2's frame, and the same without its secondary header. -/
theorem witness_TmfEncodeWritesPartsInOrder :
    FrameEncodable State.reset.cfg f2 ∧ ¬ FrameEncodable State.reset.cfg { f2 with sec := none } := by
  refine ⟨⟨by decide, fun _ => ⟨_, rfl, by decide⟩⟩, ?_⟩
  rintro ⟨_, h⟩
  obtain ⟨sh, e, _⟩ := h rfl
  cases e

/-- V-TMF-2's parts; V-TMF-19's, with the OCF flag and three octets. -/
theorem witness_TmfDecodeParsesParts :
    (TmPhInRange (th 0 933 2 true 0 0 true false false 3 4) ∧
      ([3, 0xAA, 0xBB, 0xCC] : Bytes).length = (4 : Word16).toNat ∧
      TmShBuffer State.reset.cfg [3, 0xAA, 0xBB, 0xCC]) ∧
    TmPhInRange (th 0 933 2 true 0 0 false false false 3 0) ∧
      ([1, 2, 3] : Bytes).length < 4 :=
  ⟨⟨by decide, by decide, 3, [0xAA, 0xBB, 0xCC], rfl, by decide, by decide⟩, by decide, by decide⟩

/-- Six octets; a version other than 0; V-TMF-4 with its last octet changed; the seven-octet buffer
whose CRC is right; V-TMF-15, V-TMF-17 and V-TMF-18 for the secondary header. -/
theorem witness_TmfDecodeTestsInOrder :
    ([0x3A, 0x54, 0, 0, 0x18, 0] : Bytes).length < 7 ∧
      exec (.tmPhDec [0x40, 0, 0, 0, 0x18, 0]) State.reset =
        .next (State.reset.respond (.fail .malformedHeader)) ∧
      (exec (.tmPhDec (([0, 0, 0, 0, 0x18, 0, 0x84, 0xCB] : Bytes).take 6)) State.reset =
          .next (State.reset.respond (.ok (.tmPh (th 0 0 0 false 0 0 false false false 3 0)))) ∧
        crc16 [0, 0, 0, 0, 0x18, 0] ≠ ((0x84 : Byte) ++ (0xCB : Byte) : BitVec 16)) ∧
      (([0, 0, 0, 0, 0x18, 0x82, 0x35] : Bytes).length = 7 ∧
        crc16 [0, 0, 0, 0, 0x18] = ((0x82 : Byte) ++ (0x35 : Byte) : BitVec 16)) ∧
      (exec (.tmPhDec [0x3A, 0x55, 0, 0, 0x98, 7]) State.reset =
          .next (State.reset.respond (.ok (.tmPh (th 0 933 2 true 0 0 true false false 3 7)))) ∧
        crc16 [0x3A, 0x55, 0, 0, 0x98, 7, 3, 0xAA, 0xBB, 0xCC, 0x10, 0x20] =
          ((0xA6 : Byte) ++ (0x65 : Byte) : BitVec 16) ∧
        ([3, 0xAA, 0xBB, 0xCC, 0x10, 0x20] : Bytes).length < (7 : Word16).toNat) ∧
      (exec (.tmPhDec [0x3A, 0x54, 0, 0, 0x98, 0]) State.reset =
          .next (State.reset.respond (.ok (.tmPh (th 0 933 2 false 0 0 true false false 3 0)))) ∧
        crc16 [0x3A, 0x54, 0, 0, 0x98, 0, 0x10, 0x20] = ((0xA9 : Byte) ++ (0x82 : Byte) : BitVec 16) ∧
        ¬ TmShBuffer Config.default (([0x10, 0x20] : Bytes).take (0 : Word16).toNat)) ∧
      (exec (.tmPhDec [0x3A, 0x54, 0, 0, 0x98, 2]) State.reset =
          .next (State.reset.respond (.ok (.tmPh (th 0 933 2 false 0 0 true false false 3 2)))) ∧
        crc16 [0x3A, 0x54, 0, 0, 0x98, 2, 0x41, 0xAA, 0x10] =
          ((0xC4 : Byte) ++ (0x37 : Byte) : BitVec 16) ∧
        ¬ TmShBuffer Config.default (([0x41, 0xAA, 0x10] : Bytes).take (2 : Word16).toNat)) := by
  refine ⟨by decide, rfl, ⟨rfl, by decide +kernel⟩, ⟨by decide, by decide +kernel⟩,
    ⟨rfl, by decide +kernel, by decide⟩, ⟨rfl, by decide +kernel, ?_⟩, ⟨rfl, by decide +kernel, ?_⟩⟩
  · rintro ⟨b, rest, e, _⟩
    cases e
  · rintro ⟨b, rest, e, h, _⟩
    cases e
    exact absurd h (by decide)

/-- Built frames of each clause, and a buffer that decodes (V-TMF-4). -/
theorem witness_TmfRoundTrip :
    (∃ f, exec (.tmfNew 933 2 [0x10] [3, 0xAA] none false) State.reset =
        .next (State.reset.respond (.ok (.frame f)))) ∧
      (∃ f, exec (.tmfNew 1 7 [0x55] [] none true) State.reset =
        .next (State.reset.respond (.ok (.frame f)))) ∧
      (∃ f, exec (.tmfNew 1 1 [1, 2] [1, 0xAA] none true) State.reset =
        .next (State.reset.respond (.ok (.frame f)))) ∧
      resp (exec (.tmfDecode [0, 0, 0, 0, 0x18, 0, 0x84, 0xCA]) State.reset) = some (.ok (.frame f4)) :=
  ⟨⟨_, rfl⟩, ⟨_, rfl⟩, ⟨_, rfl⟩, by decide +kernel⟩

/-- V-TMF-4 with its last bit, and with its first bit, in the place of the flip. -/
theorem witness_TmfDecodeDetectsEverySingleBitFlip :
    (0 < 8 ∧ 7 < 8) ∧
      resp (exec (.tmfDecode (([0, 0, 0, 0, 0x18, 0, 0x84] : Bytes) ++ 0xCA :: [])) State.reset) =
        some (.ok (.frame f4)) ∧
      resp (exec (.tmPhDec (([0, 0, 0, 0, 0x18, 0, 0x84] : Bytes) ++ (0xCA ^^^ (1#8 <<< 0)) :: [])) State.reset) =
        some (.ok (.tmPh (th 0 0 0 false 0 0 false false false 3 0))) ∧
      resp (exec (.tmPhDec (([] : Bytes) ++ ((0 : Byte) ^^^ (1#8 <<< 7)) :: [0, 0, 0, 0x18, 0, 0x84, 0xCA]))
        State.reset) = some (.fail .malformedHeader) := by decide +kernel

/-- V-TMF-8. -/
theorem witness_TmfSyncWithSecondaryHeaderFailsToDecode :
    ([1, 0xAA] : Bytes) ≠ [] ∧ ([1, 0xAA] : Bytes).length + ([1, 2] : Bytes).length + 0 < 2047 ∧
      ∃ f, exec (.tmfNew 1 1 [1, 2] [1, 0xAA] none true) State.reset =
        .next (State.reset.respond (.ok (.frame f))) := ⟨by decide, by decide, _, rfl⟩

/-- A free slot with and without a limit at the capacity asked for, a taken slot, and one above it. -/
theorem witness_VcCreateMakesEmptyChannel :
    ((State.reset.slot 7).present = false ∧ ∀ m, State.reset.cfg.maxDepth = some m → 4 ≤ m) ∧
      (∀ m, ({ Config.default with maxDepth := some 4 }).maxDepth = some m → 4 ≤ m) ∧
      ((run [.vcCreate 7 1]).slot 7).present = true ∧
      ∃ m, ({ Config.default with maxDepth := some 4 }).maxDepth = some m ∧ m < 5 :=
  ⟨⟨by decide, fun _ h => by cases h⟩, fun _ h => by cases h; decide, by decide, 4, rfl, by decide⟩

/-- One frame short of full, absent, and full. -/
theorem witness_VcAddFrameAppendsUnlessFull :
    (((run [.vcCreate 2 1]).slot 2).present = true ∧
        ((run [.vcCreate 2 1]).slot 2).q.length < ((run [.vcCreate 2 1]).slot 2).max) ∧
      (State.reset.slot 2).present = false ∧
      (((run [.vcCreate 2 1, .vcAddFrame 2 f3]).slot 2).present = true ∧
        ((run [.vcCreate 2 1, .vcAddFrame 2 f3]).slot 2).max ≤
          ((run [.vcCreate 2 1, .vcAddFrame 2 f3]).slot 2).q.length) := by decide

theorem witness_VcGetNextFramePopsOldest :
    (((run [.vcCreate 2 1, .vcAddFrame 2 f3]).slot 2).present = true ∧
        ((run [.vcCreate 2 1, .vcAddFrame 2 f3]).slot 2).q = f3 :: []) ∧
      (State.reset.slot 2).present = false ∧
      ((run [.vcCreate 2 1]).slot 2).present = true ∧ ((run [.vcCreate 2 1]).slot 2).q = [] := by
  decide

theorem witness_VcHasFramesPeeks :
    (((run [.vcCreate 2 1, .vcAddFrame 2 f3]).slot 2).present = true ∧
        ((run [.vcCreate 2 1, .vcAddFrame 2 f3]).slot 2).q ≠ []) ∧
      (((run [.vcCreate 2 1]).slot 2).present = true ∧ ((run [.vcCreate 2 1]).slot 2).q = []) ∧
      (State.reset.slot 2).present = false := by decide

/-- A trace that pushes a frame and pops it again by the direct path. -/
theorem witness_ChannelQueuesAreFirstInFirstOut :
    (∃ u, Trace 2 [.vcAddFrame 2 f3, .vcGetNextFrame 2] (run [.vcCreate 2 1]) u [f3] [f3]) ∧
      ((run [.vcCreate 2 1]).slot 2).present = true :=
  ⟨⟨_, Trace.cons (i := .vcAddFrame 2 f3) (t := run [.vcCreate 2 1, .vcAddFrame 2 f3]) rfl
    (Trace.cons (i := .vcGetNextFrame 2)
      (t := run [.vcCreate 2 1, .vcAddFrame 2 f3, .vcGetNextFrame 2]) rfl (Trace.nil _))⟩, by decide⟩

theorem witness_ChannelCommandsLeaveOthersAlone :
    (∃ t, exec (.vcCreate 2 1) State.reset = .next t) ∧ (3 : Vcid) ≠ 2 := ⟨⟨_, rfl⟩, by decide⟩

theorem witness_MuxAddChannelRegisters :
    ((run [.vcCreate 1 4]).slot 1).present = true ∧ (State.reset.slot 1).present = false := by decide

/-- No channel registered; a registered empty channel; a registered channel with a frame. -/
theorem witness_MuxGetNextFrameFailsOnlyWhenEmpty :
    State.reset.muxOrder = [] ∧
      ((run [.vcCreate 3 4, .muxAddChannel 3 0]).muxOrder ≠ [] ∧
        ∀ v ∈ (run [.vcCreate 3 4, .muxAddChannel 3 0]).muxOrder,
          (run [.vcCreate 3 4, .muxAddChannel 3 0]).queue v = []) ∧
      ∃ v ∈ mux1.muxOrder, mux1.queue v ≠ [] := by decide

/-- The first and the last position of the round: V-MUX-1, and V-MUX-5 where `k = N = 2`. -/
theorem witness_MuxGetNextFrameServesFirstPendingAfterCursor :
    (1 ≤ 1 ∧ 1 ≤ mux1.muxOrder.length ∧
      mux1.muxOrder[(mux1.muxLastUsed + 1) % mux1.muxOrder.length]? = some 1 ∧
      mux1.queue 1 = f4 :: []) ∧
    let s := run [.vcCreate 2 4, .vcAddFrame 2 f3, .vcCreate 3 4, .muxAddChannel 3 0, .muxAddChannel 2 0]
    2 ≤ s.muxOrder.length ∧ s.muxOrder[(s.muxLastUsed + 2) % s.muxOrder.length]? = some 2 ∧
      s.queue 2 = f3 :: [] ∧
      ∀ w, s.muxOrder[(s.muxLastUsed + 1) % s.muxOrder.length]? = some w → s.queue w = [] := by
  decide

/-- V-MUX-1: two channels, two calls, channel 0 pending before both. -/
theorem witness_MuxStarvesNoChannel :
    ∃ σ τ : Nat → State, 2 = (σ 0).muxOrder.length ∧ (0 : Vcid) ∈ (σ 0).muxOrder ∧
      (∀ k, k < 2 → exec .muxGetNextFrame (σ k) = .next (τ k) ∧
        (∃ f, (τ k).response = some (.ok (.frame f))) ∧ (σ k).queue 0 ≠ []) ∧
      ∀ k, k + 1 < 2 → (σ (k + 1)).muxOrder = (τ k).muxOrder ∧
        (σ (k + 1)).muxLastUsed = (τ k).muxLastUsed := by
  refine ⟨fun k => (after .muxGetNextFrame)^[k] mux1, fun k => (after .muxGetNextFrame)^[k + 1] mux1,
    by decide, by decide, fun k hk => ?_, fun k hk => ⟨rfl, rfl⟩⟩
  interval_cases k
  · exact ⟨rfl, ⟨f4, by decide⟩, by decide⟩
  · exact ⟨rfl, ⟨f3, by decide⟩, by decide⟩

theorem witness_PriorityWeightsCannotBeObserved :
    State.sameButPrio (run [.vcCreate 1 4, .muxAddChannel 1 10]) (run [.vcCreate 1 4, .muxAddChannel 1 9]) :=
  rfl

/-- The smallest and the largest user data, and each way to fail. -/
theorem witness_SppPktNewBuildsPacket (D : Bytes) (h : D.length = 65537) :
    ((2047 : Word16) ≤ 2047 ∧ 1 ≤ ([1] : Bytes).length ∧ ([1] : Bytes).length ≤ 65536 ∧
        ∀ sh, SppOption.withSecondaryHeader sh ∈
          [SppOption.withSecondaryHeader { timestamp := 1, otherFields := [] }, .withErrorControl 7] →
          sh.timestamp ≠ 0) ∧
      (2047 : Word16) < 2048 ∧ 65536 < D.length ∧
      ∃ sh, SppOption.withSecondaryHeader sh ∈
        [SppOption.withSecondaryHeader { timestamp := 0, otherFields := [] }] ∧ sh.timestamp = 0 := by
  refine ⟨⟨by decide, by decide, by decide, fun sh h => ?_⟩, by decide, by omega, _,
    List.mem_singleton.2 rfl, rfl⟩
  rcases List.mem_cons.1 h with e | h
  · cases e; decide
  · rcases List.mem_cons.1 h with e | h
    · cases e
    · cases h

/-- Headers with the flag 0 and 1, out of range, and field lists of both kinds. -/
theorem witness_SppPktEncodeWritesPartsInOrder :
    (SppPhInRange p1.header ∧ p1.header.secHdrFlag = 0) ∧
      (SppPhInRange (ph 0 0 1 100 3 0 2) ∧ (ph 0 0 1 100 3 0 2).secHdrFlag = 1) ∧
      ¬ SppPhInRange (ph 0 2 0 1 3 0 0) ∧ (∀ f ∈ [fld [0x6B] [0x76]], f.tag = 1) ∧
      ∃ f ∈ [({ key := [0x6B], tag := 2, value := [0x76] } : SppField)], f.tag ≠ 1 := by decide

/-- Each clause at an edge: no tail of two octets; a tail of two; the longest user data with one or no
octet too many, unflagged and flagged; a timestamp one octet short; user data one octet short. -/
theorem witness_SppPktDecodeParsesParts :
    (SppPhInRange (ph 0 0 0 100 3 0 0) ∧
        ([9] : Bytes).length = (ph 0 0 0 100 3 0 0).packetLength.toNat + 1 ∧
        (([1] : Bytes).length < 2 ∨ ([9] : Bytes).length ≤ 65534)) ∧
      (SppPhInRange (ph 0 0 1 100 3 0 0) ∧ (ph 0 0 1 100 3 0 0).secHdrFlag = 1 ∧
        ([1, 2] : Bytes).length = 2 ∧ ([9] : Bytes).length ≤ 65526 ∧ (1 : Word64) ≠ 0) ∧
      (SppPhInRange (ph 0 0 0 100 3 0 65534) ∧
        (List.replicate 65535 (0 : Byte)).length = (ph 0 0 0 100 3 0 65534).packetLength.toNat + 1 ∧
        2 ≤ ([1, 2] : Bytes).length ∧ 65534 < (List.replicate 65535 (0 : Byte)).length) ∧
      (SppPhInRange (ph 0 0 1 100 3 0 65528) ∧
        (List.replicate 65529 (0 : Byte)).length = (ph 0 0 1 100 3 0 65528).packetLength.toNat + 1 ∧
        65528 < (List.replicate 65529 (0 : Byte)).length) ∧
      (SppPhInRange (ph 0 0 1 100 3 0 65526) ∧
        (List.replicate 65527 (0 : Byte)).length = (ph 0 0 1 100 3 0 65526).packetLength.toNat + 1 ∧
        65526 < (List.replicate 65527 (0 : Byte)).length) ∧
      ([0, 0, 0, 0, 0, 0, 1] : Bytes).length < 8 ∧
      ([1, 2] : Bytes).length ≤ (ph 0 0 0 100 3 0 2).packetLength.toNat ∧
      ([0, 0, 0, 0, 0, 0, 0, 1] : Bytes).length = 8 ∧ 5 < 6 := by
  simp only [List.length_replicate]
  decide

/-- The shortest packet, of seven octets, and a packet whose user data is one octet short. -/
theorem witness_SppPktValidateTestsFourClauses :
    (SppPhInRange (ph 0 0 0 100 3 0 0) ∧ ([9] : Bytes).length = (0 : Word16).toNat + 1 ∧
        7 ≤ 6 + 0 + ([9] : Bytes).length + 0) ∧
      ¬ ([1, 2] : Bytes).length = p1.header.packetLength.toNat + 1 := by decide

/-- Valid packets without a secondary header, with an empty one, and with a field (V-PKT-22). -/
theorem witness_SppPktRoundTrip :
    (exec (.sppPktValidate p1) State.reset = .next (State.reset.respond (.ok .unit)) ∧
        p1.header.secHdrFlag = (if p1.sec.isSome then 1 else 0)) ∧
      exec (.sppPktValidate { p1 with header := ph 0 0 1 100 3 0 2, sec := some { timestamp := 1, otherFields := [] } })
        State.reset = .next (State.reset.respond (.ok .unit)) ∧
      exec (.sppPktValidate
          { p1 with header := ph 0 0 1 100 3 0 2, sec := some { timestamp := 1, otherFields := [fld [0x6B] [0x76]] } })
        State.reset = .next (State.reset.respond (.ok .unit)) := ⟨⟨rfl, rfl⟩, rfl, rfl⟩

/-- V-PKT-22's packet. -/
theorem witness_SppPktDecodeLosesSecondaryFields :
    exec (.sppPktValidate
          { p1 with header := ph 0 0 1 100 3 0 2, sec := some { timestamp := 1, otherFields := [fld [0x6B] [0x76]] } })
        State.reset = .next (State.reset.respond (.ok .unit)) ∧
      (ph 0 0 1 100 3 0 2).secHdrFlag = 1 ∧ [fld [0x6B] [0x76]] ≠ [] ∧
      ∀ f ∈ [fld [0x6B] [0x76]], f.tag = 1 := ⟨rfl, by decide, by decide, by decide⟩

/-- A state with the invariant, and a step from it. -/
theorem witness_InvariantKeptByEveryStep :
    State.Inv State.reset ∧ ∃ t, step State.reset = .next t :=
  ⟨{ orderTotal := by decide
     bounded := by decide
     absent := by decide
     atMostEight := by decide
     capacityAllowed := fun _ _ h => by cases h
     weightsFit := by decide }, _, rfl⟩

theorem witness_FailureChangesNothing :
    ∃ t, exec .muxGetNextFrame State.reset = .next t ∧ t.response = some (.fail .noChannels) :=
  ⟨_, rfl, rfl⟩

/-- A codec command that answers, and a second state with the same parameters. -/
theorem witness_CodecCommandsAreStateless :
    (opcode (.sppPhDec [])).toNat / 16 ∈ [2, 3, 4, 7] ∧
      (∃ t, exec (.sppPhDec []) State.reset = .next t) ∧
      (run [.vcCreate 1 1]).cfg = State.reset.cfg := ⟨by decide, ⟨_, rfl⟩, rfl⟩

theorem witness_CommandsIgnoreThePort :
    ∃ t, exec (.vcCreate 1 1) State.reset = .next t := ⟨_, rfl⟩

/-- A command on the port that decodes and is well formed. -/
theorem witness_StepRunsTheDecodedCommand :
    let s := State.reset.withFetchWord 8 0x11
    s.input = .command { op := 0x11, args := [.bytes []] } :: [] ∧
      decode s.cfg { op := 0x11, args := [.bytes []] } = .ok (.crcUpdate []) ∧
      (Instr.crcUpdate []).wellFormed s.cfg := by decide

/-- The first and the last opcode, on the port, with and without unit U5; 0x70 only without it. -/
theorem witness_ReservedOpcodesAreIllegalCommands :
    let R := fun packets : Bool => ((List.range 256).map (BitVec.ofNat 8)).filter (fun op =>
      !([0x10, 0x11, 0x12, 0x13, 0x20, 0x21, 0x22, 0x24, 0x25, 0x26, 0x30, 0x31, 0x32, 0x33, 0x34,
         0x35, 0x36, 0x37, 0x40, 0x41, 0x42, 0x43, 0x50, 0x51, 0x52, 0x53, 0x60, 0x61].contains op)
      && !(packets && [0x70, 0x71, 0x72, 0x73].contains op))
    ({ State.reset with input := [.command { op := 0xFF, args := [] }] } : State).input =
        .command { op := 0xFF, args := [] } :: [] ∧
      0x00 ∈ R true ∧ 0xFF ∈ R true ∧ 0x70 ∉ R true ∧ 0x70 ∈ R false ∧ 0x73 ∈ R false := by
  decide +kernel

theorem witness_ResetEventRestoresEveryElement :
    ({ State.reset with crc := 5, input := [.reset] } : State).input = .reset :: [] ∧
      State.reset.input = [] := by decide

/-- A command of group 7 and one of group 1, and a command that decodes. -/
theorem witness_DecodeAndEncodeAgree :
    Config.default.hasSppPacket = true ∧ (opcode .crcInit).toNat < 0x70 ∧
      decode Config.default { op := 0x10, args := [] } = .ok .crcInit ∧
      decode Config.default { op := 0x10, args := [] } ≠ .error .reservedOpcode := by decide

/-- A command for each clause: an operand of a wrong type; a second byte string one octet above
`MAX_BYTES`; the first weight outside 32 bits on either side; a key one octet too long in an option; a
repeated key in a packet; both in one option list; and a command with nothing wrong. -/
theorem witness_OperandsThatCannotBeOnThePortAreRefused :
    decode Config.default { op := 0x12, args := [.u8 0] } = .error .operandTypes ∧
      (decode { Config.default with maxBytes := some 2 }
          { op := 0x40, args := [.u16 1, .u8 1, .bytes [1, 2], .bytes [1, 2, 3], .ocf none, .bool true] } =
          .ok (.tmfNew 1 1 [1, 2] [1, 2, 3] none true) ∧
        ¬ BytesFit { Config.default with maxBytes := some 2 } [1, 2, 3] ∧
        BytesFit { Config.default with maxBytes := some 2 } [1, 2]) ∧
      (¬ WeightFits Config.default 2147483648 ∧ ¬ WeightFits Config.default (-2147483649) ∧
        WeightFits Config.default 2147483647 ∧ WeightFits Config.default (-2147483648)) ∧
      (sppShInside (.options [.withErrorControl 0, .withSecondaryHeader longKey,
          .withSecondaryHeader { timestamp := 1, otherFields := [fld [1] [], fld [1] []] }]) =
          [longKey, { timestamp := 1, otherFields := [fld [1] [], fld [1] []] }] ∧
        ¬ StringsFit longKey ∧ KeysDiffer longKey.otherFields) ∧
      (sppShInside (.packet
          { p1 with sec := some { timestamp := 1, otherFields := [fld [1] [], fld [1] []] } }) =
          [{ timestamp := 1, otherFields := [fld [1] [], fld [1] []] }] ∧
        StringsFit { timestamp := 1, otherFields := [fld [1] [], fld [1] []] } ∧
        ¬ KeysDiffer [fld [1] [], fld [1] []]) ∧
      decode Config.default { op := 0x73, args := [.packet p1] } = .ok (.sppPktValidate p1) ∧
      sppShInside (.packet p1) = [] := by
  refine ⟨by decide, ⟨by decide, ?_, ?_⟩, by decide, ⟨rfl, ?_, ?_⟩, ⟨rfl, by decide, by decide⟩,
    by decide, rfl⟩
  · exact fun h => absurd (h 2 rfl) (by decide)
  · rintro m ⟨⟩; decide
  · intro h
    have := (h _ (List.mem_singleton.2 rfl)).1
    rw [fld, List.length_replicate] at this
    exact absurd this (by decide)
  · exact List.nodup_singleton _

/-- An error a command answers with, and the two ends of the table's codes. -/
theorem witness_StatusOctetsFollowTheTable :
    (∃ t, exec (.vcHasFrames 0) State.reset = .next t ∧
        t.response = some (.fail .channelNotFound)) ∧
      statusOctet (.fail .validationError) = 0x01 ∧ statusOctet (.fail .channelExists) = 0x12 :=
  ⟨⟨_, rfl, rfl⟩, rfl, rfl⟩

end Sys2Proof.Tests
end

section
/-! Spec/10_state.md as theorems: the invariant of R29, who writes the CRC register (R24), which
commands are stateless (R23), and that no command sees the port (R22). What a command can do is
`exec_cases`; this part says what each of those writes does to the invariant, and how the port and the
parameters pass through the shared operations. -/

namespace Sys2Proof.Machine

/-! ## The invariant under each write of the state -/

/-- The invariant speaks of the parameters, the slots and the multiplexer's two tables only. -/
theorem State.Inv.congr {s t : State} (hs : s.Inv) (hcfg : t.cfg = s.cfg) (hvc : t.vc = s.vc)
    (hreg : t.muxReg = s.muxReg) (hprio : t.muxPrio = s.muxPrio) : t.Inv := by
  obtain ⟨⟩ := t
  dsimp only at hcfg hvc hreg hprio
  subst hcfg hvc hreg hprio
  exact ⟨hs.orderTotal, hs.bounded, hs.absent, hs.atMostEight, hs.capacityAllowed, hs.weightsFit⟩

theorem State.Inv.respond {s : State} (hs : s.Inv) (r : Response) : (s.respond r).Inv :=
  hs.congr rfl rfl rfl rfl

/-- R29 (c) needs no bookkeeping: a total order names eight channels, and the registered ones are
among them. -/
theorem muxOrder_length_le_eight {s : State} (h : s.cfg.wf) : s.muxOrder.length ≤ 8 :=
  vcids_length_le (muxOrder_nodup h)

/-- R29 (b), read backwards: a frame is only ever in a created channel. -/
theorem State.Inv.present_of_queue_eq_cons {s : State} (hs : s.Inv) {v : Vcid} {f : Frame}
    {q : List Frame} (hq : s.queue v = f :: q) : (s.slot v).present = true := by
  by_contra hp
  obtain ⟨hnil, -, -⟩ := hs.absent v (by simpa using hp)
  simp [hq] at hnil

theorem State.Inv.length_le_max_of_queue_eq_cons {s : State} (hs : s.Inv) {v : Vcid} {f : Frame}
    {q : List Frame} (hq : s.queue v = f :: q) : q.length ≤ (s.slot v).max := by
  have hb : (s.queue v).length ≤ (s.slot v).max := hs.bounded v
  rw [hq, List.length_cons] at hb
  omega

/-- A queue of a created channel may be replaced by any other within the capacity. -/
theorem State.Inv.setQueue {s : State} (hs : s.Inv) {v : Vcid} {q : List Frame}
    (hp : (s.slot v).present = true) (hq : q.length ≤ (s.slot v).max) : (s.setQueue v q).Inv where
  orderTotal := hs.orderTotal
  bounded w := by
    rw [setQueue_max, State.qLen]
    by_cases hw : w = v
    · subst hw; rwa [setQueue_queue_self]
    · rw [setQueue_queue_ne s q hw]; exact hs.bounded w
  absent w ha := by
    rw [setQueue_present] at ha
    have hw : w ≠ v := by rintro rfl; simp [hp] at ha
    rw [setQueue_queue_ne s q hw, setQueue_max]
    exact hs.absent w ha
  atMostEight := hs.atMostEight
  capacityAllowed w n hn := by rw [setQueue_max]; exact hs.capacityAllowed w n hn
  weightsFit := hs.weightsFit

/-- R220: a slot may become a created, empty one whose capacity `MAX_DEPTH` allows. -/
theorem State.Inv.create {s : State} (hs : s.Inv) (v : Vcid) {n : Nat}
    (hn : ∀ m, s.cfg.maxDepth = some m → n ≤ m) :
    (s.setSlot v { present := true, max := n, q := [] }).Inv where
  orderTotal := hs.orderTotal
  bounded w := by
    rw [State.qLen, State.queue]
    by_cases hw : w = v
    · subst hw; simp
    · rw [setSlot_slot_ne s _ hw]; exact hs.bounded w
  absent w ha := by
    have hw : w ≠ v := by rintro rfl; simp at ha
    rw [setSlot_slot_ne s _ hw] at ha
    rw [State.queue, setSlot_slot_ne s _ hw]
    exact hs.absent w ha
  atMostEight := hs.atMostEight
  capacityAllowed w m hm := by
    by_cases hw : w = v
    · subst hw; rw [setSlot_slot_self]; exact hn m hm
    · rw [setSlot_slot_ne s _ hw]; exact hs.capacityAllowed w m hm
  weightsFit := hs.weightsFit

/-- R240: a created channel may be registered with any weight the port lets through. -/
theorem State.Inv.register {s : State} (hs : s.Inv) {v : Vcid} {p : Int}
    (hp : (s.slot v).present = true) (hw : WeightFits s.cfg p) : (s.register v p).Inv where
  orderTotal := hs.orderTotal
  bounded := hs.bounded
  absent w ha := by
    rw [register_slot] at ha
    have hne : w ≠ v := by rintro rfl; simp [hp] at ha
    rw [register_registered_ne s p hne]
    exact hs.absent w ha
  atMostEight := muxOrder_length_le_eight hs.orderTotal
  capacityAllowed := hs.capacityAllowed
  weightsFit w := by
    by_cases hne : w = v
    · subst hne; rw [register_prio_self]; exact hw
    · rw [register_prio_ne s p hne]; exact hs.weightsFit w

/-- R39: reset gives a state with the invariant whatever the parameters are. -/
theorem resetWith_inv {cfg : Config} (h : cfg.wf) : (State.resetWith cfg).Inv where
  orderTotal := h
  bounded v := by simp [State.qLen]
  absent v _ := by simp [Slot.reset]
  atMostEight := muxOrder_length_le_eight h
  capacityAllowed v n _ := by simp [Slot.reset]
  weightsFit v := by simp

theorem State.Inv.resetEvent {s : State} (hs : s.Inv) : s.resetEvent.Inv :=
  (resetWith_inv hs.orderTotal).congr rfl rfl rfl rfl

theorem weightFits_of_wellFormed {cfg : Config} {v : Vcid} {p : Int}
    (h : (Instr.muxAddChannel v p).wellFormed cfg) : WeightFits cfg p := by
  rcases checkPrio_cases cfg p with ⟨hw, -⟩ | ⟨-, hbad⟩
  · exact hw
  · exact absurd (h.symm.trans hbad) (by simp)

/-- Every well-formed command keeps the invariant; that it is well formed matters to the weight of
`MUX_ADD_CHANNEL` alone. -/
theorem State.Inv.exec {i : Instr} {s t : State} (hs : s.Inv) (hwf : i.wellFormed s.cfg)
    (h : exec i s = .next t) : t.Inv := by
  rcases exec_cases h with ⟨r, rfl, -⟩ | ⟨c, r, rfl, -⟩ | ⟨v, n, -, -, hn, rfl⟩ |
    ⟨v, f, -, hp, hroom, rfl⟩ | ⟨v, f, q, -, hp, hq, rfl⟩ | ⟨v, p, rfl, hp, rfl⟩ |
    ⟨v, p, f, q, -, -, hq, rfl⟩
  · exact hs.respond r
  · exact hs.congr rfl rfl rfl rfl
  · exact (hs.create v hn).respond _
  · have hlen : (s.queue v ++ [f]).length ≤ (s.slot v).max := by simpa [State.qLen] using hroom
    exact (hs.setQueue hp hlen).respond _
  · exact (hs.setQueue hp (hs.length_le_max_of_queue_eq_cons hq)).respond _
  · exact (hs.register hp (weightFits_of_wellFormed hwf)).respond _
  · have hkept := hs.setQueue (hs.present_of_queue_eq_cons hq) (hs.length_le_max_of_queue_eq_cons hq)
    exact hkept.congr rfl rfl rfl rfl

/-- Settles O49: a step idles, resets, turns an opcode away or runs a well-formed command
(`step_eq_next`), and each of the four keeps the invariant. -/
theorem invariantKeptByEveryStep : Obligations.InvariantKeptByEveryStep := by
  intro s t hs h
  have taken (rest : List PortEvent) : State.Inv { s with input := rest } :=
    hs.congr rfl rfl rfl rfl
  rcases step_eq_next h with ⟨-, rfl⟩ | ⟨rest, -, rfl⟩ | ⟨c, rest, -, -, rfl⟩ |
    ⟨c, rest, i, -, -, hwf, hexec⟩
  · exact hs
  · exact (taken rest).resetEvent
  · exact (taken rest).respond _
  · exact (taken rest).exec hwf hexec

/-- Settles O48: the default `MUX_ORDER` names each of the eight channels once. -/
theorem invariantHoldsAtReset : Obligations.InvariantHoldsAtReset :=
  resetWith_inv (by decide)

/-! ## The CRC register -/

/-- Settles O7: of the writes of `exec_cases`, only that of the three CRC commands is to `CRC`. -/
theorem onlyCrcCommandsWriteTheRegister : Obligations.OnlyCrcCommandsWriteTheRegister := by
  intro i s t h
  rcases exec_cases h with ⟨r, rfl, -⟩ | ⟨c, r, -, hi⟩ | ⟨v, n, -, -, -, rfl⟩ |
    ⟨v, f, -, -, -, rfl⟩ | ⟨v, f, q, -, -, -, rfl⟩ | ⟨v, p, -, -, rfl⟩ | ⟨v, p, f, q, -, -, -, rfl⟩
  case inr.inl => exact .inr hi
  all_goals exact .inl rfl

/-! ## Stateless commands -/

/-- The outcome of a command that only answers: the response, or the refusal, worked out for it. -/
def State.reply (s : State) : Except Refusal Response → Outcome
  | .ok r => .next (s.respond r)
  | .error why => .refused why

theorem reply_eq_next {s t : State} {x : Except Refusal Response} :
    s.reply x = .next t ↔ ∃ r, x = .ok r ∧ t = s.respond r := by
  cases x <;> simp [State.reply, eq_comm]

/-- R74: the response that reports a computation. -/
def report {α : Type} (x : Except ErrorStatus α) (r : α → Result) : Response :=
  match x with
  | .ok a => .ok (r a)
  | .error e => .fail e

theorem answer_eq_reply {α : Type} (s : State) (x : Except ErrorStatus α) (r : α → Result) :
    s.answer x r = s.reply (.ok (report x r)) := by
  cases x <;> rfl

/-- R136, log 6: what `SPP_SH_DEC` answers to a decoded header, as a function of the buffer alone. -/
def sppShDecReply (B : Bytes) : Except Refusal Response :=
  match sppShDec B with
  | .error e => .ok (.fail e)
  | .ok sh =>
    if keysDistinct sh.otherFields then .ok (.ok (.sppSh sh)) else .error .repeatedKeyDecoded

theorem execSppShDec_eq_reply (B : Bytes) (s : State) :
    execSppShDec B s = s.reply (sppShDecReply B) := by
  unfold execSppShDec sppShDecReply
  cases sppShDec B with
  | error e => rfl
  | ok sh => by_cases hk : keysDistinct sh.otherFields = true <;> simp [hk] <;> rfl

/-- A command whose outcome is worked out from the parameters alone. -/
def Stateless (i : Instr) : Prop :=
  ∃ f : Config → Except Refusal Response, ∀ s, exec i s = s.reply (f s.cfg)

theorem stateless_of_answer {i : Instr} {α : Type} {r : α → Result}
    (x : Config → Except ErrorStatus α) (h : ∀ s, exec i s = s.answer (x s.cfg) r) : Stateless i :=
  ⟨fun cfg => .ok (report (x cfg) r), fun s => (h s).trans (answer_eq_reply ..)⟩

/-- R23: the opcode groups 2, 3, 4 and 7, those of units U2, U3 and U5. -/
abbrev InCodecGroup (i : Instr) : Prop := (opcode i).toNat / 16 ∈ [2, 3, 4, 7]

theorem stateless_of_codecGroup {i : Instr} (h : InCodecGroup i) : Stateless i := by
  cases i
  case crcInit | crcUpdate | crcRead | crcCompute | vcCreate | vcAddFrame | vcGetNextFrame |
      vcHasFrames | muxAddChannel | muxGetNextFrame =>
    exact absurd h (by simp [opcode])
  case sppPhEnc ph => exact stateless_of_answer (fun _ => Machine.sppPhEnc ph) fun _ => rfl
  case sppPhDec B => exact stateless_of_answer (fun _ => Machine.sppPhDec B) fun _ => rfl
  case sppPhValidate ph => exact stateless_of_answer (fun _ => sppPhCheck ph) fun _ => rfl
  case sppShEnc sh => exact stateless_of_answer (fun _ => Machine.sppShEnc sh) fun _ => rfl
  case sppShDec B => exact ⟨fun _ => sppShDecReply B, execSppShDec_eq_reply B⟩
  case sppShValidate sh => exact stateless_of_answer (fun _ => sppShCheck sh) fun _ => rfl
  case tmPhEnc ph => exact stateless_of_answer (fun _ => Machine.tmPhEnc ph) fun _ => rfl
  case tmPhDec B => exact stateless_of_answer (fun _ => Machine.tmPhDec B) fun _ => rfl
  case tmPhValidate ph => exact stateless_of_answer (fun _ => tmPhCheck ph) fun _ => rfl
  case tmGetMcid ph => exact ⟨fun cfg => .ok (.ok (.mcid (tmMcid cfg ph))), fun _ => rfl⟩
  case tmGetGvcid ph => exact ⟨fun cfg => .ok (.ok (.gvcid (tmGvcid cfg ph))), fun _ => rfl⟩
  case tmShEnc sh => exact stateless_of_answer (Machine.tmShEnc · sh) fun _ => rfl
  case tmShDec B => exact stateless_of_answer (Machine.tmShDec · B) fun _ => rfl
  case tmShValidate sh => exact stateless_of_answer (tmShCheck · sh) fun _ => rfl
  case tmfNew scid vcid data sh ocf sync =>
    exact stateless_of_answer (Machine.tmfNew · scid vcid data sh ocf sync) fun _ => rfl
  case tmfEncode f => exact stateless_of_answer (Machine.tmfEncode · f) fun _ => rfl
  case tmfEncodeNofec f => exact stateless_of_answer (frameBody · f) fun _ => rfl
  case tmfDecode B => exact stateless_of_answer (Machine.tmfDecode · B) fun _ => rfl
  case sppPktNew apid type data os =>
    exact stateless_of_answer (fun _ => Machine.sppPktNew apid type data os) fun _ => rfl
  case sppPktEncode p => exact stateless_of_answer (fun _ => Machine.sppPktEncode p) fun _ => rfl
  case sppPktDecode B => exact stateless_of_answer (fun _ => Machine.sppPktDecode B) fun _ => rfl
  case sppPktValidate p => exact stateless_of_answer (fun _ => sppPktCheck p) fun _ => rfl

/-- Settles O51: a codec command is stateless, so what it answers in one state it answers in every
state with the same parameters. -/
theorem codecCommandsAreStateless : Obligations.CodecCommandsAreStateless := by
  intro i s t u hgroup h
  obtain ⟨f, hf⟩ := stateless_of_codecGroup hgroup
  obtain ⟨r, hr, rfl⟩ := reply_eq_next.1 ((hf s).symm.trans h)
  refine ⟨r, rfl, fun hcfg => ?_⟩
  rw [hf u, hcfg]
  exact reply_eq_next.2 ⟨r, hr, rfl⟩

/-! ## The port -/

/-- The state with other contents of the two port fields (log 1). -/
def State.withPort (s : State) (input : List PortEvent) (response : Option Response) : State :=
  { s with input := input, response := response }

/-- The state with something else still to come on the port. -/
def State.withInput (s : State) (input : List PortEvent) : State := { s with input := input }

/-- An outcome with its next state, if it has one, changed by `g`. -/
def onNext (g : State → State) : Outcome → Outcome
  | .next t => .next (g t)
  | .fault why => .fault why
  | .refused why => .refused why

section
variable (s : State) (input : List PortEvent) (response : Option Response)

@[simp] theorem withPort_cfg : (s.withPort input response).cfg = s.cfg := rfl
@[simp] theorem withPort_muxLastUsed :
    (s.withPort input response).muxLastUsed = s.muxLastUsed := rfl
@[simp] theorem withPort_slot (v : Vcid) : (s.withPort input response).slot v = s.slot v := rfl
@[simp] theorem withPort_queue (v : Vcid) : (s.withPort input response).queue v = s.queue v := rfl
@[simp] theorem withPort_qLen (v : Vcid) : (s.withPort input response).qLen v = s.qLen v := rfl
@[simp] theorem withPort_muxOrder : (s.withPort input response).muxOrder = s.muxOrder := rfl

theorem qPop_withPort (v : Vcid) : (s.withPort input response).qPop v =
    (s.qPop v).map (Prod.map id (·.withPort input response)) := by
  unfold State.qPop
  rw [withPort_queue]
  cases s.queue v <;> rfl

theorem muxPopAt_withPort (p : Nat) : (s.withPort input response).muxPopAt p =
    (s.muxPopAt p).map (Prod.map id (·.withPort input response)) := by
  unfold State.muxPopAt
  rw [withPort_muxOrder]
  cases s.muxOrder[p]? with
  | none => rfl
  | some v => exact qPop_withPort s input response v

theorem muxSelect_withPort : (s.withPort input response).muxSelect =
    s.muxSelect.map (Prod.map id (·.withPort input response)) := by
  unfold State.muxSelect
  rw [withPort_muxLastUsed, withPort_muxOrder, List.map_findSome?]
  congr 1
  funext p
  rw [muxPopAt_withPort, Function.comp_apply]
  cases s.muxPopAt p <;> rfl

theorem reply_withPort (x : Except Refusal Response) :
    (s.withPort input response).reply x = onNext (·.withInput input) (s.reply x) := by
  cases x <;> rfl

theorem execVcCreate_withPort (v : Vcid) (n : Nat) :
    execVcCreate v n (s.withPort input response) =
      onNext (·.withInput input) (execVcCreate v n s) := by
  unfold execVcCreate
  rw [withPort_slot, withPort_cfg]
  split_ifs <;> rfl

theorem execVcAddFrame_withPort (v : Vcid) (f : Frame) :
    execVcAddFrame v f (s.withPort input response) =
      onNext (·.withInput input) (execVcAddFrame v f s) := by
  unfold execVcAddFrame
  rw [withPort_slot, withPort_qLen]
  split_ifs <;> rfl

theorem execVcGetNextFrame_withPort (v : Vcid) :
    execVcGetNextFrame v (s.withPort input response) =
      onNext (·.withInput input) (execVcGetNextFrame v s) := by
  unfold execVcGetNextFrame
  rw [withPort_slot, qPop_withPort]
  split_ifs
  · cases s.qPop v <;> rfl
  · rfl

theorem execVcHasFrames_withPort (v : Vcid) :
    execVcHasFrames v (s.withPort input response) =
      onNext (·.withInput input) (execVcHasFrames v s) := by
  unfold execVcHasFrames
  rw [withPort_slot, withPort_qLen]
  split_ifs <;> rfl

theorem execMuxAddChannel_withPort (v : Vcid) (p : Int) :
    execMuxAddChannel v p (s.withPort input response) =
      onNext (·.withInput input) (execMuxAddChannel v p s) := by
  unfold execMuxAddChannel
  rw [withPort_slot]
  split_ifs <;> rfl

theorem execMuxGetNextFrame_withPort :
    execMuxGetNextFrame (s.withPort input response) =
      onNext (·.withInput input) (execMuxGetNextFrame s) := by
  unfold execMuxGetNextFrame
  rw [withPort_muxOrder, muxSelect_withPort]
  split_ifs
  · rfl
  · cases s.muxSelect <;> rfl

/-- R22: the port passes through a command unread: the outcome is the same but for what is still to
come, the response being the command's own. -/
theorem exec_withPort (i : Instr) :
    exec i (s.withPort input response) = onNext (·.withInput input) (exec i s) := by
  by_cases hgroup : InCodecGroup i
  · obtain ⟨f, hf⟩ := stateless_of_codecGroup hgroup
    rw [hf, hf, withPort_cfg, reply_withPort]
  · cases i
    case crcInit | crcUpdate | crcRead | crcCompute => rfl
    case vcCreate v n => exact execVcCreate_withPort s input response v n
    case vcAddFrame v f => exact execVcAddFrame_withPort s input response v f
    case vcGetNextFrame v => exact execVcGetNextFrame_withPort s input response v
    case vcHasFrames v => exact execVcHasFrames_withPort s input response v
    case muxAddChannel v p => exact execMuxAddChannel_withPort s input response v p
    case muxGetNextFrame => exact execMuxGetNextFrame_withPort s input response
    all_goals exact absurd (by simp [InCodecGroup, opcode]) hgroup

end

/-- Settles O53, as `exec_withPort` of a command that answers. -/
theorem commandsIgnoreThePort : Obligations.CommandsIgnoreThePort := by
  intro i s t input response h
  calc exec i (s.withPort input response)
    _ = onNext (·.withInput input) (exec i s) := exec_withPort s input response i
    _ = .next (t.withInput input) := by rw [h]; rfl

/-! ## The reset event and the empty port -/

theorem step_of_input_nil {s : State} (h : s.input = []) : step s = .next s := by
  simp [step, State.fetch, h]

theorem step_of_input_reset {s : State} {rest : List PortEvent} (h : s.input = .reset :: rest) :
    step s = .next { s with input := rest }.resetEvent := by
  simp [step, State.fetch, h]

theorem muxOrder_eq_nil {s : State} (h : ∀ v, s.registered v = false) : s.muxOrder = [] :=
  List.filter_eq_nil_iff.2 fun v _ => by simp [h v]

theorem muxGetNextFrame_of_none_registered {s : State} (h : ∀ v, s.registered v = false) :
    exec .muxGetNextFrame s = .next (s.respond (.fail .noChannels)) := by
  have hnil := muxOrder_eq_nil h
  rcases muxGet_cases s with ⟨-, hexec⟩ | ⟨hne, -⟩ | ⟨k, v, f, q, hk, hle, -⟩
  · exact hexec
  · exact absurd hnil hne
  · simp [hnil] at hle; omega

/-- Settles O56: the elements one by one from the lemmas on `resetEvent`, and `NoChannels` because
reset leaves no channel registered. -/
theorem resetEventRestoresEveryElement : Obligations.ResetEventRestoresEveryElement := by
  refine ⟨fun s rest h => ⟨_, step_of_input_reset h, rfl, fun v => ?_, rfl, rfl, rfl, rfl, ?_⟩,
    fun s h => step_of_input_nil h⟩
  · simp [State.queue, Slot.reset]
  · exact muxGetNextFrame_of_none_registered fun v => resetEvent_registered _ v

end Sys2Proof.Machine
end

section
/-! Spec/20_memory.md as theorems: a step runs the command it decoded (R61), every command is answered
but the one R136 gives no meaning (R58), and each channel is first in, first out (R62). -/

namespace Sys2Proof.Machine

/-! ## A step runs the decoded command -/

theorem takeCommand_of_wellFormed {s : State} {c : Command} {i : Instr}
    (hdec : decode s.cfg c = .ok i) (hwf : i.wellFormed s.cfg) : s.takeCommand c = .run i s := by
  simp only [State.takeCommand, hdec, show offPort s.cfg i = none from hwf]

theorem fetch_of_input_command {s : State} {c : Command} {rest : List PortEvent}
    (h : s.input = .command c :: rest) :
    s.fetch = State.takeCommand { s with input := rest } c := by
  simp only [State.fetch, h]

/-- Settles O54: the command is fetched, decoded and let through, and taking it off the port leaves the
parameters, and so the decoding, as they were. -/
theorem stepRunsTheDecodedCommand : Obligations.StepRunsTheDecodedCommand := by
  intro s c rest i hin hdec hwf
  have hrun : State.takeCommand { s with input := rest } c = .run i { s with input := rest } :=
    takeCommand_of_wellFormed hdec hwf
  simp only [step, fetch_of_input_command hin, hrun]

/-! ## Every command is answered -/

/-- R58: the outcome is a next state. -/
def Answered (o : Outcome) : Prop := ∃ t, o = .next t

theorem answered_ok (s : State) (r : Result) : Answered (s.ok r) := ⟨_, rfl⟩

theorem answered_fail (s : State) (e : ErrorStatus) : Answered (s.fail e) := ⟨_, rfl⟩

theorem answered_answer {α : Type} (s : State) (x : Except ErrorStatus α) (r : α → Result) :
    Answered (s.answer x r) := by
  cases x with
  | ok a => exact answered_ok s (r a)
  | error e => exact answered_fail s e

theorem answered_ite {p : Prop} [Decidable p] {a b : Outcome} (ha : Answered a) (hb : Answered b) :
    Answered (if p then a else b) := by
  split
  · exact ha
  · exact hb

theorem answered_vcCreate (v : Vcid) (n : Nat) (s : State) : Answered (execVcCreate v n s) :=
  answered_ite (answered_fail ..) (answered_ite (answered_ok ..) (answered_fail ..))

theorem answered_vcAddFrame (v : Vcid) (f : Frame) (s : State) : Answered (execVcAddFrame v f s) :=
  answered_ite (answered_ite (answered_fail ..) (answered_ok ..)) (answered_fail ..)

theorem answered_vcGetNextFrame (v : Vcid) (s : State) : Answered (execVcGetNextFrame v s) := by
  refine answered_ite ?_ (answered_fail ..)
  split
  · exact answered_fail ..
  · exact answered_ok ..

theorem answered_vcHasFrames (v : Vcid) (s : State) : Answered (execVcHasFrames v s) :=
  answered_ite (answered_ok ..) (answered_fail ..)

theorem answered_muxAddChannel (v : Vcid) (p : Int) (s : State) :
    Answered (execMuxAddChannel v p s) :=
  answered_ite (answered_ok ..) (answered_fail ..)

theorem answered_muxGetNextFrame (s : State) : Answered (execMuxGetNextFrame s) := by
  refine answered_ite (answered_fail ..) ?_
  split
  · exact answered_fail ..
  · exact answered_ok ..

/-- The one command with a third outcome: it refuses a header in which a key occurs twice (log 6). -/
theorem sppShDec_answered_or_refused (B : Bytes) (s : State) :
    Answered (execSppShDec B s) ∨
      ∃ sh, sppShDec B = .ok sh ∧ ¬ KeysDiffer sh.otherFields ∧
        execSppShDec B s = .refused .repeatedKeyDecoded := by
  unfold execSppShDec
  cases sppShDec B with
  | error e => exact .inl (answered_fail s e)
  | ok sh =>
    by_cases hk : keysDistinct sh.otherFields = true
    · exact .inl (by simpa only [hk, if_true] using answered_ok s _)
    · exact .inr ⟨sh, rfl, mt keysDistinct_iff.2 hk, by simp only [hk]; rfl⟩

theorem exec_answered {i : Instr} (h : ∀ B, i ≠ .sppShDec B) (s : State) : Answered (exec i s) := by
  cases i
  case sppShDec B => exact absurd rfl (h B)
  case crcInit | crcUpdate | crcRead | crcCompute | tmGetMcid | tmGetGvcid => exact answered_ok ..
  case vcCreate v n => exact answered_vcCreate v n s
  case vcAddFrame v f => exact answered_vcAddFrame v f s
  case vcGetNextFrame v => exact answered_vcGetNextFrame v s
  case vcHasFrames v => exact answered_vcHasFrames v s
  case muxAddChannel v p => exact answered_muxAddChannel v p s
  case muxGetNextFrame => exact answered_muxGetNextFrame s
  all_goals exact answered_answer ..

/-- R74: what every next state of a command has in common. -/
theorem exec_next_responds {i : Instr} {s t : State} (h : exec i s = .next t) :
    ∃ r, t.response = some r ∧ t.input = s.input ∧ t.cfg = s.cfg := by
  rcases exec_cases h with ⟨r, rfl, -⟩ | ⟨c, r, rfl, -⟩ | ⟨v, n, -, -, -, rfl⟩ |
    ⟨v, f, -, -, -, rfl⟩ | ⟨v, f, q, -, -, -, rfl⟩ | ⟨v, p, -, -, rfl⟩ | ⟨v, p, f, q, -, -, -, rfl⟩
  all_goals exact ⟨_, rfl, rfl, rfl⟩

/-- Settles O52: every command but `SPP_SH_DEC` has a next state, and a buffer that one refuses was
decoded, so it is whole records (`sppShDec_inv`). -/
theorem everyCommandIsAnswered : Obligations.EveryCommandIsAnswered := by
  intro i s
  have answered (h : Answered (exec i s)) :
      ∃ t r, exec i s = .next t ∧ t.response = some r ∧ t.input = s.input ∧ t.cfg = s.cfg := by
    obtain ⟨t, ht⟩ := h
    obtain ⟨r, hr⟩ := exec_next_responds ht
    exact ⟨t, r, ht, hr⟩
  by_cases hi : ∃ B, i = .sppShDec B
  · obtain ⟨B, rfl⟩ := hi
    rcases sppShDec_answered_or_refused B s with h | ⟨sh, hdec, hkeys, href⟩
    · exact .inl (answered h)
    · obtain ⟨hstr, hB⟩ := sppShDec_inv hdec
      exact .inr ⟨be64 sh.timestamp, sh.otherFields, by rw [← hB], rfl, hstr, hkeys, href⟩
  · exact .inl (answered (exec_answered (fun B e => hi ⟨B, e⟩) s))

/-! ## Each channel is first in, first out -/

/-! ### What a command puts in and takes out -/

@[simp] theorem pushed_fail (v : Vcid) (i : Instr) (t : State) (e : ErrorStatus) :
    pushed v i (t.respond (.fail e)) = [] := by cases i <;> rfl

@[simp] theorem popped_fail (v : Vcid) (i : Instr) (t : State) (e : ErrorStatus) :
    popped v i (t.respond (.fail e)) = [] := by cases i <;> rfl

theorem pushed_vcAddFrame (v w : Vcid) (f : Frame) (t : State) (r : Result) :
    pushed v (.vcAddFrame w f) (t.respond (.ok r)) = if w = v then [f] else [] := rfl

theorem popped_vcGetNextFrame (v w : Vcid) (f : Frame) (t : State) :
    popped v (.vcGetNextFrame w) (t.respond (.ok (.frame f))) = if w = v then [f] else [] := rfl

/-- The multiplexer's cursor names the one channel it took the frame from. -/
theorem popped_muxGetNextFrame (v : Vcid) {w : Vcid} (f : Frame) {t : State}
    (h : t.muxOrder[t.muxLastUsed]? = some w) :
    popped v .muxGetNextFrame (t.respond (.ok (.frame f))) = if w = v then [f] else [] := by
  have hpop : popped v .muxGetNextFrame (t.respond (.ok (.frame f))) =
      if t.muxOrder[t.muxLastUsed]? = some v then [f] else [] := rfl
  simp only [hpop, h, Option.some.injEq]

theorem pushed_eq_nil {i : Instr} (h : ∀ w f, i ≠ .vcAddFrame w f) (v : Vcid) (t : State) :
    pushed v i t = [] := by
  unfold pushed
  split
  · exact absurd rfl (h _ _)
  · rfl

theorem popped_eq_nil {i : Instr} (hget : ∀ w, i ≠ .vcGetNextFrame w) (hmux : i ≠ .muxGetNextFrame)
    (v : Vcid) (t : State) : popped v i t = [] := by
  unfold popped
  split
  · exact absurd rfl (hget _)
  · exact absurd rfl hmux
  · rfl

/-! ### One command -/

theorem queue_setQueue_push (s : State) (v w : Vcid) (f : Frame) :
    (s.setQueue w (s.queue w ++ [f])).queue v = s.queue v ++ if w = v then [f] else [] := by
  by_cases h : w = v
  · subst h; simp
  · rw [setQueue_queue_ne s _ (Ne.symm h), if_neg h, List.append_nil]

theorem queue_setQueue_pop {s : State} {w : Vcid} {f : Frame} {q : List Frame}
    (hq : s.queue w = f :: q) (v : Vcid) :
    s.queue v = (if w = v then [f] else []) ++ (s.setQueue w q).queue v := by
  by_cases h : w = v
  · subst h; simp [hq]
  · rw [setQueue_queue_ne s _ (Ne.symm h), if_neg h, List.nil_append]

/-- `VC_CREATE` reaches free slots only, so a created one is another. -/
theorem slot_create_of_present {s : State} {v w : Vcid} (hv : (s.slot v).present = true)
    (hw : (s.slot w).present = false) (x : Slot) : (s.setSlot w x).slot v = s.slot v :=
  setSlot_slot_ne s x (by rintro rfl; simp [hv] at hw)

/-- No command removes a channel or changes its capacity. -/
theorem exec_keeps_channel {i : Instr} {s t : State} {v : Vcid} (h : exec i s = .next t)
    (hv : (s.slot v).present = true) :
    (t.slot v).present = true ∧ (t.slot v).max = (s.slot v).max := by
  have setQueue (w : Vcid) (q : List Frame) : ((s.setQueue w q).slot v).present = true ∧
      ((s.setQueue w q).slot v).max = (s.slot v).max :=
    ⟨(setQueue_present s w v q).trans hv, setQueue_max s w v q⟩
  rcases exec_cases h with ⟨r, rfl, -⟩ | ⟨c, r, rfl, -⟩ | ⟨w, n, -, hw, -, rfl⟩ |
    ⟨w, f, -, -, -, rfl⟩ | ⟨w, f, q, -, -, -, rfl⟩ | ⟨w, p, -, -, rfl⟩ | ⟨w, p, f, q, -, -, -, rfl⟩
  · exact ⟨hv, rfl⟩
  · exact ⟨hv, rfl⟩
  · rw [respond_slot, slot_create_of_present hv hw]; exact ⟨hv, rfl⟩
  · exact setQueue w _
  · exact setQueue w q
  · exact ⟨hv, rfl⟩
  · exact setQueue w q

/-- R62 for one command: frames are put in at the tail and taken out at the head. -/
theorem exec_queue_fifo {i : Instr} {s t : State} {v : Vcid} (h : exec i s = .next t)
    (hv : (s.slot v).present = true) :
    s.queue v ++ pushed v i t = popped v i t ++ t.queue v := by
  rcases exec_cases h with ⟨r, rfl, ⟨e, rfl⟩ | ⟨hadd, hget, hmux⟩⟩ | ⟨c, r, rfl, hi⟩ |
    ⟨w, n, rfl, hw, -, rfl⟩ | ⟨w, f, rfl, -, -, rfl⟩ | ⟨w, f, q, rfl, -, hq, rfl⟩ |
    ⟨w, p, rfl, -, rfl⟩ | ⟨w, p, f, q, rfl, hpos, hq, rfl⟩
  · simp
  · simp [pushed_eq_nil hadd, popped_eq_nil hget hmux]
  · have hqueue : State.queue { s with crc := c, response := some (.ok r) } v = s.queue v := rfl
    rcases hi with rfl | ⟨data, rfl⟩ | ⟨data, rfl⟩ <;>
      simp [pushed_eq_nil, popped_eq_nil, hqueue]
  · simp [pushed_eq_nil, popped_eq_nil, State.queue, slot_create_of_present hv hw]
  · rw [pushed_vcAddFrame, popped_eq_nil (by simp) (by simp), List.nil_append, respond_queue,
      queue_setQueue_push]
  · rw [popped_vcGetNextFrame, pushed_eq_nil (by simp), List.append_nil, respond_queue]
    exact queue_setQueue_pop hq v
  · simp [pushed_eq_nil, popped_eq_nil]
  · rw [popped_muxGetNextFrame v f hpos, pushed_eq_nil (by simp), List.append_nil]
    exact queue_setQueue_pop hq v

/-- Settles O35, by induction on the trace: what one command puts in and takes out
(`exec_queue_fifo`) joins what the rest of the sequence does. -/
theorem channelQueuesAreFirstInFirstOut : Obligations.ChannelQueuesAreFirstInFirstOut := by
  intro v is s u ins outs htrace hv
  induction htrace with
  | nil s => exact ⟨by simp, hv, rfl⟩
  | @cons i is s t u ins outs hexec _ ih =>
    obtain ⟨ht, hmax⟩ := exec_keeps_channel hexec hv
    obtain ⟨hrest, hu, humax⟩ := ih ht
    refine ⟨?_, hu, humax.trans hmax⟩
    calc s.queue v ++ (pushed v i t ++ ins)
        = popped v i t ++ (t.queue v ++ ins) := by
          rw [← List.append_assoc, exec_queue_fifo hexec hv, List.append_assoc]
      _ = popped v i t ++ outs ++ u.queue v := by rw [hrest, List.append_assoc]

end Sys2Proof.Machine
end

section
/-! Spec/30_encoding.md as theorems: decoding is the inverse of encoding wherever the opcode exists and
the operands have R73's types (R70, R72, R73), every other opcode is answered with `IllegalCommand`
(R75), and operands that cannot be on the port are refused (logs 2, 6, 7, 8). `decode_cases` says once
what `decode` can answer, and `decode_encode` and `decode_ok_of_types` when it answers a command. -/

namespace Sys2Proof.Machine

/-! ## What decoding can answer -/

/-- R72: the opcode is in the map, and in group 7 only where unit U5 is there. -/
abbrev OpcodeExists (cfg : Config) (op : Byte) : Prop :=
  op.toNat ∈ opcodeTable.map Prod.fst ∧ (cfg.hasSppPacket = true ∨ op.toNat < 0x70)

/-- What an answer of `decode` says of the command: a reserved opcode comes before any look at the
operands, and a command that is answered is the one that was put on the port. -/
abbrev DecodeAnswer (cfg : Config) (c : Command) (x : Except DecodeError Instr) : Prop :=
  (x = .error .reservedOpcode ∧ ¬ OpcodeExists cfg c.op) ∨
  OpcodeExists cfg c.op ∧ (x = .error .operandTypes ∨ ∃ i, x = .ok i ∧ encode i = c)

theorem decode_cases (cfg : Config) (c : Command) : DecodeAnswer cfg c (decode cfg c) := by
  obtain ⟨op, args⟩ := c
  unfold decode
  dsimp only
  split
  case h_33 => exact .inl ⟨rfl, fun ⟨hmem, _⟩ => by simp_all [opcodeTable]⟩
  case h_29 hop | h_30 hop | h_31 hop | h_32 hop =>
    obtain rfl := opcode_of_toNat hop
    split
    case isFalse hno => exact .inl ⟨rfl, fun ⟨_, h⟩ => by simp [hno] at h⟩
    case isTrue hyes =>
      refine .inr ⟨⟨by simp [opcodeTable], .inl hyes⟩, ?_⟩
      split
      · exact .inr ⟨_, rfl, rfl⟩
      · exact .inl rfl
  all_goals
    rename_i hop
    obtain rfl := opcode_of_toNat hop
    refine .inr ⟨⟨by simp [opcodeTable], .inr (by simp)⟩, ?_⟩
    split
    · exact .inr ⟨_, rfl, rfl⟩
    · exact .inl rfl

theorem decode_eq_reservedOpcode_iff {cfg : Config} {c : Command} :
    decode cfg c = .error .reservedOpcode ↔ ¬ OpcodeExists cfg c.op := by
  rcases decode_cases cfg c with ⟨hd, hno⟩ | ⟨hex, hd | ⟨i, hd, -⟩⟩
  · exact iff_of_true hd hno
  · exact iff_of_false (by simp [hd]) (not_not_intro hex)
  · exact iff_of_false (by simp [hd]) (not_not_intro hex)

theorem encode_of_decode {cfg : Config} {c : Command} {i : Instr} (h : decode cfg c = .ok i) :
    encode i = c := by
  rcases decode_cases cfg c with ⟨hd, -⟩ | ⟨-, hd | ⟨j, hd, henc⟩⟩
  · cases hd.symm.trans h
  · cases hd.symm.trans h
  · cases hd.symm.trans h
    exact henc

theorem operands_of_decode {cfg : Config} {c : Command} {i : Instr} (h : decode cfg c = .ok i) :
    operands i = c.args := congrArg Command.args (encode_of_decode h)

/-- Every opcode of the map is some command's: that of its zero operand tuple (log 2). -/
theorem exists_opcode_eq {op : Byte} (h : op.toNat ∈ opcodeTable.map Prod.fst) :
    ∃ i, opcode i = op := by
  have decodes : ∀ op : Byte, op.toNat ∈ opcodeTable.map Prod.fst →
      (decode Config.default (zeroCommand op)).isOk := by decide +kernel
  have hok := decodes op h
  cases hd : decode Config.default (zeroCommand op) with
  | error e => simp [hd, Except.isOk, Except.toBool] at hok
  | ok i => exact ⟨i, congrArg Command.op (encode_of_decode hd)⟩

/-! ## Operand tuples of the right types -/

/-- R73: a command is put on the port with the operand types of its opcode's row. -/
theorem operands_types (i : Instr) : (operands i).map typeOf = operandTypes (opcode i) := by
  cases i <;> rfl

section
variable {α : Type} {C : α → Operand} {t : OperandType}

/-- The first operand of a tuple is built by the constructor of the first type. -/
theorem types_cons_of (hC : ∀ {a}, typeOf a = t → ∃ x, a = C x) {args : List Operand}
    {ts : List OperandType} (h : args.map typeOf = t :: ts) :
    ∃ x rest, args = C x :: rest ∧ rest.map typeOf = ts := by
  obtain ⟨a, rest, rfl, ha, hrest⟩ := types_cons h
  obtain ⟨x, rfl⟩ := hC ha
  exact ⟨x, rest, rfl, hrest⟩

theorem types_singleton_of (hC : ∀ {a}, typeOf a = t → ∃ x, a = C x) {args : List Operand}
    (h : args.map typeOf = [t]) : ∃ x, args = [C x] := by
  obtain ⟨x, rest, rfl, hrest⟩ := types_cons_of hC h
  exact ⟨x, by rw [types_nil hrest]⟩

end

/-! ## Decode and encode -/

theorem decode_encode {cfg : Config} {i : Instr}
    (h : cfg.hasSppPacket = true ∨ (opcode i).toNat < 0x70) : decode cfg (encode i) = .ok i := by
  cases i
  case sppPktNew | sppPktEncode | sppPktDecode | sppPktValidate =>
    exact if_pos (h.resolve_right (by simp [opcode]))
  all_goals rfl

/-- R73: any tuple of the types of a command's operands decodes under the command's opcode: with its
types, the tuple's form is the one that opcode's row of `decode` asks for. -/
theorem decode_ok_of_types {cfg : Config} {i : Instr} {args : List Operand}
    (hex : cfg.hasSppPacket = true ∨ (opcode i).toNat < 0x70)
    (h : args.map typeOf = (operands i).map typeOf) :
    ∃ j, decode cfg { op := opcode i, args := args } = .ok j := by
  cases i
  case crcInit | crcRead | muxGetNextFrame =>
    obtain rfl := types_nil h
    exact ⟨_, rfl⟩
  case crcUpdate | crcCompute | sppPhDec | sppShDec | tmPhDec | tmShDec | tmfDecode =>
    obtain ⟨B, rfl⟩ := types_singleton_of typeOf_bytes h
    exact ⟨_, rfl⟩
  case sppPhEnc | sppPhValidate =>
    obtain ⟨ph, rfl⟩ := types_singleton_of typeOf_sppPh h
    exact ⟨_, rfl⟩
  case sppShEnc | sppShValidate =>
    obtain ⟨sh, rfl⟩ := types_singleton_of typeOf_sppSh h
    exact ⟨_, rfl⟩
  case tmPhEnc | tmPhValidate | tmGetMcid | tmGetGvcid =>
    obtain ⟨ph, rfl⟩ := types_singleton_of typeOf_tmPh h
    exact ⟨_, rfl⟩
  case tmShEnc | tmShValidate =>
    obtain ⟨sh, rfl⟩ := types_singleton_of typeOf_tmSh h
    exact ⟨_, rfl⟩
  case tmfEncode | tmfEncodeNofec =>
    obtain ⟨f, rfl⟩ := types_singleton_of typeOf_frame h
    exact ⟨_, rfl⟩
  case vcGetNextFrame | vcHasFrames =>
    obtain ⟨v, rfl⟩ := types_singleton_of typeOf_vcid h
    exact ⟨_, rfl⟩
  case tmfNew =>
    obtain ⟨scid, _, rfl, h1⟩ := types_cons_of typeOf_u16 h
    obtain ⟨vcid, _, rfl, h2⟩ := types_cons_of typeOf_u8 h1
    obtain ⟨data, _, rfl, h3⟩ := types_cons_of typeOf_bytes h2
    obtain ⟨shBytes, _, rfl, h4⟩ := types_cons_of typeOf_bytes h3
    obtain ⟨ocf, _, rfl, h5⟩ := types_cons_of typeOf_ocf h4
    obtain ⟨sync, rfl⟩ := types_singleton_of typeOf_bool h5
    exact ⟨_, rfl⟩
  case vcCreate =>
    obtain ⟨v, _, rfl, h1⟩ := types_cons_of typeOf_vcid h
    obtain ⟨n, rfl⟩ := types_singleton_of typeOf_nat h1
    exact ⟨_, rfl⟩
  case vcAddFrame =>
    obtain ⟨v, _, rfl, h1⟩ := types_cons_of typeOf_vcid h
    obtain ⟨f, rfl⟩ := types_singleton_of typeOf_frame h1
    exact ⟨_, rfl⟩
  case muxAddChannel =>
    obtain ⟨v, _, rfl, h1⟩ := types_cons_of typeOf_vcid h
    obtain ⟨w, rfl⟩ := types_singleton_of typeOf_prio h1
    exact ⟨_, rfl⟩
  case sppPktNew =>
    obtain ⟨apid, _, rfl, h1⟩ := types_cons_of typeOf_u16 h
    obtain ⟨type, _, rfl, h2⟩ := types_cons_of typeOf_u8 h1
    obtain ⟨data, _, rfl, h3⟩ := types_cons_of typeOf_bytes h2
    obtain ⟨os, rfl⟩ := types_singleton_of typeOf_options h3
    exact ⟨_, if_pos (hex.resolve_right (by simp [opcode]))⟩
  case sppPktDecode =>
    obtain ⟨B, rfl⟩ := types_singleton_of typeOf_bytes h
    exact ⟨_, if_pos (hex.resolve_right (by simp [opcode]))⟩
  case sppPktEncode | sppPktValidate =>
    obtain ⟨p, rfl⟩ := types_singleton_of typeOf_packet h
    exact ⟨_, if_pos (hex.resolve_right (by simp [opcode]))⟩

theorem decode_ok_iff_types {cfg : Config} {c : Command} (hex : OpcodeExists cfg c.op) :
    c.args.map typeOf = operandTypes c.op ↔ ∃ i, decode cfg c = .ok i := by
  constructor
  · intro htypes
    obtain ⟨op, args⟩ := c
    obtain ⟨hmem, hunit⟩ := hex
    obtain ⟨i, rfl⟩ := exists_opcode_eq hmem
    exact decode_ok_of_types hunit (htypes.trans (operands_types i).symm)
  · rintro ⟨i, hd⟩
    rw [← encode_of_decode hd]
    exact operands_types i

/-- Settles O57: the round trip is `decode_encode`, its converse `encode_of_decode`, and the operand
types are `decode_ok_iff_types`, an opcode that is not reserved being one that exists. -/
theorem decodeAndEncodeAgree : Obligations.DecodeAndEncodeAgree :=
  ⟨fun _ _ h => decode_encode h, fun _ _ _ h => encode_of_decode h, fun _ _ hne =>
    decode_ok_iff_types (not_not.1 (mt decode_eq_reservedOpcode_iff.2 hne))⟩

/-- Settles O58: each of the commands written out is one as `encode` puts it on the port. -/
theorem opcodesDecodeAsTheTableSays : Obligations.OpcodesDecodeAsTheTableSays :=
  ⟨decode_encode (i := .crcUpdate _) (.inl rfl), decode_encode (i := .sppPhDec _) (.inl rfl),
    decode_encode (i := .tmShDec _) (.inl rfl), decode_encode (i := .tmfNew ..) (.inl rfl),
    decode_encode (i := .vcCreate ..) (.inl rfl), decode_encode (i := .muxAddChannel ..) (.inl rfl),
    decode_encode (i := .sppPktDecode _) (.inl rfl)⟩

/-! ## Reserved opcodes -/

/-- R75: the opcode is outside R72's table, as the statement writes the table out. -/
def isReserved (packets : Bool) (op : Byte) : Bool :=
  !([0x10, 0x11, 0x12, 0x13, 0x20, 0x21, 0x22, 0x24, 0x25, 0x26, 0x30, 0x31, 0x32, 0x33, 0x34,
     0x35, 0x36, 0x37, 0x40, 0x41, 0x42, 0x43, 0x50, 0x51, 0x52, 0x53, 0x60, 0x61].contains op)
  && !(packets && [0x70, 0x71, 0x72, 0x73].contains op)

/-- R75: the reserved opcodes in their order. -/
def reservedOpcodes (packets : Bool) : List Byte :=
  ((List.range 256).map (BitVec.ofNat 8)).filter (isReserved packets)

theorem reservedOpcodes_length (packets : Bool) :
    (reservedOpcodes packets).length = if packets then 224 else 228 := by
  cases packets <;> decide +kernel

theorem isReserved_iff (cfg : Config) (op : Byte) :
    isReserved cfg.hasSppPacket op = true ↔ ¬ OpcodeExists cfg op := by
  have outside : ∀ (packets : Bool) (op : Byte), isReserved packets op = true ↔
      ¬ (op.toNat ∈ opcodeTable.map Prod.fst ∧ (packets = true ∨ op.toNat < 0x70)) := by decide +kernel
  exact outside cfg.hasSppPacket op

theorem mem_reservedOpcodes_iff {cfg : Config} {op : Byte} :
    op ∈ reservedOpcodes cfg.hasSppPacket ↔ ¬ OpcodeExists cfg op := by
  have hmem : op ∈ (List.range 256).map (BitVec.ofNat 8) :=
    List.mem_map.2 ⟨op.toNat, List.mem_range.2 op.isLt, by simp⟩
  simp only [reservedOpcodes, List.mem_filter, hmem, true_and, isReserved_iff]

theorem step_of_reservedOpcode {s : State} {c : Command} {rest : List PortEvent}
    (hin : s.input = .command c :: rest) (hd : decode s.cfg c = .error .reservedOpcode) :
    step s = .next ({ s with input := rest }.respond (.fail .illegalCommand)) := by
  simp only [step, fetch_of_input_command hin, State.takeCommand, hd]

/-- Settles O55: the opcodes the statement lists are those that do not exist, `decode` reserves exactly
those, and the step answers them before it looks at the operands. -/
theorem reservedOpcodesAreIllegalCommands : Obligations.ReservedOpcodesAreIllegalCommands := by
  intro s R hR
  obtain rfl : R = reservedOpcodes s.cfg.hasSppPacket := hR
  refine ⟨reservedOpcodes_length _, fun op args rest hin => ?_⟩
  have hreserved : op ∈ reservedOpcodes s.cfg.hasSppPacket ↔
      decode s.cfg { op := op, args := args } = .error .reservedOpcode :=
    mem_reservedOpcodes_iff.trans
      (decode_eq_reservedOpcode_iff (c := { op := op, args := args })).symm
  exact ⟨hreserved, fun hop => step_of_reservedOpcode hin (hreserved.1 hop)⟩

/-! ## Operands that cannot be on the port -/

theorem step_of_operandTypes {s : State} {c : Command} {rest : List PortEvent}
    (hin : s.input = .command c :: rest) (hd : decode s.cfg c = .error .operandTypes) :
    step s = .refused .operandTypes := by
  simp only [step, fetch_of_input_command hin, State.takeCommand, hd]

theorem step_of_offPort {s : State} {c : Command} {rest : List PortEvent} {i : Instr}
    {why : OffPort} (hin : s.input = .command c :: rest) (hd : decode s.cfg c = .ok i)
    (hoff : offPort s.cfg i = some why) : step s = .refused (.offPort why) := by
  simp only [step, fetch_of_input_command hin, State.takeCommand, hd, hoff]

section
variable {cfg : Config} {i : Instr}

theorem offPort_of_not_bytesFit {B : Bytes} (hB : .bytes B ∈ operands i) (hno : ¬ BytesFit cfg B) :
    offPort cfg i = some .byteStringTooLong := by
  rcases offPort_cases cfg i with ⟨hfit, -⟩ | ⟨-, -, hoff⟩ | ⟨-, hnone, -⟩
  · exact absurd (hfit B hB) hno
  · exact hoff
  · exact absurd hB (hnone B)

theorem offPort_of_not_weightFits {w : Int} (hw : .prio w ∈ operands i)
    (hno : ¬ WeightFits cfg w) : offPort cfg i = some .priorityRange := by
  rcases offPort_cases cfg i with ⟨-, hfit, -⟩ | ⟨-, hnone, -⟩ | ⟨-, -, -, hoff⟩
  · exact absurd (hfit w hw) hno
  · exact absurd hw (hnone w)
  · exact hoff

/-- With byte strings that fit, the check of the headers decides; a command that carries a header
carries no weight. -/
theorem headersChecked_of_bytesFit (hfit : ∀ B, .bytes B ∈ operands i → BytesFit cfg B)
    {sh : SppSecondaryHeader} (hsh : sh ∈ (operands i).flatMap sppShInside) :
    HeadersChecked ((operands i).flatMap sppShInside) (offPort cfg i) := by
  rcases offPort_cases cfg i with ⟨-, -, hcheck⟩ | ⟨⟨B, hB, hno⟩, -⟩ | ⟨-, -, hnil, -⟩
  · exact hcheck
  · exact absurd (hfit B hB) hno
  · exact absurd (hnil ▸ hsh) List.not_mem_nil

theorem wellFormed_of_fit (hbytes : ∀ B, .bytes B ∈ operands i → BytesFit cfg B)
    (hweights : ∀ w, .prio w ∈ operands i → WeightFits cfg w)
    (hheaders : ∀ sh ∈ (operands i).flatMap sppShInside,
      StringsFit sh ∧ KeysDiffer sh.otherFields) : i.wellFormed cfg := by
  rcases offPort_cases cfg i with
    ⟨-, -, ⟨hoff, -⟩ | ⟨-, sh, hsh, hno⟩ | ⟨-, sh, hsh, -, hno⟩⟩ | ⟨⟨B, hB, hno⟩, -⟩ |
    ⟨⟨w, hw, hno⟩, -⟩
  · exact hoff
  · exact absurd (hheaders sh hsh).1 hno
  · exact absurd (hheaders sh hsh).2 hno
  · exact absurd (hbytes B hB) hno
  · exact absurd (hweights w hw) hno

end

section
variable {L : List SppSecondaryHeader} {x : Option OffPort} {sh : SppSecondaryHeader}

theorem HeadersChecked.eq_stringTooLong (h : HeadersChecked L x) (hsh : sh ∈ L)
    (hno : ¬ StringsFit sh) (hkeys : ∀ y ∈ L, StringsFit y → KeysDiffer y.otherFields) :
    x = some .stringTooLong := by
  rcases h with ⟨-, hall⟩ | ⟨hx, -⟩ | ⟨-, y, hy, hstr, hrep⟩
  · exact absurd (hall sh hsh).1 hno
  · exact hx
  · exact absurd (hkeys y hy hstr) hrep

theorem HeadersChecked.eq_repeatedKey (h : HeadersChecked L x) (hsh : sh ∈ L)
    (hno : ¬ KeysDiffer sh.otherFields) (hstr : ∀ y ∈ L, StringsFit y) :
    x = some .repeatedKey := by
  rcases h with ⟨-, hall⟩ | ⟨-, y, hy, hlong⟩ | ⟨hx, -⟩
  · exact absurd (hall sh hsh).2 hno
  · exact absurd (hstr y hy) hlong
  · exact hx

theorem HeadersChecked.eq_either (h : HeadersChecked L x) (hsh : sh ∈ L)
    (hno : ¬ (StringsFit sh ∧ KeysDiffer sh.otherFields)) :
    x = some .stringTooLong ∨ x = some .repeatedKey := by
  rcases h with ⟨-, hall⟩ | ⟨hx, -⟩ | ⟨hx, -⟩
  · exact absurd (hall sh hsh) hno
  · exact .inl hx
  · exact .inr hx

end

/-- Settles O59: the operands on the port are those of the decoded command, `offPort` names what is
wrong with them, and the step refuses the command by that name or, with nothing wrong, runs it. -/
theorem operandsThatCannotBeOnThePortAreRefused :
    Obligations.OperandsThatCannotBeOnThePortAreRefused := by
  intro s c rest hin
  refine ⟨step_of_operandTypes hin, fun i hd => ?_⟩
  have refuse {why} (hoff : offPort s.cfg i = some why) : step s = .refused (.offPort why) :=
    step_of_offPort hin hd hoff
  rw [← operands_of_decode hd]
  refine ⟨fun B hB hno => refuse (offPort_of_not_bytesFit hB hno),
    fun w hw hno => refuse (offPort_of_not_weightFits hw hno), fun hfit => ⟨?_, ?_, ?_⟩,
    fun hbytes hweights hheaders => ?_⟩
  · intro sh hsh hno hkeys
    exact refuse ((headersChecked_of_bytesFit hfit hsh).eq_stringTooLong hsh hno hkeys)
  · intro sh hsh hno hstr
    exact refuse ((headersChecked_of_bytesFit hfit hsh).eq_repeatedKey hsh hno hstr)
  · intro sh hsh hno
    exact ((headersChecked_of_bytesFit hfit hsh).eq_either hsh hno).imp refuse refuse
  · have hwf := wellFormed_of_fit hbytes hweights hheaders
    exact ⟨hwf, stepRunsTheDecodedCommand s c rest i hin hd hwf⟩

end Sys2Proof.Machine
end

section
/-! Spec/40_crc.md as theorems: the register rule on natural numbers (R110, R111), the five arithmetic
laws (R116) and the four commands (R112 to R115). An octet is processed by putting it into the high
octet of the register and iterating `crcShift` eight times; each law is a fact about the putting in and
a fact about one iteration, carried along the eight by the library's lemmas on iterates. -/

namespace Sys2Proof.Machine

/-! ## One iteration, and the octet put in -/

theorem crcShift_of_msb {r : Word16} (h : r.msb = true) : crcShift r = (r <<< 1) ^^^ 0x1021 :=
  if_pos h

theorem crcShift_of_not_msb {r : Word16} (h : r.msb = false) : crcShift r = r <<< 1 :=
  if_neg (Bool.eq_false_iff.1 h)

/-- R110: the register with the octet put into its bits 15:8, before the first iteration. -/
def putOctet (c : Word16) (b : Byte) : Word16 := c ^^^ (b.setWidth 16 <<< 8)

theorem crc16Step_eq_iterate (c : Word16) (b : Byte) :
    crc16Step c b = crcShift^[8] (putOctet c b) := rfl

/-! ## The register rule on natural numbers -/

/-- R110: one iteration as the spec writes it, on an unbounded integer with the bit shifted out masked
away. -/
def registerRule (r : Nat) : Nat :=
  if r.testBit 15 then ((r <<< 1) &&& 0xFFFF) ^^^ 0x1021 else (r <<< 1) &&& 0xFFFF

theorem toNat_shiftLeft_one (r : Word16) : (r <<< 1).toNat = (r.toNat <<< 1) &&& 0xFFFF := by
  rw [BitVec.toNat_shiftLeft]
  exact (Nat.and_two_pow_sub_one_eq_mod _ 16).symm

theorem toNat_crcShift (r : Word16) : (crcShift r).toNat = registerRule r.toNat := by
  have hbit : r.toNat.testBit 15 = r.msb := by
    rw [BitVec.msb_eq_getLsbD_last, BitVec.getLsbD]
  cases hm : r.msb with
  | true =>
    rw [crcShift_of_msb hm, BitVec.toNat_xor, toNat_shiftLeft_one, registerRule, hbit, if_pos hm]
    rfl
  | false =>
    rw [crcShift_of_not_msb hm, toNat_shiftLeft_one, registerRule, hbit,
      if_neg (Bool.eq_false_iff.1 hm)]

theorem toNat_putOctet (c : Word16) (b : Byte) :
    (putOctet c b).toNat = c.toNat ^^^ (b.toNat <<< 8) := by
  have hfit : b.toNat <<< 8 < 2 ^ 16 := by
    rw [Nat.shiftLeft_eq]; omega
  rw [putOctet, BitVec.toNat_xor, BitVec.toNat_shiftLeft,
    BitVec.toNat_setWidth_of_le (by decide : 8 ≤ 16), Nat.mod_eq_of_lt hfit]

theorem toNat_crc16Step (c : Word16) (b : Byte) :
    (crc16Step c b).toNat = registerRule^[8] (c.toNat ^^^ (b.toNat <<< 8)) := by
  have hsemi : Function.Semiconj BitVec.toNat crcShift registerRule := toNat_crcShift
  rw [crc16Step_eq_iterate, ← toNat_putOctet]
  exact hsemi.iterate_right 8 _

/-- Settles O5: `toNat` carries one iteration to one use of the register rule, hence eight to eight; the
fold's equations are those of its definition, and the last clause is R110's worked example. -/
theorem crcStepFollowsRegisterRule : Obligations.CrcStepFollowsRegisterRule :=
  ⟨toNat_crc16Step, fun _ => rfl, fun _ _ _ => rfl, fun _ => rfl, by decide⟩

/-! ## Laws (b) and (c): the fold over a concatenation, and linearity -/

theorem crc16From_append (c : Word16) (A B : Bytes) :
    crc16From c (A ++ B) = crc16From (crc16From c A) B :=
  List.foldl_append

theorem putOctet_xor (c₁ c₂ : Word16) (b₁ b₂ : Byte) :
    putOctet (c₁ ^^^ c₂) (b₁ ^^^ b₂) = putOctet c₁ b₁ ^^^ putOctet c₂ b₂ := by
  simp only [putOctet, BitVec.setWidth_xor, BitVec.shiftLeft_xor_distrib]
  ac_rfl

theorem crc16Step_xor (c₁ c₂ : Word16) (b₁ b₂ : Byte) :
    crc16Step (c₁ ^^^ c₂) (b₁ ^^^ b₂) = crc16Step c₁ b₁ ^^^ crc16Step c₂ b₂ := by
  have hlinear : Function.Semiconj₂ crcShift (· ^^^ ·) (· ^^^ ·) := crcShift_xor
  simp only [crc16Step_eq_iterate, putOctet_xor]
  exact hlinear.iterate 8 _ _

/-! ## Law (d): no two registers, and no two octets, lead to the same register -/

theorem crc16Step_bijective (b : Byte) : Function.Bijective fun c => crc16Step c b :=
  Finite.injective_iff_bijective.1 fun _ _ h => xor_right_cancel (crc16Step_cancel h)

theorem putOctet_injective (c : Word16) : Function.Injective (putOctet c) := by
  intro x y h
  have hnat := congrArg BitVec.toNat h
  rw [toNat_putOctet, toNat_putOctet, Nat.xor_right_inj, Nat.shiftLeft_eq, Nat.shiftLeft_eq] at hnat
  exact BitVec.eq_of_toNat_eq (Nat.eq_of_mul_eq_mul_right (by decide) hnat)

theorem crc16Step_injective (c : Word16) : Function.Injective (crc16Step c) :=
  fun _ _ h => putOctet_injective c (crc16Step_cancel h)

/-- The octet at one place is recovered from the code and the octets at the other places. -/
theorem crc16_octet_injective (P S : Bytes) : Function.Injective fun b => crc16 (P ++ b :: S) := by
  intro x y h
  simp only [crc16, crc16From_append] at h
  exact crc16Step_injective _ (crc16From_cancel h)

theorem xor_single_bit_ne (b : Byte) {k : Nat} (hk : k < 8) : b ^^^ (1#8 <<< k) ≠ b := by
  intro h
  have hbit := congrArg (·.getLsbD k) h
  simp [hk] at hbit

/-! ## Law (e): the residue -/

/-- As long as no bit set in the register reaches its top, the iterations only shift. -/
theorem crcShift_iterate_eq_shiftLeft {r : Word16} {n : Nat} (h : r.toNat * 2 ^ n < 2 ^ 16) :
    crcShift^[n] r = r <<< n := by
  induction n generalizing r with
  | zero => simp
  | succ n ih =>
    have hdouble : r.toNat * 2 < 2 ^ 16 :=
      lt_of_le_of_lt (Nat.mul_le_mul_left _ (Nat.le_pow (Nat.succ_pos n))) h
    have hshift : (r <<< 1).toNat = r.toNat * 2 := by
      rw [BitVec.toNat_shiftLeft, Nat.shiftLeft_eq, pow_one, Nat.mod_eq_of_lt hdouble]
    have hmsb : r.msb = false := BitVec.msb_eq_false_iff_two_mul_lt.2 (by omega)
    rw [Function.iterate_succ_apply, crcShift_of_not_msb hmsb, ih, ← BitVec.shiftLeft_add, add_comm]
    rwa [hshift, mul_assoc, ← pow_succ']

theorem putOctet_word16_high (hi lo : Byte) : putOctet (word16 hi lo) hi = lo.setWidth 16 := by
  refine BitVec.eq_of_getLsbD_eq fun i hlt => ?_
  simp only [putOctet, word16, BitVec.getLsbD_xor, BitVec.getLsbD_append, BitVec.getLsbD_shiftLeft,
    BitVec.getLsbD_setWidth]
  by_cases h : i < 8
  · simp [h, hlt]
  · have hlo : lo.getLsbD i = false := BitVec.getLsbD_of_ge lo i (Nat.le_of_not_lt h)
    have hlt' : i - 8 < 16 := by omega
    simp [h, hlt, hlt', hlo]

/-- The register's own high octet cancels in it and leaves the low octet, which moves up. -/
theorem crc16Step_high (hi lo : Byte) : crc16Step (word16 hi lo) hi = lo.setWidth 16 <<< 8 := by
  have hlow : (lo.setWidth 16).toNat = lo.toNat := BitVec.toNat_setWidth_of_le (by decide)
  rw [crc16Step_eq_iterate, putOctet_word16_high]
  exact crcShift_iterate_eq_shiftLeft (by omega)

theorem crc16Step_low (lo : Byte) : crc16Step (lo.setWidth 16 <<< 8) lo = 0 := by
  rw [crc16Step_eq_iterate, putOctet, BitVec.xor_self]
  exact crcShift_iterate_eq_shiftLeft (by decide)

theorem crc16From_be16_self (c : Word16) : crc16From c (be16 c) = 0 := by
  have hstep (hi lo : Byte) : crc16From (word16 hi lo) [hi, lo] = 0 :=
    (congrArg (crc16Step · lo) (crc16Step_high hi lo)).trans (crc16Step_low lo)
  have h := hstep (c.extractLsb' 8 8) (c.extractLsb' 0 8)
  rwa [word16_be16] at h

/-- Settles O6: the laws of R116 in their order; a flipped bit changes the octet it is in, and the octet
is recovered from the code. -/
theorem crcArithmeticLaws : Obligations.CrcArithmeticLaws := by
  refine ⟨rfl, crc16From_append, crc16Step_xor, ⟨crc16Step_bijective, crc16Step_injective, ?_⟩, ?_⟩
  · intro P S b k hk heq
    exact xor_single_bit_ne b hk (crc16_octet_injective P S heq).symm
  · intro D
    exact (crc16From_append _ D _).trans (crc16From_be16_self _)

/-! ## The four commands -/

theorem exec_crcUpdate (data : Bytes) (s : State) :
    exec (.crcUpdate data) s =
      .next { s with crc := crc16From s.crc data, response := some (.ok .unit) } := rfl

/-- Settles O1: the command has one path. -/
theorem crcInitLoadsAllOnes : Obligations.CrcInitLoadsAllOnes := fun _ => rfl

/-- Settles O2: every clause is `exec_crcUpdate`, and the last is the fold over a concatenation. -/
theorem crcUpdateContinuesFromRegister : Obligations.CrcUpdateContinuesFromRegister := by
  intro s A B b
  refine ⟨exec_crcUpdate A s, exec_crcUpdate [] s, exec_crcUpdate [b] s, fun t ht => ?_⟩
  rw [exec_crcUpdate, Host.Outcome.next.injEq] at ht
  rw [← ht, exec_crcUpdate, exec_crcUpdate, crc16From_append]

/-- Settles O3: the command has one path. -/
theorem crcReadReturnsRegister : Obligations.CrcReadReturnsRegister := fun _ => rfl

/-- Settles O4: the three commands by what each does, in a row. -/
theorem crcComputeIsInitUpdateRead : Obligations.CrcComputeIsInitUpdateRead :=
  fun s data => ⟨_, _, _, crcInitLoadsAllOnes s, exec_crcUpdate data _, crcReadReturnsRegister _,
    rfl, rfl⟩

end Sys2Proof.Machine
end

section
/-! Spec/41_spp_header_codec.md as theorems: each command of the codec by what it answers, and from
that the layouts, the faults in their order and the round trips. The bits of the primary header and
the field records of the secondary header have their laws in Sys2Proof/Laws/; this part carries them
through the commands. -/

namespace Sys2Proof.Machine

/-! ## Primary header: what the commands answer -/

theorem exec_sppPhEnc_of_inRange {h : SppPrimaryHeader} (r : SppPhInRange h) (s : State) :
    exec (.sppPhEnc h) s = .next (s.respond (.ok (.bytes (sppPhPack h)))) :=
  answer_ok ((sppPhEnc_cases h).resolve_right fun hbad => hbad.1 r).2

theorem exec_sppPhEnc_of_not_inRange {h : SppPrimaryHeader} (r : ¬ SppPhInRange h) (s : State) :
    exec (.sppPhEnc h) s = .next (s.respond (.fail .validationError)) :=
  answer_error ((sppPhEnc_cases h).resolve_left fun hgood => r hgood.1).2

theorem exec_sppPhDec_six (b0 b1 b2 b3 b4 b5 : Byte) (rest : Bytes) (s : State) :
    exec (.sppPhDec (b0 :: b1 :: b2 :: b3 :: b4 :: b5 :: rest)) s =
      .next (s.respond (.ok (.sppPh (sppPhUnpack b0 b1 b2 b3 b4 b5)))) :=
  answer_ok (sppPhDec_six b0 b1 b2 b3 b4 b5 rest)

theorem exec_sppPhDec_pack {h : SppPrimaryHeader} (r : SppPhInRange h) (s : State) :
    exec (.sppPhDec (sppPhPack h)) s = .next (s.respond (.ok (.sppPh h))) :=
  answer_ok (by simpa using sppPhDec_pack r [])

/-! ## Primary header: the statements -/

/-- Settles O11: a header in range is what its own packing decodes to, and six octets are what the
header they unpack to, always in range, packs to. -/
theorem sppPhRoundTrip : Obligations.SppPhRoundTrip := by
  refine ⟨fun h s r => ⟨_, exec_sppPhEnc_of_inRange r s, exec_sppPhDec_pack r s⟩, fun B s hB => ?_⟩
  match B, hB with
  | [b0, b1, b2, b3, b4, b5], _ =>
    refine ⟨_, exec_sppPhDec_six b0 b1 b2 b3 b4 b5 [] s, ?_⟩
    rw [exec_sppPhEnc_of_inRange (sppPhUnpack_inRange b0 b1 b2 b3 b4 b5), sppPhPack_unpack]

/-- Settles O9: the octets are those of `sppPhPack_word`. -/
theorem sppPhEncodeLaysOutFields : Obligations.SppPhEncodeLaysOutFields := by
  refine fun h s => ⟨rfl, fun r => ?_, fun r => exec_sppPhEnc_of_not_inRange r s⟩
  obtain ⟨b0, b1, b2, b3, b4, b5, hpack, hword⟩ := sppPhPack_word r
  exact ⟨b0, b1, b2, b3, b4, b5, hpack ▸ exec_sppPhEnc_of_inRange r s, hword⟩

/-- Settles O10: unpacking is always in range and keeps the 48 bits. -/
theorem sppPhDecodeReadsFirstSixOctets : Obligations.SppPhDecodeReadsFirstSixOctets :=
  ⟨fun b0 b1 b2 b3 b4 b5 rest s => ⟨_, exec_sppPhDec_six b0 b1 b2 b3 b4 b5 rest s,
    sppPhUnpack_inRange .., sppPhUnpack_word ..⟩, fun _ _ hB => answer_error (sppPhDec_short hB)⟩

/-- Settles O8: the model's test is the six ranges (`sppPhValid_iff`). -/
theorem sppPhValidateTestsSixRanges : Obligations.SppPhValidateTestsSixRanges := fun _ _ =>
  ⟨rfl, fun r => answer_ok (if_pos (sppPhValid_iff.2 r)),
    fun r => answer_error (if_neg (mt sppPhValid_iff.1 r))⟩

/-! ## Secondary header: the timestamp and the length -/

theorem exists_be64_eq {T : Bytes} (hT : T.length = 8) : ∃ ts, be64 ts = T := by
  match T, hT with
  | [a, b, c, d, e, f, g, h], _ => exact ⟨_, be64_word64 a b c d e f g h⟩

theorem fieldRecords_length (fs : List SppField) :
    (fs.flatMap fieldOctets).length = (fs.map fun f => 5 + f.key.length + f.value.length).sum := by
  rw [List.length_flatMap]
  exact congrArg List.sum (List.map_congr_left fun f _ => fieldOctets_length f)

theorem sppShDec_short {B : Bytes} (hB : B.length < 8) : sppShDec B = .error .malformedHeader := by
  rw [sppShDec, readU64_short hB]

/-! ## Secondary header: what the commands answer -/

theorem exec_sppShEnc_of_tags {sh : SppSecondaryHeader} (htags : ∀ f ∈ sh.otherFields, f.tag = 1)
    (s : State) :
    exec (.sppShEnc sh) s =
      .next (s.respond (.ok (.bytes (be64 sh.timestamp ++ sh.otherFields.flatMap fieldOctets)))) :=
  answer_ok ((sppShEnc_cases sh).resolve_right fun ⟨⟨f, hf, hbad⟩, _⟩ => hbad (htags f hf)).2

theorem exec_sppShEnc_of_bad_tag {sh : SppSecondaryHeader} (hbad : ∃ f ∈ sh.otherFields, f.tag ≠ 1)
    (s : State) :
    exec (.sppShEnc sh) s = .next (s.respond (.fail .unsupportedFieldType)) := by
  obtain ⟨f, hf, htag⟩ := hbad
  exact answer_error ((sppShEnc_cases sh).resolve_left fun hgood => htag (hgood.1 f hf)).2

theorem exec_sppShDec_of_error {B : Bytes} {e : ErrorStatus} (h : sppShDec B = .error e)
    (s : State) :
    exec (.sppShDec B) s = .next (s.respond (.fail e)) := by
  refine (execSppShDec_eq_reply B s).trans ?_
  simp only [sppShDecReply, h, State.reply]

theorem exec_sppShDec_of_ok {B : Bytes} {sh : SppSecondaryHeader} (h : sppShDec B = .ok sh)
    (s : State) :
    exec (.sppShDec B) s = if KeysDiffer sh.otherFields then .next (s.respond (.ok (.sppSh sh)))
      else .refused .repeatedKeyDecoded := by
  refine (execSppShDec_eq_reply B s).trans ?_
  simp only [sppShDecReply, h, keysDistinct_iff]
  split <;> rfl

/-- A header `SPP_SH_DEC` answers with is one its pseudocode computed. -/
theorem sppShDec_of_exec_ok {B : Bytes} {sh : SppSecondaryHeader} {s : State}
    (h : exec (.sppShDec B) s = .next (s.respond (.ok (.sppSh sh)))) : sppShDec B = .ok sh := by
  cases hdec : sppShDec B with
  | error e =>
    rw [exec_sppShDec_of_error hdec, Host.Outcome.next.injEq] at h
    simpa using congrArg State.response h
  | ok sh' =>
    rw [exec_sppShDec_of_ok hdec] at h
    split at h
    · rw [Host.Outcome.next.injEq] at h
      simpa using congrArg State.response h
    · cases h

theorem exec_sppShDec_records (ts : Word64) {fs : List SppField} (hfs : ∀ x ∈ fs, StringField x)
    (s : State) :
    exec (.sppShDec (be64 ts ++ fs.flatMap fieldOctets)) s =
      if KeysDiffer fs then .next (s.respond (.ok (.sppSh { timestamp := ts, otherFields := fs })))
      else .refused .repeatedKeyDecoded :=
  exec_sppShDec_of_ok (sppShDec_octets ts hfs) s

/-- R136, R315: a record cut short ends the command, whatever keys were read before it. -/
theorem exec_sppShDec_cut {T : Bytes} (hT : T.length = 8) {fs : List SppField}
    (hfs : ∀ x ∈ fs, StringField x) {r : SppField} (hr : StringField r) {n : Nat} (hpos : 0 < n)
    (hn : n < (fieldOctets r).length) (s : State) :
    exec (.sppShDec (T ++ fs.flatMap fieldOctets ++ (fieldOctets r).take n)) s =
      .next (s.respond (.fail .malformedHeader)) := by
  have hne : (fieldOctets r).take n ≠ [] := List.ne_nil_of_length_pos (by
    rw [List.length_take]; omega)
  exact exec_sppShDec_of_error (sppShDec_error hT hfs hne (sppFieldRead_cut hr hn)) s

/-- R136, R315: a tag other than 1 ends the command, whatever keys were read before it. -/
theorem exec_sppShDec_bad_tag {T : Bytes} (hT : T.length = 8) {fs : List SppField}
    (hfs : ∀ x ∈ fs, StringField x) {key : Bytes} (hkey : key.length ≤ 65535) {tag : Byte}
    (htag : tag ≠ 1) (rest : Bytes) (s : State) :
    exec (.sppShDec (T ++ fs.flatMap fieldOctets ++
        (octets16 key.length ++ key ++ tag :: rest))) s =
      .next (s.respond (.fail .unsupportedFieldType)) :=
  exec_sppShDec_of_error (sppShDec_error hT hfs (by simp) (sppFieldRead_tag hkey htag rest)) s

/-! ## Secondary header: the statements -/

/-- Settles O15: encoding writes the timestamp and the records, and a buffer that decodes is the
timestamp and the records of the header it decodes to (`sppShDec_inv`). -/
theorem sppShRoundTrip : Obligations.SppShRoundTrip := by
  refine ⟨fun sh s hfs hkeys => ⟨_, exec_sppShEnc_of_tags (fun f hf => (hfs f hf).1) s, ?_⟩,
    fun B sh s h => ?_⟩
  · exact (exec_sppShDec_records sh.timestamp hfs s).trans (if_pos hkeys)
  · obtain ⟨hfs, rfl⟩ := sppShDec_inv (sppShDec_of_exec_ok h)
    exact exec_sppShEnc_of_tags (fun f hf => (hfs f hf).1) s

/-- Settles O13: the answer is `exec_sppShEnc_of_tags`, whose first eight octets are the timestamp's. -/
theorem sppShEncodeWritesRecords : Obligations.SppShEncodeWritesRecords := by
  refine fun sh s => ⟨fun htags => ?_, fun hbad => exec_sppShEnc_of_bad_tag hbad s⟩
  refine ⟨_, _, _, _, _, _, _, _, _, exec_sppShEnc_of_tags htags s, rfl,
    word64_be64 sh.timestamp, ?_⟩
  rw [List.length_append, be64_length, fieldRecords_length]

/-- Settles O14: the records before a fault are read whole, and the first fault is the answer. -/
theorem sppShDecodeReadsRecordsOrReportsFirstFault :
    Obligations.SppShDecodeReadsRecordsOrReportsFirstFault := by
  refine ⟨fun B s hB => exec_sppShDec_of_error (sppShDec_short hB) s,
    fun a b c d e f g h fs s hfs hkeys => ⟨?_, ?_, ?_⟩⟩
  · rw [← be64_word64, exec_sppShDec_records _ hfs, if_pos hkeys]
    rfl
  · exact fun r n hr _ hpos hn => exec_sppShDec_cut rfl hfs hr hpos hn s
  · exact fun key rest tag hkey _ htag => exec_sppShDec_bad_tag rfl hfs hkey htag rest s

/-- Settles O16: a repeated key is looked for only in a buffer that parsed whole; the fault clauses
are the lemmas O14 uses. -/
theorem sppShDecodeRefusesRepeatedKeys : Obligations.SppShDecodeRefusesRepeatedKeys := by
  refine fun T fs s hT hfs => ⟨fun hkeys => ?_, ?_, ?_⟩
  · obtain ⟨ts, rfl⟩ := exists_be64_eq hT
    exact (exec_sppShDec_records ts hfs s).trans (if_neg hkeys)
  · exact fun r n hr hpos hn _ => exec_sppShDec_cut hT hfs hr hpos hn s
  · exact fun key rest tag hkey htag _ => exec_sppShDec_bad_tag hT hfs hkey htag rest s

/-- Settles O12: the model's test is `timestamp ≠ 0` and nothing more. -/
theorem sppShValidateTestsTimestamp : Obligations.SppShValidateTestsTimestamp := fun _ _ =>
  ⟨rfl, fun hts => answer_ok (if_pos (decide_eq_true hts)),
    fun hts => answer_error (if_neg (by simp [sppShValid, hts]))⟩

end Sys2Proof.Machine
end

section
/-! Spec/42_tmdl_header_codec.md as theorems: each command of the codec by what it answers, and from
that the layouts, the tests of validity, the round trips and the identifiers. The bits of the primary
header and the first octet of the secondary header have their laws in Sys2Proof/Laws/; this part
carries them through the commands. -/

namespace Sys2Proof.Machine

/-! ## Primary header: what the commands answer -/

theorem exec_tmPhEnc_of_inRange {h : TmPrimaryHeader} (r : TmPhInRange h) (s : State) :
    exec (.tmPhEnc h) s = .next (s.respond (.ok (.bytes (tmPhPack h)))) :=
  answer_ok (tmPhEnc_ok r)

theorem exec_tmPhEnc_of_not_inRange {h : TmPrimaryHeader} (r : ¬ TmPhInRange h) (s : State) :
    exec (.tmPhEnc h) s = .next (s.respond (.fail .validationError)) :=
  answer_error ((tmPhEnc_cases h).resolve_left fun hgood => r hgood.1).2

theorem exec_tmPhDec_pack {h : TmPrimaryHeader} (r : TmPhInRange h) (s : State) :
    exec (.tmPhDec (tmPhPack h)) s = .next (s.respond (.ok (.tmPh h))) :=
  answer_ok (by simpa using tmPhDec_pack r [])

theorem tmPhDec_short {B : Bytes} (hB : B.length < 6) : tmPhDec B = .error .malformedHeader := by
  rcases tmPhDec_cases B with ⟨_, hdec⟩ | ⟨h, rest, rfl, -, -⟩
  · exact hdec
  · rw [List.length_append, tmPhPack_length] at hB
    omega

/-- A header `TM_PH_DEC` answers with is in range and packs to the octets it was read from. -/
theorem tmPhDec_inv {B : Bytes} {h : TmPrimaryHeader} (hdec : tmPhDec B = .ok h) :
    TmPhInRange h ∧ ∃ rest, B = tmPhPack h ++ rest := by
  rcases tmPhDec_cases B with ⟨_, hbad⟩ | ⟨h', rest, hB, _, ⟨r, hok⟩ | ⟨_, hbad⟩⟩
  · rw [hbad] at hdec; cases hdec
  · rw [hok] at hdec; cases hdec; exact ⟨r, rest, hB⟩
  · rw [hbad] at hdec; cases hdec

theorem tmPhDec_of_exec_ok {B : Bytes} {h : TmPrimaryHeader} {s : State}
    (hexec : exec (.tmPhDec B) s = .next (s.respond (.ok (.tmPh h)))) : tmPhDec B = .ok h := by
  obtain ⟨h', hdec, hres⟩ := answer_ok_inv hexec
  cases hres
  exact hdec

/-! ## Primary header: the statements -/

/-- Settles O20: a valid header is what its own packing decodes to, and six octets that decode are the
packing of the header they decode to. Six octets of zeros do not decode: their Sync Flag is 0, and
their Segment Length Identifier is not 3. -/
theorem tmPhRoundTrip : Obligations.TmPhRoundTrip := by
  refine ⟨fun h s r => ⟨_, exec_tmPhEnc_of_inRange r s, exec_tmPhDec_pack r s⟩,
    fun B h s hB hexec => ?_, [0, 0, 0, 0, 0, 0], rfl, fun s h hexec => ?_⟩
  · obtain ⟨r, rest, rfl⟩ := tmPhDec_inv (tmPhDec_of_exec_ok hexec)
    have hrest : rest = [] := List.length_eq_zero_iff.1 (by
      rw [List.length_append, tmPhPack_length] at hB; omega)
    rw [hrest, List.append_nil]
    exact exec_tmPhEnc_of_inRange r s
  · have hzeros : tmPhDec [0, 0, 0, 0, 0, 0] = .error .malformedHeader := by decide
    rw [tmPhDec_of_exec_ok hexec] at hzeros
    cases hzeros

/-- Settles O18: the octets are those of `tmPhPack_word`. -/
theorem tmPhEncodeLaysOutFields : Obligations.TmPhEncodeLaysOutFields := by
  refine fun h s => ⟨fun r => ?_, fun r => exec_tmPhEnc_of_not_inRange r s⟩
  obtain ⟨b0, b1, b2, b3, b4, b5, hpack, hword⟩ := tmPhPack_word r.fits
  exact ⟨b0, b1, b2, b3, b4, b5, hpack ▸ exec_tmPhEnc_of_inRange r s, hword⟩

/-- Settles O19: unpacking keeps the 48 bits and gives fields within their widths; the model then
tests the header it unpacked. -/
theorem tmPhDecodeChecksInvariants : Obligations.TmPhDecodeChecksInvariants := by
  refine ⟨fun b0 b1 b2 b3 b4 b5 rest s => ⟨tmPhUnpack b0 b1 b2 b3 b4 b5, tmPhUnpack_word .., ?_⟩,
    fun B s hB => answer_error (tmPhDec_short hB)⟩
  obtain ⟨hversion, hscid, hvcid, hsegLen, hfhp⟩ := tmPhUnpack_fits b0 b1 b2 b3 b4 b5
  exact ⟨hversion, hscid, hvcid, hsegLen, hfhp,
    fun r => answer_ok (if_pos (tmPhValid_iff.2 r)),
    fun r => answer_error (if_neg (mt tmPhValid_iff.1 r))⟩

/-- Settles O17: the model's test is the ranges and the two invariants (`tmPhValid_iff`). -/
theorem tmPhValidateTestsInvariants : Obligations.TmPhValidateTestsInvariants := fun _ _ =>
  ⟨fun r => answer_ok (if_pos (tmPhValid_iff.2 r)),
    fun r => answer_error (if_neg (mt tmPhValid_iff.1 r))⟩

/-! ## Secondary header: what the commands answer -/

theorem exec_tmShEnc_of_inRange {sh : TmSecondaryHeader} {s : State} (r : TmShInRange s.cfg sh) :
    exec (.tmShEnc sh) s = .next (s.respond (.ok (.bytes (sh.headerLength :: sh.dataField)))) :=
  answer_ok ((tmShEnc_cases s.cfg sh).resolve_right fun hbad => hbad.1 r).2

theorem exec_tmShEnc_of_not_inRange {sh : TmSecondaryHeader} {s : State}
    (r : ¬ TmShInRange s.cfg sh) :
    exec (.tmShEnc sh) s = .next (s.respond (.fail .validationError)) :=
  answer_error ((tmShEnc_cases s.cfg sh).resolve_left fun hgood => r hgood.1).2

theorem exec_tmShDec_of_buffer {b : Byte} {rest : Bytes} {s : State}
    (hB : TmShBuffer s.cfg (b :: rest)) :
    exec (.tmShDec (b :: rest)) s =
      .next (s.respond (.ok (.tmSh { version := 0, headerLength := b, dataField := rest }))) :=
  answer_ok (tmShDec_ok hB)

theorem exec_tmShDec_of_not_buffer {B : Bytes} {s : State} (hB : ¬ TmShBuffer s.cfg B) :
    exec (.tmShDec B) s = .next (s.respond (.fail .malformedHeader)) := by
  rcases tmShDec_cases s.cfg B with ⟨_, _, _, hgood, _⟩ | ⟨_, hdec⟩
  · exact absurd hgood hB
  · exact answer_error hdec

/-- A header `TM_SH_DEC` answers with is in range, and the buffer is its length and its DataField. -/
theorem tmShDec_inv {cfg : Config} {B : Bytes} {sh : TmSecondaryHeader}
    (hdec : tmShDec cfg B = .ok sh) : TmShInRange cfg sh ∧ B = sh.headerLength :: sh.dataField := by
  rcases tmShDec_cases cfg B with ⟨b, rest, hB, _, r, hok⟩ | ⟨_, hbad⟩
  · rw [hok] at hdec; cases hdec; exact ⟨r, hB⟩
  · rw [hbad] at hdec; cases hdec

/-! ## Secondary header: the statements -/

/-- Settles O22: a buffer is a TM Secondary Header or it is not (`TmShBuffer`, by its first octet in
`TmShBuffer_cons`). A header in range encodes to its length and DataField, which is such a buffer. -/
theorem tmShDecodeAndRoundTrip : Obligations.TmShDecodeAndRoundTrip := by
  refine ⟨fun b rest s => ⟨fun hlow hbound => ?_, fun hbad => ?_⟩, fun s => ?_, fun sh s r => ?_,
    fun B sh s hexec => ?_⟩
  · exact exec_tmShDec_of_buffer (TmShBuffer_cons.2 ⟨hlow, hbound⟩)
  · refine exec_tmShDec_of_not_buffer fun hB => ?_
    obtain ⟨hlow, hbound⟩ := TmShBuffer_cons.1 hB
    rcases hbad with hhigh | ⟨henforced, hlong⟩
    · exact hhigh hlow
    · exact hlong (hbound henforced)
  · exact exec_tmShDec_of_not_buffer fun ⟨_, _, hnil, _⟩ => List.cons_ne_nil _ _ hnil.symm
  · refine ⟨_, exec_tmShEnc_of_inRange r, ?_⟩
    obtain ⟨version, headerLength, dataField⟩ := sh
    obtain ⟨rfl, hlow, hbound⟩ := r
    exact exec_tmShDec_of_buffer (TmShBuffer_cons.2 ⟨hlow, hbound⟩)
  · obtain ⟨sh', hdec, hres⟩ := answer_ok_inv hexec
    cases hres
    obtain ⟨r, rfl⟩ := tmShDec_inv hdec
    exact exec_tmShEnc_of_inRange r

/-- Settles O21: validation and encoding make the same test (`tmShValid_iff`). -/
theorem tmShEncodeWritesLengthAndData : Obligations.TmShEncodeWritesLengthAndData := fun _ _ =>
  ⟨fun r => ⟨answer_ok (if_pos (tmShValid_iff.2 r)), exec_tmShEnc_of_inRange r⟩,
    fun r => ⟨answer_error (if_neg (mt tmShValid_iff.1 r)), exec_tmShEnc_of_not_inRange r⟩⟩

/-! ## Derived identifiers -/

theorem tmMcid_toNat (cfg : Config) (h : TmPrimaryHeader) :
    (tmMcid cfg h).toNat = (h.version.toNat * 2 ^ cfg.mcidShift ||| h.scid.toNat) % 2 ^ 16 := by
  rw [tmMcid, BitVec.toNat_ofNat, Nat.shiftLeft_eq]

/-- R176: the sum is of the container values, reduced modulo 2^16. -/
theorem tmGvcid_toNat (cfg : Config) (h : TmPrimaryHeader) :
    (tmGvcid cfg h).toNat = ((tmMcid cfg h).toNat + h.vcid.toNat) % 2 ^ 16 := by
  rw [tmGvcid, BitVec.toNat_add, BitVec.toNat_setWidth_of_le (by decide)]

/-- R175: a version of 0 adds no bit, whatever the shift. -/
theorem tmMcid_of_version_zero (cfg : Config) {h : TmPrimaryHeader} (hversion : h.version = 0) :
    tmMcid cfg h = h.scid := by
  simp [tmMcid, hversion]

/-- Settles O23: the commands do not validate. A valid header has version 0, so that MCID is the SCID,
and the sum of an SCID and a VCID in range does not leave the 16 bits. -/
theorem tmIdentifiersFollowFormulas : Obligations.TmIdentifiersFollowFormulas := by
  refine fun h s => ⟨tmMcid s.cfg h, tmGvcid s.cfg h, rfl, rfl, tmMcid_toNat s.cfg h, ?_, ?_⟩
  · rw [tmGvcid_toNat, tmMcid_toNat, Nat.mod_add_mod]
  · rintro ⟨hversion, hscid, hvcid, -⟩
    have hmcid := tmMcid_of_version_zero s.cfg hversion
    have hbound : h.scid.toNat + h.vcid.toNat ≤ 1030 := Nat.add_le_add hscid hvcid
    have hsum : (tmGvcid s.cfg h).toNat = h.scid.toNat + h.vcid.toNat := by
      rw [tmGvcid_toNat, hmcid]
      omega
    exact ⟨hmcid, hsum, hsum.trans_le hbound⟩

end Sys2Proof.Machine
end

section
/-! Spec/43_tm_frame.md as theorems: what the two encoders write, what `TMF_NEW` builds, and the tests of
`TMF_DECODE` in their order; from these the round trip and the detection of a flipped bit. The Frame
Error Control is right exactly when the CRC over the whole buffer leaves the residue 0 (R116 (e)); the
test of R194 is used in that form, in which every octet of the buffer is on the same footing. -/

namespace Sys2Proof.Machine

/-! ## Serialisation -/

theorem exec_tmfEncodeNofec_of_encodable {f : Frame} {s : State} (hf : FrameEncodable s.cfg f) :
    exec (.tmfEncodeNofec f) s = .next (s.respond (.ok (.bytes
      (tmPhPack f.header ++ secOctets f ++ f.data ++ ocfOctets f)))) :=
  answer_ok ((frameBody_cases s.cfg f).resolve_right fun hbad => hbad.1 hf).2

theorem exec_tmfEncode_of_encodable {f : Frame} {s : State} (hf : FrameEncodable s.cfg f) :
    exec (.tmfEncode f) s = .next (s.respond (.ok (.bytes
      (tmPhPack f.header ++ secOctets f ++ f.data ++ ocfOctets f ++ be16 f.fec)))) :=
  answer_ok (tmfEncode_ok hf)

theorem frameBody_of_not_encodable {cfg : Config} {f : Frame} (hf : ¬ FrameEncodable cfg f) :
    frameBody cfg f = .error .validationError :=
  ((frameBody_cases cfg f).resolve_left fun hgood => hf hgood.1).2

theorem tmfEncode_of_not_encodable {cfg : Config} {f : Frame} (hf : ¬ FrameEncodable cfg f) :
    tmfEncode cfg f = .error .validationError := by
  rw [tmfEncode, frameBody_of_not_encodable hf]

/-! ## Construction -/

/-- R90, R190: the octets of a frame before its Frame Error Control, in wire order. -/
abbrev partOctets (h : TmPrimaryHeader) (sh data : Bytes) (ocf : Option Octets4) : Bytes :=
  tmPhPack h ++ sh ++ data ++ (ocf.map fun o => [o.o0, o.o1, o.o2, o.o3]).getD []

section
variable (scid : Word16) (vcid : Byte) (data sh : Bytes) (ocf : Option Octets4) (sync : Bool)

/-- R191: the frame `TMF_NEW` builds, its Frame Error Control computed over its parts. -/
abbrev sealedFrame : Frame :=
  newFrame scid vcid data sh ocf sync
    (crc16 (partOctets (tmfNewHeader scid vcid sh.length ocf.isSome sync) sh data ocf))

theorem sealedFrame_octets :
    tmPhPack (sealedFrame scid vcid data sh ocf sync).header ++
        secOctets (sealedFrame scid vcid data sh ocf sync) ++ data ++
        ocfOctets (sealedFrame scid vcid data sh ocf sync) =
      partOctets (tmfNewHeader scid vcid sh.length ocf.isSome sync) sh data ocf := by
  rw [newFrame_secOctets, newFrame_ocfOctets]

/-- R191: masking with ten ones, or three, is reduction modulo 1024, or 8. -/
theorem tmfNewHeader_ids (n : Nat) (o : Bool) :
    (tmfNewHeader scid vcid n o sync).scid.toNat = scid.toNat % 1024 ∧
      (tmfNewHeader scid vcid n o sync).vcid.toNat = vcid.toNat % 8 :=
  ⟨(BitVec.toNat_and ..).trans (Nat.and_two_pow_sub_one_eq_mod _ 10),
    (BitVec.toNat_and ..).trans (Nat.and_two_pow_sub_one_eq_mod _ 3)⟩

theorem tmfNewHeader_fhp {n : Nat} (o : Bool) (hn : sync = false → n ≤ 2047) :
    (tmfNewHeader scid vcid n o sync).fhp.toNat = if sync then 0x7FF else n := by
  cases sync with
  | true => rfl
  | false =>
    have hlen := hn rfl
    exact (BitVec.toNat_ofNat ..).trans (Nat.mod_eq_of_lt (by omega))

theorem tmfNewHeader_fshFlag (o : Bool) :
    (tmfNewHeader scid vcid sh.length o sync).fshFlag = true ↔ sh ≠ [] := by
  simp [tmfNewHeader, List.length_pos_iff]

end

section
variable {scid : Word16} {vcid : Byte} {data sh : Bytes} {ocf : Option Octets4} {sync : Bool}

theorem tmfNew_ok {cfg : Config} (hdata : data.length ≤ 65535)
    (hlen : sync = false → sh.length ≤ 2047) (hsh : sh ≠ [] → TmShBuffer cfg sh) :
    tmfNew cfg scid vcid data sh ocf sync = .ok (sealedFrame scid vcid data sh ocf sync) := by
  rcases tmfNew_cases cfg scid vcid data sh ocf sync with
    ⟨hlong, _⟩ | ⟨hs, hlong, _⟩ | ⟨_, _, ⟨hne, hbad, _⟩ | ⟨_, _, _, rfl, hok⟩⟩
  · omega
  · have := hlen hs; omega
  · exact absurd (hsh hne) hbad
  · exact hok

/-- R191, R315: the length test of the secondary header answers as that of the payload before it. -/
theorem tmfNew_of_long_sec {cfg : Config} (hs : sync = false) (hlong : sh.length > 2047) :
    tmfNew cfg scid vcid data sh ocf sync = .error .validationError := by
  rcases tmfNew_cases cfg scid vcid data sh ocf sync with ⟨_, hbad⟩ | ⟨_, _, hbad⟩ | ⟨_, hlen, _⟩
  · exact hbad
  · exact hbad
  · have := hlen hs; omega

theorem tmfNew_of_not_buffer {cfg : Config} (hdata : data.length ≤ 65535)
    (hlen : sync = false → sh.length ≤ 2047) (hne : sh ≠ []) (hsh : ¬ TmShBuffer cfg sh) :
    tmfNew cfg scid vcid data sh ocf sync = .error .malformedHeader := by
  rcases tmfNew_cases cfg scid vcid data sh ocf sync with
    ⟨hlong, _⟩ | ⟨hs, hlong, _⟩ | ⟨_, _, ⟨_, _, hbad⟩ | ⟨hgood, _⟩⟩
  · omega
  · have := hlen hs; omega
  · exact hbad
  · exact absurd (hgood hne) hsh

/-- A frame `TMF_NEW` answers with is the sealed frame of its operands, and encodes. -/
theorem tmfNew_of_exec_ok {f : Frame} {s : State}
    (hexec : exec (.tmfNew scid vcid data sh ocf sync) s = .next (s.respond (.ok (.frame f)))) :
    (sync = false → sh.length ≤ 2047) ∧ (sh ≠ [] → TmShBuffer s.cfg sh) ∧
      FrameEncodable s.cfg f ∧ f = sealedFrame scid vcid data sh ocf sync := by
  obtain ⟨f', hnew, hres⟩ := answer_ok_inv hexec
  cases hres
  rcases tmfNew_cases s.cfg scid vcid data sh ocf sync with
    ⟨_, hbad⟩ | ⟨_, _, hbad⟩ | ⟨_, hlen, ⟨_, _, hbad⟩ | ⟨hsh, henc, _, rfl, hok⟩⟩
  · rw [hbad] at hnew; cases hnew
  · rw [hbad] at hnew; cases hnew
  · rw [hbad] at hnew; cases hnew
  · rw [hok] at hnew; cases hnew; exact ⟨hlen, hsh, henc _, rfl⟩

end

/-! ## Parsing: the tests in their order -/

theorem tmPhDec_take_six (B : Bytes) : tmPhDec (B.take 6) = tmPhDec B := by
  rcases Nat.lt_or_ge B.length 6 with hshort | hlong
  · rw [List.take_of_length_le (Nat.le_of_lt hshort)]
  · match B, hlong with
    | _ :: _ :: _ :: _ :: _ :: _ :: _, _ => rfl

theorem crc16From_word16_self (hi lo : Byte) : crc16From (word16 hi lo) [hi, lo] = 0 :=
  (congrArg (crc16Step · lo) (crc16Step_high hi lo)).trans (crc16Step_low lo)

/-- R116 (e), both ways: the residue is 0 under the right code only. -/
theorem crc16_append_word_eq_zero_iff {D : Bytes} {hi lo : Byte} :
    crc16 (D ++ [hi, lo]) = 0 ↔ crc16 D = word16 hi lo := by
  rw [crc16, crc16From_append]
  constructor
  · exact fun hzero => crc16From_cancel (hzero.trans (crc16From_word16_self hi lo).symm)
  · intro hcode
    rw [show crc16From 0xFFFF D = word16 hi lo from hcode, crc16From_word16_self]

/-- R194, step 3, by the residue of the whole buffer. -/
theorem storedCrc_right_iff {B : Bytes} (hlen : 2 ≤ B.length) :
    crc16 (slice B 0 (B.length - 2)) = fromBe16 (slice B (B.length - 2) B.length) ↔
      crc16 B = 0 := by
  obtain ⟨D, hi, lo, rfl⟩ := split_last_two hlen
  rw [slice_left D _ (by simp), slice_right D _ (by simp) (by simp)]
  exact crc16_append_word_eq_zero_iff.symm

section
variable {cfg : Config} {B : Bytes} {h : TmPrimaryHeader}

theorem tmfDecode_of_header_error {e : ErrorStatus} (hdec : tmPhDec B = .error e) :
    tmfDecode cfg B = .error .malformedHeader := by
  unfold tmfDecode
  split
  · rfl
  · rw [show slice B 0 6 = B.take 6 from rfl, tmPhDec_take_six, hdec]

/-- R194: the tests that follow the header's, in their order. -/
theorem tmfDecode_of_header (hlen : 7 ≤ B.length) (hdec : tmPhDec B = .ok h) :
    tmfDecode cfg B =
      if crc16 B ≠ 0 then .error .integrityError
      else if B.length < 8 then .error .malformedHeader
      else tmfDecodeBody cfg h (slice B 6 (B.length - 2))
        (fromBe16 (slice B (B.length - 2) B.length)) := by
  rw [tmfDecode, if_neg (by omega), show slice B 0 6 = B.take 6 from rfl, tmPhDec_take_six, hdec]
  simp only [ne_eq, storedCrc_right_iff (B := B) (by omega)]

theorem tmfDecode_of_residue_ne_zero (hlen : 7 ≤ B.length) (hdec : tmPhDec B = .ok h)
    (hcrc : crc16 B ≠ 0) : tmfDecode cfg B = .error .integrityError := by
  rw [tmfDecode_of_header hlen hdec, if_pos hcrc]

/-- R194, step 4 (C7): seven octets under a right code fail, whatever their header is. -/
theorem tmfDecode_of_seven (hlen : B.length = 7) (hcrc : crc16 B = 0) :
    tmfDecode cfg B = .error .malformedHeader := by
  cases hdec : tmPhDec B with
  | error e => exact tmfDecode_of_header_error hdec
  | ok h => rw [tmfDecode_of_header hlen.ge hdec, if_neg (not_not.2 hcrc), if_pos (by omega)]

theorem tmfDecode_of_crc_eq {body : Bytes} {hi lo : Byte} (r : TmPhInRange h)
    (hcrc : crc16 (tmPhPack h ++ body) = word16 hi lo) :
    tmfDecode cfg (tmPhPack h ++ body ++ [hi, lo]) = tmfDecodeBody cfg h body (word16 hi lo) := by
  rcases tmfDecode_split cfg r.fits body hi lo with ⟨hbad, _⟩ | ⟨_, hne, _⟩ | ⟨_, _, hbody⟩
  · exact absurd r hbad
  · exact absurd hcrc hne
  · exact hbody

/-- R194, step 5: a body whose front is no TM Secondary Header of the announced length. -/
theorem tmfDecodeBody_of_bad_sec {body : Bytes} (rx : Word16) (hflag : h.fshFlag = true)
    (hbad : body.length < h.fhp.toNat ∨ ¬ TmShBuffer cfg (body.take h.fhp.toNat)) :
    tmfDecodeBody cfg h body rx = .error .malformedHeader := by
  rcases tmfDecodeSec_cases cfg h body with ⟨hno, _⟩ | ⟨_, hfits, hbuf, _⟩ | ⟨_, _, hsec⟩
  · rw [hflag] at hno; cases hno
  · rcases hbad with hlong | hnot
    · omega
    · exact absurd hbuf hnot
  · rw [tmfDecodeBody, hsec]

/-- What `TMF_DECODE` found in a buffer it answers with a frame. -/
theorem tmfDecode_inv {f : Frame} (hdec : tmfDecode cfg B = .ok f) :
    ∃ h body hi lo, B = tmPhPack h ++ body ++ [hi, lo] ∧ TmPhInRange h ∧
      crc16 (tmPhPack h ++ body) = word16 hi lo ∧
      tmfDecodeBody cfg h body (word16 hi lo) = .ok f := by
  obtain ⟨h, body, hi, lo, rfl, hfits⟩ := frame_split (tmfDecode_length hdec)
  rcases tmfDecode_split cfg hfits body hi lo with ⟨_, hbad⟩ | ⟨_, _, hbad⟩ | ⟨r, hcrc, hbody⟩
  · rw [hbad] at hdec; cases hdec
  · rw [hbad] at hdec; cases hdec
  · exact ⟨h, body, hi, lo, rfl, r, hcrc, hbody.symm.trans hdec⟩

theorem crc16_eq_zero_of_tmfDecode {f : Frame} (hdec : tmfDecode cfg B = .ok f) : crc16 B = 0 := by
  obtain ⟨h, body, hi, lo, rfl, _, hcrc, _⟩ := tmfDecode_inv hdec
  exact crc16_append_word_eq_zero_iff.2 hcrc

end

theorem tmfDecode_of_exec_ok {B : Bytes} {f : Frame} {s : State}
    (hexec : exec (.tmfDecode B) s = .next (s.respond (.ok (.frame f)))) :
    tmfDecode s.cfg B = .ok f := by
  obtain ⟨f', hdec, hres⟩ := answer_ok_inv hexec
  cases hres
  exact hdec

/-! ## Parsing: the parts -/

/-- Decoding the parts of R90 under their own code gives the frame made of them. -/
theorem tmfDecode_partOctets {cfg : Config} {h : TmPrimaryHeader} {sh data : Bytes}
    {o : Option Octets4} (r : TmPhInRange h)
    (hsec : h.fshFlag = true → sh.length = h.fhp.toNat ∧ TmShBuffer cfg sh)
    (hnosec : h.fshFlag = false → sh = []) (hnoocf : h.ocfFlag = false → o = none)
    (hocf : h.ocfFlag = true → o = none → data.length < 4) :
    tmfDecode cfg (partOctets h sh data o ++ be16 (crc16 (partOctets h sh data o))) =
      .ok { header := h, sec := secOf sh, data := data, ocf := o,
            fec := crc16 (partOctets h sh data o) } := by
  have hassoc : partOctets h sh data o = tmPhPack h ++
      (sh ++ data ++ (o.map fun w => [w.o0, w.o1, w.o2, w.o3]).getD []) := by
    simp only [partOctets, List.append_assoc]
  rw [hassoc, tmfDecode_sealed r]
  exact tmfDecodeBody_parts data _ hsec hnosec hnoocf hocf

/-- The octets the pointer spans are the secondary header's. -/
theorem tmfDecodeSec_inv {cfg : Config} {h : TmPrimaryHeader} {body : Bytes}
    {sec : Option TmSecondaryHeader} {pos : Nat}
    (hdec : tmfDecodeSec cfg h body = .ok (sec, pos)) (hflag : h.fshFlag = true) :
    h.fhp.toNat ≤ body.length ∧
      ∃ sh, sec = some sh ∧ body.take h.fhp.toNat = sh.headerLength :: sh.dataField := by
  rw [tmfDecodeSec, if_pos hflag] at hdec
  split at hdec
  · cases hdec
  next hfits =>
    split at hdec
    · cases hdec
    next sh hsh => cases hdec; exact ⟨Nat.le_of_not_gt hfits, sh, rfl, (tmShDec_inv hsh).2⟩

/-- The pointer of a parsed frame is the length of its secondary header on the wire. -/
theorem tmfDecode_secOctets_length {cfg : Config} {B : Bytes} {f : Frame}
    (hdec : tmfDecode cfg B = .ok f) (hflag : f.header.fshFlag = true) :
    (secOctets f).length = f.header.fhp.toNat := by
  obtain ⟨h, body, hi, lo, -, -, -, hbody⟩ := tmfDecode_inv hdec
  unfold tmfDecodeBody at hbody
  split at hbody
  · cases hbody
  next sec pos hsec =>
    cases hbody
    obtain ⟨hfits, sh, rfl, hspan⟩ := tmfDecodeSec_inv hsec hflag
    rw [secOctets_some hflag rfl, ← hspan, List.length_take, Nat.min_eq_left hfits]

/-! ## The round trip -/

section
variable {scid : Word16} {vcid : Byte} {data sh : Bytes} {ocf : Option Octets4} {sync : Bool}
  {s : State}

/-- R193: what `TMF_ENCODE` writes for the frame `TMF_NEW` builds. -/
abbrev sealedOctets (scid : Word16) (vcid : Byte) (data sh : Bytes) (ocf : Option Octets4)
    (sync : Bool) : Bytes :=
  partOctets (tmfNewHeader scid vcid sh.length ocf.isSome sync) sh data ocf ++
    be16 (sealedFrame scid vcid data sh ocf sync).fec

theorem exec_tmfEncode_sealedFrame
    (henc : FrameEncodable s.cfg (sealedFrame scid vcid data sh ocf sync)) :
    exec (.tmfEncode (sealedFrame scid vcid data sh ocf sync)) s =
      .next (s.respond (.ok (.bytes (sealedOctets scid vcid data sh ocf sync)))) := by
  rw [exec_tmfEncode_of_encodable henc, sealedFrame_octets]

/-- R195: the encoding of a built frame decodes to it when its pointer is the length of its secondary
header; with `sync` the pointer is the sentinel 2047. -/
theorem exec_tmfDecode_sealedOctets (hlen : sync = false → sh.length ≤ 2047)
    (hsh : sh ≠ [] → TmShBuffer s.cfg sh) (hptr : sh ≠ [] → sync = true → sh.length = 2047) :
    exec (.tmfDecode (sealedOctets scid vcid data sh ocf sync)) s =
      .next (s.respond (.ok (.frame (sealedFrame scid vcid data sh ocf sync)))) := by
  have hflag := tmfNewHeader_fshFlag scid vcid sh sync ocf.isSome
  refine answer_ok (tmfDecode_partOctets (tmfNewHeader_inRange _ _ _ hlen) (fun hf => ?_)
    (fun hf => ?_)
    (fun ho => Option.not_isSome_iff_eq_none.1 (Bool.eq_false_iff.1 ho)) (fun ho hnone => ?_))
  · have hne := hflag.1 hf
    refine ⟨?_, hsh hne⟩
    rw [tmfNewHeader_fhp _ _ _ _ hlen]
    split
    next hs => exact hptr hne hs
    · rfl
  · by_contra hne
    rw [hflag.2 hne] at hf
    cases hf
  · subst hnone; cases ho

theorem tmfNew_encode_decode {f : Frame} (hptr : sh ≠ [] → sync = true → sh.length = 2047)
    (hnew : exec (.tmfNew scid vcid data sh ocf sync) s = .next (s.respond (.ok (.frame f)))) :
    ∃ B, exec (.tmfEncode f) s = .next (s.respond (.ok (.bytes B))) ∧
      exec (.tmfDecode B) s = .next (s.respond (.ok (.frame f))) := by
  obtain ⟨hlen, hsh, henc, rfl⟩ := tmfNew_of_exec_ok hnew
  exact ⟨_, exec_tmfEncode_sealedFrame henc, exec_tmfDecode_sealedOctets hlen hsh hptr⟩

end

/-- A buffer that decodes is what its frame encodes to. -/
theorem exec_tmfEncode_of_tmfDecode {B : Bytes} {f : Frame} {s : State}
    (hdec : tmfDecode s.cfg B = .ok f) :
    exec (.tmfEncode f) s = .next (s.respond (.ok (.bytes B))) := by
  obtain ⟨h, body, hi, lo, rfl, r, -, hbody⟩ := tmfDecode_inv hdec
  obtain ⟨henc, rfl, hfec, rfl⟩ := tmfDecodeBody_inv r hbody
  rw [exec_tmfEncode_of_encodable henc, hfec, word16, be16_append]
  simp only [List.append_assoc]

/-! ## The statements -/

/-- Settles O28: in the first two clauses the pointer is the secondary header's length, or there is no
secondary header; in the third the pointer is 2047, and a frame that decodes has a secondary header of
the pointer's length. -/
theorem tmfRoundTrip : Obligations.TmfRoundTrip := by
  refine ⟨fun _ _ _ _ _ _ _ => tmfNew_encode_decode (by simp),
    fun _ _ _ _ _ _ => tmfNew_encode_decode (by simp),
    fun scid vcid data sh ocf f s hne hnew => ?_,
    fun B f s hexec => exec_tmfEncode_of_tmfDecode (tmfDecode_of_exec_ok hexec)⟩
  obtain ⟨hlen, hsh, henc, rfl⟩ := tmfNew_of_exec_ok hnew
  refine ⟨_, exec_tmfEncode_sealedFrame henc, fun hexec => ?_,
    fun h2047 => exec_tmfDecode_sealedOctets hlen hsh fun _ _ => h2047⟩
  have hflag := (tmfNewHeader_fshFlag scid vcid sh true ocf.isSome).2 hne
  have hspan := tmfDecode_secOctets_length (tmfDecode_of_exec_ok hexec) hflag
  rwa [newFrame_secOctets, tmfNewHeader_fhp _ _ _ _ hlen] at hspan

/-- Settles O24: the frame is `sealedFrame`, and its parts are what `TMF_ENCODE_NOFEC` writes; each failure
is the first test that fails. -/
theorem tmfNewBuildsSealedFrame : Obligations.TmfNewBuildsSealedFrame := by
  intro scid vcid data sh ocf sync s
  refine ⟨fun hdata hlen hsh => ?_, fun hlong => ?_, fun hs hlong => ?_,
    fun hdata hlen hne hbad => ?_⟩
  · obtain ⟨hscid, hvcid⟩ := tmfNewHeader_ids scid vcid sync sh.length ocf.isSome
    have henc : FrameEncodable s.cfg (sealedFrame scid vcid data sh ocf sync) :=
      newFrame_encodable scid vcid data ocf _ hlen hsh
    refine ⟨sealedFrame scid vcid data sh ocf sync, _, answer_ok (tmfNew_ok hdata hlen hsh), rfl,
      hscid, hvcid, rfl, rfl, rfl, tmfNewHeader_fshFlag .., rfl, rfl, rfl,
      tmfNewHeader_fhp _ _ _ _ hlen, rfl, rfl, rfl, exec_tmfEncodeNofec_of_encodable henc, ?_⟩
    rw [sealedFrame_octets]
  · exact answer_error (if_pos hlong)
  · exact answer_error (tmfNew_of_long_sec hs hlong)
  · exact answer_error (tmfNew_of_not_buffer hdata hlen hne hbad)

/-- Settles O25: a frame is encodable or it is not (`frameBody_cases`). -/
theorem tmfEncodeWritesPartsInOrder : Obligations.TmfEncodeWritesPartsInOrder := by
  refine fun f s => ⟨fun hf => ⟨_, exec_tmPhEnc_of_inRange hf.1 s,
    exec_tmfEncodeNofec_of_encodable hf, ?_⟩, fun hf =>
    ⟨answer_error (frameBody_of_not_encodable hf), answer_error (tmfEncode_of_not_encodable hf)⟩⟩
  rw [← be16_eq]
  exact exec_tmfEncode_of_encodable hf

/-- Settles O26: the body is the parts in wire order, under its own code. -/
theorem tmfDecodeParsesParts : Obligations.TmfDecodeParsesParts := by
  refine fun h sh data o s r hsec hnosec hnoocf hocf =>
    ⟨_, partOctets h sh data o, exec_tmPhEnc_of_inRange r s, rfl, ?_⟩
  rw [← be16_eq]
  exact answer_ok (tmfDecode_partOctets r hsec hnosec hnoocf hocf)

/-- Settles O27: each clause is the test of its name, the ones before it passed or having the same
answer. -/
theorem tmfDecodeTestsInOrder : Obligations.TmfDecodeTestsInOrder := by
  intro B s
  refine ⟨fun hlen => answer_error (if_pos hlen), fun hexec => ?_, ?_, ?_, ?_⟩
  · have hdec := answer_error_inv hexec
    rw [tmPhDec_take_six] at hdec
    exact answer_error (tmfDecode_of_header_error hdec)
  · rintro D hi lo h rfl hlen hexec hcrc
    have hdec := tmPhDec_of_exec_ok hexec
    rw [tmPhDec_take_six] at hdec
    exact answer_error (tmfDecode_of_residue_ne_zero hlen hdec
      (mt crc16_append_word_eq_zero_iff.1 hcrc))
  · rintro D hi lo rfl hlen hcrc
    exact answer_error (tmfDecode_of_seven hlen (crc16_append_word_eq_zero_iff.2 hcrc))
  · rintro H body hi lo h rfl hlen hexec hcrc hflag hbad
    obtain ⟨r, rest, rfl⟩ := tmPhDec_inv (tmPhDec_of_exec_ok hexec)
    have hrest : rest = [] := List.length_eq_zero_iff.1 (by
      rw [List.length_append, tmPhPack_length] at hlen; omega)
    subst hrest
    rw [List.append_nil] at hcrc ⊢
    exact answer_error ((tmfDecode_of_crc_eq r hcrc).trans (tmfDecodeBody_of_bad_sec _ hflag hbad))

/-- Settles O29: the buffer that decodes has the residue 0, an octet is recovered from the residue and
the other octets, and so the residue after a flip is not 0: what is left to the flipped buffer is to
fail the test of the header or that of the code. -/
theorem tmfDecodeDetectsEverySingleBitFlip : Obligations.TmfDecodeDetectsEverySingleBitFlip := by
  rintro P S b k f s hk hexec _ rfl
  have hdec := tmfDecode_of_exec_ok hexec
  have hlen := tmfDecode_length hdec
  have hcrc : crc16 (P ++ (b ^^^ (1#8 <<< k)) :: S) ≠ 0 := fun hzero =>
    xor_single_bit_ne b hk
      (crc16_octet_injective P S (hzero.trans (crc16_eq_zero_of_tmfDecode hdec).symm))
  have hflip : 7 ≤ (P ++ (b ^^^ (1#8 <<< k)) :: S).length := by
    simp only [List.length_append, List.length_cons] at hlen ⊢
    omega
  refine ⟨fun ⟨h, hph⟩ => ?_, fun hnone => ?_⟩
  · exact answer_error (tmfDecode_of_residue_ne_zero hflip (tmPhDec_of_exec_ok hph) hcrc)
  · cases hph : tmPhDec (P ++ (b ^^^ (1#8 <<< k)) :: S) with
    | error e => exact answer_error (tmfDecode_of_header_error hph)
    | ok h => exact absurd ⟨h, answer_ok hph⟩ hnone

end Sys2Proof.Machine
end

section
/-! Spec/44_virtual_channel.md as theorems: what the four commands on a channel answer, the tests in
the order of R315 (R220 to R223), and that they write no state but the channel's own slot (R224). -/

namespace Sys2Proof.Machine

/-! ## Only the channel's own slot is written -/

/-- A command on channel `v` gives a response and writes no slot but that of `v`. -/
theorem channelCommand_cases {v : Vcid} {i : Instr} {s t : State}
    (hi : (∃ n, i = .vcCreate v n) ∨ (∃ f, i = .vcAddFrame v f) ∨ i = .vcGetNextFrame v ∨
      i = .vcHasFrames v) (h : exec i s = .next t) :
    (∃ r, t = s.respond r) ∨ ∃ x r, t = (s.setSlot v x).respond r := by
  have own {w : Vcid} {x : Slot} {r : Response} (hw : w = v) (ht : t = (s.setSlot w x).respond r) :
      (∃ r, t = s.respond r) ∨ ∃ x r, t = (s.setSlot v x).respond r :=
    .inr ⟨x, r, hw ▸ ht⟩
  rcases exec_cases h with ⟨r, ht, -⟩ | ⟨c, r, -, hcrc⟩ | ⟨w, n, rfl, -, -, ht⟩ |
    ⟨w, f, rfl, -, -, ht⟩ | ⟨w, f, q, rfl, -, -, ht⟩ | ⟨w, p, rfl, -, -⟩ |
    ⟨w, p, f, q, rfl, -, -, -⟩
  · exact .inl ⟨r, ht⟩
  · rcases hcrc with rfl | ⟨data, rfl⟩ | ⟨data, rfl⟩ <;> simp at hi
  · exact own (by simpa using hi) ht
  · exact own (by simpa using hi) ht
  · exact own (by simpa using hi) ht
  · simp at hi
  · simp at hi

/-- Settles O36: a response changes none of these elements, a write of one slot only that slot. -/
theorem channelCommandsLeaveOthersAlone : Obligations.ChannelCommandsLeaveOthersAlone := by
  intro v w i s t hi h hw
  rcases channelCommand_cases hi h with ⟨r, rfl⟩ | ⟨x, r, rfl⟩
  · exact ⟨rfl, rfl, rfl, rfl, rfl, rfl, rfl⟩
  · exact ⟨setSlot_slot_ne s x hw, rfl, rfl, rfl, rfl, rfl, rfl⟩

/-! ## What each command answers -/

/-- R25: with no `MAX_DEPTH` every capacity is allowed. -/
theorem depthAllowed_iff {cfg : Config} {n : Nat} :
    depthAllowed cfg n = true ↔ ∀ m, cfg.maxDepth = some m → n ≤ m := by
  unfold depthAllowed
  cases cfg.maxDepth <;> simp

/-- Settles O31: the slot is taken or free, and then the capacity is tested (`depthAllowed_iff`). -/
theorem vcCreateMakesEmptyChannel : Obligations.VcCreateMakesEmptyChannel := by
  refine fun v n s => ⟨fun hfree hdepth => ?_, fun htaken => if_pos htaken, fun hfree hlarge => ?_⟩
  · exact (if_neg (Bool.eq_false_iff.1 hfree)).trans (if_pos (depthAllowed_iff.2 hdepth))
  · obtain ⟨m, hm, hlt⟩ := hlarge
    have hno : ¬ depthAllowed s.cfg n = true := fun hd => hlt.not_ge (depthAllowed_iff.1 hd m hm)
    exact (if_neg (Bool.eq_false_iff.1 hfree)).trans (if_neg hno)

/-- Settles O32: the channel is created or not, and then has room or is full. -/
theorem vcAddFrameAppendsUnlessFull : Obligations.VcAddFrameAppendsUnlessFull := fun _ _ _ =>
  ⟨fun hcreated hroom => (if_pos hcreated).trans (if_neg hroom.not_ge),
    fun habsent => if_neg (Bool.eq_false_iff.1 habsent),
    fun hcreated hfull => (if_pos hcreated).trans (if_pos hfull)⟩

/-- On a created channel the answer is that of taking the oldest frame off the queue. -/
theorem exec_vcGetNextFrame_of_present {v : Vcid} {s : State} (h : (s.slot v).present = true) :
    exec (.vcGetNextFrame v) s =
      (s.qPop v).elim (s.fail .empty) fun (f, t) => t.ok (.frame f) := by
  refine (if_pos h).trans ?_
  cases s.qPop v <;> rfl

/-- Settles O33: the channel is created or not, and then `qPop` has a frame or not. -/
theorem vcGetNextFramePopsOldest : Obligations.VcGetNextFramePopsOldest := by
  refine fun v s => ⟨fun f q hcreated hq => ?_, fun habsent => if_neg (Bool.eq_false_iff.1 habsent),
    fun hcreated hq => ?_⟩
  · rw [exec_vcGetNextFrame_of_present hcreated, qPop_cons hq]
    rfl
  · rw [exec_vcGetNextFrame_of_present hcreated, qPop_nil hq]
    rfl

theorem exec_vcHasFrames_of_present {v : Vcid} {s : State} (h : (s.slot v).present = true) :
    exec (.vcHasFrames v) s = .next (s.respond (.ok (.has (decide (0 < s.qLen v))))) :=
  if_pos h

/-- Settles O34: a queue holds a frame exactly when its length is positive. -/
theorem vcHasFramesPeeks : Obligations.VcHasFramesPeeks := by
  refine fun v s => ⟨fun hcreated hq => ?_, fun hcreated hq => ?_,
    fun habsent => if_neg (Bool.eq_false_iff.1 habsent)⟩
  · have hpos : 0 < s.qLen v := List.length_pos_iff.2 hq
    rw [exec_vcHasFrames_of_present hcreated, decide_eq_true hpos]
  · have hzero : ¬ 0 < s.qLen v := fun hpos => List.length_pos_iff.1 hpos hq
    rw [exec_vcHasFrames_of_present hcreated, decide_eq_false hzero]

end Sys2Proof.Machine
end

section
/-! Spec/45_vc_multiplexer.md as theorems: registration (R240), which channel a call serves and when
it fails (R242), that no channel starves (R244), and that weights are never read (R243). What a call
can do is `muxGet_cases`; this part adds that the registered channels, the cursor and the queues
alone decide which of its cases holds. -/

namespace Sys2Proof.Machine

/-! ## Registration -/

/-- Settles O37: the channel is created or not. -/
theorem muxAddChannelRegisters : Obligations.MuxAddChannelRegisters := fun _ _ _ =>
  ⟨fun hcreated => if_pos hcreated, fun habsent => if_neg (Bool.eq_false_iff.1 habsent)⟩

/-! ## Which channel a call serves -/

/-- R242: the channel `k` positions after the cursor, in the cyclic order. -/
abbrev State.afterCursor (s : State) (k : Nat) : Option Vcid :=
  s.muxOrder[(s.muxLastUsed + k) % s.muxOrder.length]?

/-- Settles O38: each case of `muxGet_cases` excludes the premises of the other two clauses. -/
theorem muxGetNextFrameFailsOnlyWhenEmpty : Obligations.MuxGetNextFrameFailsOnlyWhenEmpty := by
  intro s
  rcases muxGet_cases s with ⟨hnil, hexec⟩ | ⟨hne, hempty, hexec⟩ |
    ⟨k, v, f, q, -, -, hv, hq, -, hexec⟩
  · exact ⟨fun _ => hexec, fun hne => absurd hnil hne, fun ⟨v, hv, _⟩ => by simp [hnil] at hv⟩
  · exact ⟨fun hnil => absurd hnil hne, fun _ _ => hexec,
      fun ⟨v, hv, hpending⟩ => absurd (hempty v hv) hpending⟩
  · have hmem : v ∈ s.muxOrder := List.mem_of_getElem? hv
    exact ⟨fun hnil => by simp [hnil] at hmem, fun _ hempty => by simp [hempty v hmem] at hq,
      fun _ => ⟨f, _, hexec⟩⟩

/-- Settles O39: the call serves the first pending channel at some distance (`muxGet_cases`), and of
two distances that are both first neither is the smaller. -/
theorem muxGetNextFrameServesFirstPendingAfterCursor :
    Obligations.MuxGetNextFrameServesFirstPendingAfterCursor := by
  intro s k v f q hk hle hv hq hfirst
  have hmem : v ∈ s.muxOrder := List.mem_of_getElem? hv
  rcases muxGet_cases s with ⟨hnil, -⟩ | ⟨-, hempty, -⟩ |
    ⟨k', v', f', q', hk', -, hv', hq', hfirst', hexec⟩
  · simp [hnil] at hmem
  · simp [hempty v hmem] at hq
  · rcases lt_trichotomy k k' with hlt | rfl | hlt
    · simp [hfirst' k v hk hlt hv] at hq
    · obtain rfl : v' = v := Option.some.inj (hv'.symm.trans hv)
      obtain ⟨rfl, rfl⟩ := List.cons.inj (hq'.symm.trans hq)
      exact hexec
    · simp [hfirst k' v' hk' hlt hv'] at hq'

/-! ## No channel starves -/

/-- One round after the cursor reaches every registered channel. -/
theorem exists_afterCursor_eq {s : State} {v : Vcid} (h : v ∈ s.muxOrder) :
    ∃ d, 1 ≤ d ∧ d ≤ s.muxOrder.length ∧ s.afterCursor d = some v := by
  obtain ⟨p, hp, rfl⟩ := List.getElem_of_mem h
  obtain ⟨n, hn⟩ : ∃ n, s.muxOrder.length = n + 1 := ⟨s.muxOrder.length - 1, by omega⟩
  have hmod : (s.muxLastUsed + ((p + n * (s.muxLastUsed + 1)) % (n + 1) + 1)) % (n + 1) = p := by
    calc (s.muxLastUsed + ((p + n * (s.muxLastUsed + 1)) % (n + 1) + 1)) % (n + 1)
        = (s.muxLastUsed + 1 + (p + n * (s.muxLastUsed + 1))) % (n + 1) := by
          rw [← Nat.add_mod_mod (s.muxLastUsed + 1)]; congr 1; omega
      _ = (p + (n + 1) * (s.muxLastUsed + 1)) % (n + 1) := by congr 1; ring
      _ = p := by rw [Nat.add_mul_mod_self_left, Nat.mod_eq_of_lt (hn ▸ hp)]
  refine ⟨(p + n * (s.muxLastUsed + 1)) % (n + 1) + 1, Nat.le_add_left .., ?_, ?_⟩
  · rw [hn]; exact Nat.mod_lt _ n.succ_pos
  · rw [State.afterCursor, hn, hmod, List.getElem?_eq_getElem hp]

/-- R242, R244 (b): the call that took the state from `s` to `t` served channel `v`. -/
def Served (v : Vcid) (s t : State) : Prop :=
  ∃ f, t.response = some (.ok (.frame f)) ∧ s.queue v = f :: t.queue v ∧
    t.muxOrder[t.muxLastUsed]? = some v

/-- R244 (b) for one call: a pending channel is served, or the cursor has come closer to it without
passing it. -/
theorem served_or_closer {s t : State} {v : Vcid} {d : Nat} (h : exec .muxGetNextFrame s = .next t)
    (hpending : s.queue v ≠ []) (hd : 1 ≤ d) (hv : s.afterCursor d = some v) :
    t.muxOrder = s.muxOrder ∧
      (Served v s t ∨ ∃ d', 1 ≤ d' ∧ d' < d ∧ t.afterCursor d' = some v) := by
  have hmem : v ∈ s.muxOrder := List.mem_of_getElem? hv
  rcases muxGet_cases s with ⟨hnil, -⟩ | ⟨-, hempty, -⟩ |
    ⟨k, w, f, q, hk, -, hw, hq, hfirst, hexec⟩
  · simp [hnil] at hmem
  · exact absurd (hempty v hmem) hpending
  · obtain rfl := Host.Outcome.next.inj (h.symm.trans hexec)
    refine ⟨rfl, ?_⟩
    rcases lt_trichotomy d k with hlt | rfl | hlt
    · exact absurd (hfirst d v hd hlt hv) hpending
    · obtain rfl : w = v := Option.some.inj (hw.symm.trans hv)
      exact .inl ⟨f, rfl, hq.trans (congrArg (f :: ·) (setQueue_queue_self s w q).symm), hv⟩
    · refine .inr ⟨d - k, by omega, by omega, ?_⟩
      have hsum : s.muxLastUsed + k + (d - k) = s.muxLastUsed + d := by omega
      calc s.muxOrder[((s.muxLastUsed + k) % s.muxOrder.length + (d - k)) % s.muxOrder.length]?
          = s.afterCursor d := by rw [Nat.mod_add_mod, hsum]
        _ = some v := hv

/-- Settles O40: the distance from the cursor to the channel is at most `N` at first and falls with
every call that does not serve it (`served_or_closer`), so from call `k` on, a distance of at most
`N - k` leaves calls enough. The induction is on that distance. -/
theorem muxStarvesNoChannel : Obligations.MuxStarvesNoChannel := by
  intro σ τ v N hN hmem hcall hkeep
  have eventually (d : Nat) : ∀ k, 1 ≤ d → k + d ≤ N → (σ k).afterCursor d = some v →
      ∃ j, j < N ∧ Served v (σ j) (τ j) := by
    induction d using Nat.strong_induction_on with
    | _ d ih =>
      intro k hd hle hv
      obtain ⟨hexec, -, hpending⟩ := hcall k (by omega)
      obtain ⟨-, hserved | ⟨d', hd', hlt, hv'⟩⟩ := served_or_closer hexec hpending hd hv
      · exact ⟨k, by omega, hserved⟩
      · obtain ⟨horder, hcursor⟩ := hkeep k (by omega)
        exact ih d' hlt (k + 1) hd' (by omega) (by rwa [State.afterCursor, horder, hcursor])
  obtain ⟨d, hd, hle, hv⟩ := exists_afterCursor_eq hmem
  obtain ⟨k, hk, f, hserved⟩ := eventually d 0 hd (by omega) hv
  exact ⟨k, f, hk, hserved⟩

/-! ## Weights are never read -/

/-- The state with other priority weights. -/
def State.withPrio (s : State) (P : Vector Int 8) : State := { s with muxPrio := P }

theorem sameButPrio_iff {s t : State} : s.sameButPrio t ↔ ∃ P, t = s.withPrio P := by
  refine ⟨fun h => ⟨t.muxPrio, h⟩, ?_⟩
  rintro ⟨P, rfl⟩
  rfl

/-- R243: the two outcomes differ in the weights at most. -/
abbrev AlikeButPrio : Outcome → Outcome → Prop := Alike State.sameButPrio

theorem AlikeButPrio.ite {p : Prop} [Decidable p] {a b a' b' : Outcome} (ha : AlikeButPrio a a')
    (hb : AlikeButPrio b b') : AlikeButPrio (if p then a else b) (if p then a' else b') := by
  split
  · exact ha
  · exact hb

section
variable (s : State) (P : Vector Int 8)

theorem alike_next_respond (r : Response) :
    AlikeButPrio (.next (s.respond r)) (.next ((s.withPrio P).respond r)) := rfl

theorem alike_reply (x : Except Refusal Response) :
    AlikeButPrio (s.reply x) ((s.withPrio P).reply x) := by
  cases x <;> rfl

theorem alike_vcCreate (v : Vcid) (n : Nat) :
    AlikeButPrio (execVcCreate v n s) (execVcCreate v n (s.withPrio P)) :=
  .ite (alike_next_respond s P _)
    (.ite (alike_next_respond (s.setSlot v _) P _) (alike_next_respond s P _))

theorem alike_vcAddFrame (v : Vcid) (f : Frame) :
    AlikeButPrio (execVcAddFrame v f s) (execVcAddFrame v f (s.withPrio P)) :=
  .ite (.ite (alike_next_respond s P _) (alike_next_respond (s.qPush v f) P _))
    (alike_next_respond s P _)

theorem alike_vcGetNextFrame (v : Vcid) :
    AlikeButPrio (execVcGetNextFrame v s) (execVcGetNextFrame v (s.withPrio P)) := by
  refine .ite ?_ (alike_next_respond s P _)
  cases hq : s.queue v with
  | nil =>
    rw [qPop_nil hq, qPop_nil (s := s.withPrio P) hq]
    exact alike_next_respond s P _
  | cons f q =>
    rw [qPop_cons hq, qPop_cons (s := s.withPrio P) hq]
    exact alike_next_respond (s.setQueue v q) P _

theorem alike_vcHasFrames (v : Vcid) :
    AlikeButPrio (execVcHasFrames v s) (execVcHasFrames v (s.withPrio P)) :=
  .ite (alike_next_respond s P _) (alike_next_respond s P _)

/-- The one command that touches the weights writes one and reads none. -/
theorem alike_muxAddChannel (v : Vcid) (w : Int) :
    AlikeButPrio (execMuxAddChannel v w s) (execMuxAddChannel v w (s.withPrio P)) :=
  .ite (sameButPrio_iff.2 ⟨P.set v.toNat w v.isLt, rfl⟩) (alike_next_respond s P _)

/-- R243: the weights are in none of the premises of O38 and O39, which fix the outcome. -/
theorem alike_muxGetNextFrame :
    AlikeButPrio (exec .muxGetNextFrame s) (exec .muxGetNextFrame (s.withPrio P)) := by
  obtain ⟨noChannels, noFrames, -⟩ := muxGetNextFrameFailsOnlyWhenEmpty (s.withPrio P)
  rcases muxGet_cases s with ⟨hnil, hexec⟩ | ⟨hne, hempty, hexec⟩ |
    ⟨k, v, f, q, hk, hle, hv, hq, hfirst, hexec⟩
  · rw [hexec, noChannels hnil]
    exact alike_next_respond s P _
  · rw [hexec, noFrames hne hempty]
    exact alike_next_respond s P _
  · rw [hexec, muxGetNextFrameServesFirstPendingAfterCursor (s.withPrio P) k v f q hk hle hv hq
      hfirst]
    rfl

/-- R243 for one command. -/
theorem exec_alikeButPrio (i : Instr) : AlikeButPrio (exec i s) (exec i (s.withPrio P)) := by
  by_cases hgroup : InCodecGroup i
  · obtain ⟨f, hf⟩ := stateless_of_codecGroup hgroup
    rw [hf, hf]
    exact alike_reply s P (f s.cfg)
  · cases i
    case crcInit | crcUpdate | crcRead | crcCompute => rfl
    case vcCreate v n => exact alike_vcCreate s P v n
    case vcAddFrame v f => exact alike_vcAddFrame s P v f
    case vcGetNextFrame v => exact alike_vcGetNextFrame s P v
    case vcHasFrames v => exact alike_vcHasFrames s P v
    case muxAddChannel v w => exact alike_muxAddChannel s P v w
    case muxGetNextFrame => exact alike_muxGetNextFrame s P
    all_goals exact absurd (by simp [InCodecGroup, opcode]) hgroup

/-- R243 for one event: what the block takes from its port depends on port and parameters only. -/
theorem step_alikeButPrio : AlikeButPrio (step s) (step (s.withPrio P)) := by
  match hin : s.input with
  | [] =>
    rw [step_of_input_nil hin, step_of_input_nil (s := s.withPrio P) hin]
    rfl
  | .reset :: rest =>
    rw [step_of_input_reset hin, step_of_input_reset (s := s.withPrio P) hin]
    rfl
  | .command c :: rest =>
    rcases takeCommand_cases s c with ⟨hdec, -⟩ | ⟨hdec, -⟩ | ⟨i, why, hdec, hoff, -⟩ |
      ⟨i, hdec, hwf, -⟩
    · rw [step_of_reservedOpcode hin hdec, step_of_reservedOpcode (s := s.withPrio P) hin hdec]
      rfl
    · rw [step_of_operandTypes hin hdec, step_of_operandTypes (s := s.withPrio P) hin hdec]
      rfl
    · rw [step_of_offPort hin hdec hoff, step_of_offPort (s := s.withPrio P) hin hdec hoff]
      rfl
    · rw [stepRunsTheDecodedCommand s c rest i hin hdec hwf,
        stepRunsTheDecodedCommand (s.withPrio P) c rest i hin hdec hwf]
      exact exec_alikeButPrio { s with input := rest } P i

end

/-- The rest of a run after its first step, which may have stopped it. -/
def runAfter (M : Host.Core) (k : Nat) :
    Host.Outcome M.State M.Fault M.Refusal → Host.Outcome M.State M.Fault M.Refusal
  | .next s => M.run k s
  | .fault why => .fault why
  | .refused why => .refused why

theorem run_succ (M : Host.Core) (k : Nat) (s : M.State) :
    M.run (k + 1) s = runAfter M k (M.step s) := by
  rw [Host.Core.run]
  cases M.step s <;> rfl

theorem alike_runAfter {k : Nat} {o o' : Outcome} (h : AlikeButPrio o o')
    (hrun : ∀ s t : State, s.sameButPrio t →
      AlikeButPrio (Host.Core.run Sys2Proof.core k s) (Host.Core.run Sys2Proof.core k t)) :
    AlikeButPrio (runAfter Sys2Proof.core k o) (runAfter Sys2Proof.core k o') := by
  cases o with
  | next s =>
    cases o' with
    | next t => exact hrun s t h
    | fault _ | refused _ => exact h.elim
  | fault why =>
    cases o' with
    | fault _ => exact h
    | next _ | refused _ => exact h.elim
  | refused why =>
    cases o' with
    | refused _ => exact h
    | next _ | fault _ => exact h.elim

/-- Settles O41, by induction on the length of the run. -/
theorem priorityWeightsCannotBeObserved : Obligations.PriorityWeightsCannotBeObserved := by
  intro k
  induction k with
  | zero => exact fun s t h => h
  | succ k ih =>
    intro s t h
    obtain ⟨P, rfl⟩ := sameButPrio_iff.1 h
    rw [run_succ Sys2Proof.core k s, run_succ Sys2Proof.core k (s.withPrio P)]
    exact alike_runAfter (step_alikeButPrio s P) ih

end Sys2Proof.Machine
end

section
/-! Spec/46_spp_packet.md as theorems: what `SPP_PKT_NEW` builds from its options (R260, R261), the
parts `SPP_PKT_ENCODE` writes (R262), the packet `SPP_PKT_DECODE` assembles from its parts (R263), and
from these the round trip (R265). Both directions of a packet's wire form go through `Readable`, which
says for which headers the octets written are the octets read back (C3). -/

namespace Sys2Proof.Machine

/-! ## Validation -/

/-- Settles O45: the model's test is the four clauses (`sppPktValid_iff`), on the size that
`sppPktSize_eq` counts. -/
theorem sppPktValidateTestsFourClauses : Obligations.SppPktValidateTestsFourClauses := by
  rintro p s total htotal
  rw [← sppPktSize_eq] at htotal
  subst htotal
  exact ⟨fun hv => answer_ok (if_pos (sppPktValid_iff.2 hv)),
    fun hv => answer_error (if_neg (mt sppPktValid_iff.1 hv))⟩

theorem sppPktValid_of_exec_ok {p : SpacePacket} {s : State}
    (h : exec (.sppPktValidate p) s = .next (s.respond (.ok .unit))) : sppPktValid p = true := by
  obtain ⟨_, hcheck, -⟩ := answer_ok_inv h
  unfold sppPktCheck at hcheck
  split at hcheck
  next hvalid => exact hvalid
  · cases hcheck

/-! ## Construction -/

/-- R261: the secondary header an option attaches. -/
def optionSec : SppOption → Option SppSecondaryHeader
  | .withSecondaryHeader sh => some sh
  | .withErrorControl _ => none

/-- R261: the error control word an option attaches. -/
def optionCrc : SppOption → Option Word16
  | .withSecondaryHeader _ => none
  | .withErrorControl c => some c

/-- R261: a packet after options that all succeed: the last option of a kind decides its field. -/
def withOptions (p : SpacePacket) (os : List SppOption) : SpacePacket :=
  { header := { p.header with
      secHdrFlag := if (os.filterMap optionSec).getLast?.isSome then 1 else p.header.secHdrFlag }
    sec := (os.filterMap optionSec).getLast?.or p.sec
    userData := p.userData
    errorControl := (os.filterMap optionCrc).getLast?.or p.errorControl }

/-- R261: no option attaches a secondary header with a zero timestamp. -/
abbrev OptionsValid (os : List SppOption) : Prop :=
  ∀ sh, SppOption.withSecondaryHeader sh ∈ os → sh.timestamp ≠ 0

theorem applyOption_withSecondaryHeader {p : SpacePacket} {sh : SppSecondaryHeader}
    (hts : sh.timestamp ≠ 0) :
    applyOption p (.withSecondaryHeader sh) = .ok (withOptions p [.withSecondaryHeader sh]) :=
  if_pos (decide_eq_true hts)

theorem applyOption_withErrorControl (p : SpacePacket) (c : Word16) :
    applyOption p (.withErrorControl c) = .ok (withOptions p [.withErrorControl c]) := rfl

theorem applyOption_of_zero_timestamp {p : SpacePacket} {sh : SppSecondaryHeader}
    (hts : sh.timestamp = 0) :
    applyOption p (.withSecondaryHeader sh) = .error .validationError :=
  if_neg (by simp [sppShValid, hts])

/-- Options one after the other are the options together. -/
theorem withOptions_cons (p : SpacePacket) (o : SppOption) (os : List SppOption) :
    withOptions (withOptions p [o]) os = withOptions p (o :: os) := by
  cases o with
  | withSecondaryHeader sh =>
    cases h : (os.filterMap optionSec).getLast? <;>
      simp [withOptions, optionSec, optionCrc, List.getLast?_cons, h]
  | withErrorControl c =>
    cases h : (os.filterMap optionCrc).getLast? <;>
      simp [withOptions, optionSec, optionCrc, List.getLast?_cons, h]

theorem applyOptions_of_valid {os : List SppOption} (hos : OptionsValid os) (p : SpacePacket) :
    applyOptions p os = .ok (withOptions p os) := by
  induction os generalizing p with
  | nil => rfl
  | cons o os ih =>
    have hstep : applyOption p o = .ok (withOptions p [o]) := by
      cases o with
      | withSecondaryHeader sh => exact applyOption_withSecondaryHeader (hos sh (by simp))
      | withErrorControl c => exact applyOption_withErrorControl p c
    have hrest : OptionsValid os := fun sh hsh => hos sh (by simp [hsh])
    rw [applyOptions, hstep]
    exact (ih hrest _).trans (congrArg Except.ok (withOptions_cons p o os))

/-- R260: the first option that fails aborts construction, whatever the ones before it did. -/
theorem applyOptions_of_zero_timestamp {os : List SppOption} {sh : SppSecondaryHeader}
    (hsh : SppOption.withSecondaryHeader sh ∈ os) (hts : sh.timestamp = 0) (p : SpacePacket) :
    applyOptions p os = .error .validationError := by
  induction os generalizing p with
  | nil => cases hsh
  | cons o os ih =>
    unfold applyOptions
    rcases List.mem_cons.1 hsh with rfl | hrest
    · rw [applyOption_of_zero_timestamp hts]
    · cases applyOption p o with
      | error e => rfl
      | ok p' => exact ih hrest p'

theorem sppPktNew_of_tests {apid : Word16} {data : Bytes} (hapid : apid ≤ 2047)
    (hpos : 1 ≤ data.length) (hmax : data.length ≤ 65536) (type : Byte) (os : List SppOption) :
    sppPktNew apid type data os = applyOptions (sppPktBase apid type data) os :=
  (if_neg (Nat.not_lt.2 (BitVec.le_def.1 hapid))).trans (if_neg (by omega))

/-- R260: every cause of failure has the same answer, so their order does not show. -/
theorem sppPktNew_of_failed_test {apid : Word16} {data : Bytes} {os : List SppOption}
    (hbad : 2047 < apid ∨ data = [] ∨ 65536 < data.length ∨
      ∃ sh, SppOption.withSecondaryHeader sh ∈ os ∧ sh.timestamp = 0) (type : Byte) :
    sppPktNew apid type data os = .error .validationError := by
  unfold sppPktNew
  split
  · rfl
  next hapid =>
    split
    · rfl
    next hlen =>
      rcases hbad with hlarge | rfl | hlong | ⟨sh, hsh, hts⟩
      · exact absurd (BitVec.lt_def.1 hlarge) hapid
      · exact absurd (.inl (by decide)) hlen
      · exact absurd (.inr (by omega)) hlen
      · exact applyOptions_of_zero_timestamp hsh hts _

/-- Settles O42: with the tests passed the packet is `withOptions` of the default packet; a failed
test and an option with a zero timestamp have the same answer. -/
theorem sppPktNewBuildsPacket : Obligations.SppPktNewBuildsPacket := by
  refine fun apid type data os s => ⟨fun hapid hpos hmax hos => ?_,
    fun hbad => answer_error (sppPktNew_of_failed_test hbad type)⟩
  have hnew := (sppPktNew_of_tests hapid hpos hmax type os).trans (applyOptions_of_valid hos _)
  have hlength : (BitVec.ofNat 16 (data.length - 1)).toNat + 1 = data.length := by
    rw [BitVec.toNat_ofNat, Nat.mod_eq_of_lt (by omega)]
    omega
  exact ⟨_, answer_ok hnew, rfl, rfl, rfl, rfl, rfl, hlength, rfl, Option.or_none,
    by simp [withOptions, sppPktBase], Option.or_none⟩

/-! ## Serialisation -/

theorem sppPktSec_of_unflagged {p : SpacePacket} (hflag : p.header.secHdrFlag = 0) :
    sppPktSec p = .ok [] :=
  if_neg (by rw [hflag]; decide)

theorem sppPktSec_of_missing {p : SpacePacket} (hflag : p.header.secHdrFlag = 1)
    (hsec : p.sec = none) : sppPktSec p = .error .secondaryHeaderMissing := by
  rw [sppPktSec, if_pos hflag, hsec]

section
variable {p : SpacePacket} {sh : SppSecondaryHeader}

theorem sppPktSec_of_tags (hflag : p.header.secHdrFlag = 1) (hsec : p.sec = some sh)
    (htags : ∀ f ∈ sh.otherFields, f.tag = 1) :
    sppPktSec p = .ok (be64 sh.timestamp ++ sh.otherFields.flatMap fieldOctets) := by
  rcases sppShEnc_cases sh with ⟨-, henc⟩ | ⟨⟨f, hf, hbad⟩, -⟩
  · simp only [sppPktSec, if_pos hflag, hsec, henc]
  · exact absurd (htags f hf) hbad

theorem sppPktSec_of_bad_tag (hflag : p.header.secHdrFlag = 1) (hsec : p.sec = some sh)
    (hbad : ∃ f ∈ sh.otherFields, f.tag ≠ 1) : sppPktSec p = .error .unsupportedFieldType := by
  obtain ⟨f, hf, htag⟩ := hbad
  rcases sppShEnc_cases sh with ⟨htags, -⟩ | ⟨-, henc⟩
  · exact absurd (htags f hf) htag
  · simp only [sppPktSec, if_pos hflag, hsec, henc]

end

/-- R262: the parts in order, once the secondary header's octets are known. -/
theorem exec_sppPktEncode_of_sec {p : SpacePacket} {sec : Bytes} (r : SppPhInRange p.header)
    (hsec : sppPktSec p = .ok sec) (s : State) :
    exec (.sppPktEncode p) s = .next (s.respond (.ok (.bytes
      (sppPhPack p.header ++ sec ++ p.userData ++ sppPktTrailer p)))) := by
  refine answer_ok ((if_pos (sppPhValid_iff.2 r)).trans ?_)
  rw [hsec]

theorem exec_sppPktEncode_of_sec_error {p : SpacePacket} {e : ErrorStatus}
    (r : SppPhInRange p.header) (hsec : sppPktSec p = .error e) (s : State) :
    exec (.sppPktEncode p) s = .next (s.respond (.fail e)) := by
  refine answer_error ((if_pos (sppPhValid_iff.2 r)).trans ?_)
  rw [hsec]

/-- Settles O43: the header is in range or not, and then each clause is one value of `sppPktSec`. -/
theorem sppPktEncodeWritesPartsInOrder : Obligations.SppPktEncodeWritesPartsInOrder := by
  intro p s
  rw [← sppPktTrailer_eq]
  refine ⟨rfl, fun r hflag => ⟨_, exec_sppPhEnc_of_inRange r s, ?_⟩,
    fun sh r hflag hsec htags => ⟨_, _, exec_sppPhEnc_of_inRange r s, exec_sppShEnc_of_tags htags s,
      exec_sppPktEncode_of_sec r (sppPktSec_of_tags hflag hsec htags) s⟩,
    fun r => answer_error (if_neg (mt sppPhValid_iff.1 r)),
    fun r hflag hsec => exec_sppPktEncode_of_sec_error r (sppPktSec_of_missing hflag hsec) s,
    fun sh r hflag hsec hbad =>
      exec_sppPktEncode_of_sec_error r (sppPktSec_of_bad_tag hflag hsec hbad) s⟩
  rw [exec_sppPktEncode_of_sec r (sppPktSec_of_unflagged hflag), List.append_nil]

/-! ## Parsing: the secondary header block -/

/-- R263 (C3): the octets `SPP_PKT_DECODE` takes for a secondary header, those of its timestamp. -/
def secBlock : Option SppSecondaryHeader → Bytes
  | none => []
  | some sh => be64 sh.timestamp

/-- R265: a secondary header, where there is one, has no fields. -/
abbrev NoFields (sec : Option SppSecondaryHeader) : Prop :=
  ∀ sh, sec = some sh → sh.otherFields = []

/-- R33, R263: headers that can be read back: the flag says whether there is a secondary header, and
`secBlock` is all of it. -/
structure Readable (h : SppPrimaryHeader) (sec : Option SppSecondaryHeader) : Prop where
  inRange : SppPhInRange h
  flagAgrees : h.secHdrFlag = if sec.isSome then 1 else 0
  noFields : NoFields sec

theorem Readable.unflagged {h : SppPrimaryHeader} (r : SppPhInRange h) (hflag : h.secHdrFlag = 0) :
    Readable h none := ⟨r, hflag, nofun⟩

theorem Readable.timestamp {h : SppPrimaryHeader} (r : SppPhInRange h) (hflag : h.secHdrFlag = 1)
    (ts : Word64) : Readable h (some { timestamp := ts, otherFields := [] }) :=
  ⟨r, hflag, fun _ hsh => by cases hsh; rfl⟩

/-- R262: what is written for a readable secondary header is what is read for it. -/
theorem sppPktSec_of_readable {p : SpacePacket} (hread : Readable p.header p.sec) :
    sppPktSec p = .ok (secBlock p.sec) := by
  obtain ⟨-, hflag, hfields⟩ := hread
  cases hsec : p.sec with
  | none => exact sppPktSec_of_unflagged (by simpa [hsec] using hflag)
  | some sh =>
    have hnil := hfields sh hsec
    have hwritten := sppPktSec_of_tags (by simpa [hsec] using hflag) hsec (by simp [hnil])
    simpa [hnil, secBlock] using hwritten

theorem sppPktDecodeSec_block {h : SppPrimaryHeader} {sec : Option SppSecondaryHeader}
    (hread : Readable h sec) (rest : Bytes) :
    sppPktDecodeSec h (secBlock sec ++ rest) = .ok (sec, rest) := by
  cases sec with
  | none => exact if_neg (by rw [hread.flagAgrees]; decide)
  | some sh =>
    have hflag : h.secHdrFlag = 1 := hread.flagAgrees
    have hu64 : readU64 (secBlock (some sh) ++ rest) = some (sh.timestamp, rest) :=
      readU64_be64 sh.timestamp rest
    rw [sppPktDecodeSec, if_pos hflag, hu64, ← hread.noFields sh rfl]

/-- R263 (C3): no decoded packet has fields in its secondary header. -/
theorem noFields_of_sppPktDecodeSec {h : SppPrimaryHeader} {B rest : Bytes}
    {sec : Option SppSecondaryHeader} (hdec : sppPktDecodeSec h B = .ok (sec, rest)) :
    NoFields sec := by
  unfold sppPktDecodeSec at hdec
  split at hdec
  · split at hdec
    · cases hdec
    · cases hdec
      rintro _ ⟨⟩
      rfl
  · cases hdec
    rintro _ ⟨⟩

theorem noFields_of_sppPktDecode {B : Bytes} {p : SpacePacket} (hdec : sppPktDecode B = .ok p) :
    NoFields p.sec := by
  unfold sppPktDecode at hdec
  split at hdec
  · cases hdec
  · split at hdec
    · cases hdec
    next hsec =>
      split at hdec
      · cases hdec
        exact noFields_of_sppPktDecodeSec hsec
      · cases hdec

/-! ## Parsing: the packet and its validation -/

/-- R263: after the headers the packet is assembled, and the answer is that of its validation. -/
theorem exec_sppPktDecode_block {h : SppPrimaryHeader} {sec : Option SppSecondaryHeader}
    (hread : Readable h sec) (rest : Bytes) (s : State) :
    exec (.sppPktDecode (sppPhPack h ++ (secBlock sec ++ rest))) s =
      if sppPktValid (sppPktAssemble h sec rest) then
        .next (s.respond (.ok (.packet (sppPktAssemble h sec rest))))
      else .next (s.respond (.fail .validationError)) := by
  have hdec := sppPktDecode_header hread.inRange (secBlock sec ++ rest)
  rw [sppPktDecodeSec_block hread] at hdec
  by_cases hvalid : sppPktValid (sppPktAssemble h sec rest) = true
  · rw [if_pos hvalid]
    exact answer_ok (hdec.trans (if_pos hvalid))
  · rw [if_neg hvalid]
    exact answer_error (hdec.trans (if_neg hvalid))

theorem sppPktAssemble_append {h : SppPrimaryHeader} {data : Bytes}
    (hdata : data.length = h.packetLength.toNat + 1) (sec : Option SppSecondaryHeader)
    (tail : Bytes) :
    sppPktAssemble h sec (data ++ tail) =
      { header := h, sec := sec, userData := data, errorControl := sppPktDecodeTrailer tail } := by
  simp only [sppPktAssemble, List.take_left' hdata, List.drop_left' hdata]

theorem sppPktDecodeTrailer_trailer (p : SpacePacket) :
    sppPktDecodeTrailer (sppPktTrailer p) = p.errorControl := by
  unfold sppPktTrailer
  cases p.errorControl with
  | none => rfl
  | some c => exact congrArg (Option.map Prod.fst) (readU16_be16 c [])

/-! ## The round trip -/

/-- Settles O46: the encoding is the header, `secBlock`, the user data and the error control word,
from which the packet is assembled again; a decoded secondary header has no fields. -/
theorem sppPktRoundTrip : Obligations.SppPktRoundTrip := by
  refine fun p s hexec hflag => ⟨fun hfields => ?_, fun ⟨sh, hsec, hne⟩ ⟨B, _, hdec⟩ => ?_⟩
  · have hvalid := sppPktValid_of_exec_ok hexec
    obtain ⟨r, -, hdata, -, -⟩ := sppPktValid_iff.1 hvalid
    have hread : Readable p.header p.sec := ⟨r, hflag, hfields⟩
    have hassemble : sppPktAssemble p.header p.sec (p.userData ++ sppPktTrailer p) = p := by
      rw [sppPktAssemble_append hdata, sppPktDecodeTrailer_trailer]
    refine ⟨_, exec_sppPktEncode_of_sec r (sppPktSec_of_readable hread) s, ?_⟩
    rw [List.append_assoc, List.append_assoc, exec_sppPktDecode_block hread, hassemble,
      if_pos hvalid]
  · obtain ⟨p', hp', hres⟩ := answer_ok_inv hdec
    cases hres
    exact hne (noFields_of_sppPktDecode hp' sh hsec)

/-! ## Parsing: the statement -/

theorem sppPktDecodeTrailer_eq (tail : Bytes) :
    sppPktDecodeTrailer tail = match tail with | hi :: lo :: _ => some (hi ++ lo) | _ => none := by
  match tail with
  | [] => rfl
  | [_] => rfl
  | _ :: _ :: _ => rfl

theorem sppPktDecode_of_short_header {B : Bytes} (hB : B.length < 6) :
    sppPktDecode B = .error .malformedHeader := by
  rw [sppPktDecode, sppPhDec_short hB]

theorem sppPktDecode_of_short_timestamp {h : SppPrimaryHeader} (r : SppPhInRange h)
    (hflag : h.secHdrFlag = 1) {T : Bytes} (hT : T.length < 8) :
    sppPktDecode (sppPhPack h ++ T) = .error .malformedHeader := by
  rw [sppPktDecode_header r, sppPktDecodeSec, if_pos hflag, readU64_short hT]

section
variable {h : SppPrimaryHeader} {sec : Option SppSecondaryHeader} {data tail : Bytes}

/-- R263: the octets that make up the packet, those after the error control word not among them. -/
abbrev octetsTaken (sec : Option SppSecondaryHeader) (data tail : Bytes) : Nat :=
  6 + (secBlock sec).length + data.length + if 2 ≤ tail.length then 2 else 0

/-- R263, R264: on a decoded packet the size counted from the record is the size on the wire. -/
theorem sppPktSize_assemble (hfields : NoFields sec)
    (hdata : data.length = h.packetLength.toNat + 1) :
    sppPktSize (sppPktAssemble h sec (data ++ tail)) = octetsTaken sec data tail := by
  have hsec : (sec.map fun sh =>
      8 + (sh.otherFields.map fun f => 5 + f.key.length + f.value.length).sum).getD 0 =
      (secBlock sec).length := by
    cases sec with
    | none => rfl
    | some sh => simp [secBlock, hfields sh rfl]
  have hcrc : (sppPktDecodeTrailer tail).isSome = true ↔ 2 ≤ tail.length := by
    match tail with
    | [] => decide
    | [_] => simp [sppPktDecodeTrailer, readU16]
    | _ :: _ :: _ => simp [sppPktDecodeTrailer, readU16]
  rw [sppPktSize_eq, sppPktAssemble_append hdata]
  simp only [hsec, hcrc]

variable (hread : Readable h sec) (s : State)
include hread

theorem exec_sppPktDecode_whole {w : Option Word16}
    (hdata : data.length = h.packetLength.toNat + 1)
    (hts : ∀ sh, sec = some sh → sh.timestamp ≠ 0) (hsize : octetsTaken sec data tail ≤ 65542)
    (hw : sppPktDecodeTrailer tail = w) :
    exec (.sppPktDecode (sppPhPack h ++ (secBlock sec ++ (data ++ tail)))) s =
      .next (s.respond (.ok (.packet
        { header := h, sec := sec, userData := data, errorControl := w }))) := by
  have hpacket := hw ▸ sppPktAssemble_append hdata sec tail
  have htotal := sppPktSize_assemble (tail := tail) hread.noFields hdata
  have hmin : 7 ≤ octetsTaken sec data tail := by
    unfold octetsTaken
    omega
  have hvalid : sppPktValid (sppPktAssemble h sec (data ++ tail)) = true := by
    rw [sppPktValid_iff, htotal, hpacket]
    exact ⟨hread.inRange, hts, hdata, hmin, hsize⟩
  rw [exec_sppPktDecode_block hread, if_pos hvalid, hpacket]

theorem exec_sppPktDecode_oversize (hdata : data.length = h.packetLength.toNat + 1)
    (hsize : 65542 < octetsTaken sec data tail) :
    exec (.sppPktDecode (sppPhPack h ++ (secBlock sec ++ (data ++ tail)))) s =
      .next (s.respond (.fail .validationError)) := by
  refine (exec_sppPktDecode_block hread _ s).trans (if_neg fun hvalid => ?_)
  obtain ⟨-, -, -, -, hmax⟩ := sppPktValid_iff.1 hvalid
  rw [sppPktSize_assemble hread.noFields hdata] at hmax
  omega

/-- R263: user data cut short by the end of the buffer is found by validation. -/
theorem exec_sppPktDecode_short_data (hdata : data.length ≤ h.packetLength.toNat) :
    exec (.sppPktDecode (sppPhPack h ++ (secBlock sec ++ data))) s =
      .next (s.respond (.fail .validationError)) := by
  refine (exec_sppPktDecode_block hread _ s).trans (if_neg fun hvalid => ?_)
  obtain ⟨-, -, hlen, -, -⟩ := sppPktValid_iff.1 hvalid
  simp only [sppPktAssemble, List.length_take] at hlen
  omega

theorem exec_sppPktDecode_zero_timestamp {sh : SppSecondaryHeader} (hsec : sec = some sh)
    (hts : sh.timestamp = 0) (rest : Bytes) :
    exec (.sppPktDecode (sppPhPack h ++ (secBlock sec ++ rest))) s =
      .next (s.respond (.fail .validationError)) := by
  refine (exec_sppPktDecode_block hread _ s).trans (if_neg fun hvalid => ?_)
  obtain ⟨-, hne, -, -, -⟩ := sppPktValid_iff.1 hvalid
  exact hne sh hsec hts

end

/-- Settles O44: `sec` is `none` without the flag, and a bare timestamp with it; each clause is the
test of its name. -/
theorem sppPktDecodeParsesParts : Obligations.SppPktDecodeParsesParts := by
  intro h T data tail s r
  refine ⟨_, exec_sppPhEnc_of_inRange r s, ?_⟩
  simp only [List.append_assoc]
  refine ⟨fun hflag hdata hfits => ?_, fun hflag hdata hfits ts hts => ?_,
    fun hflag hdata hlong => ?_, fun hflag hdata hlong ts => ?_,
    fun hflag hT => answer_error (sppPktDecode_of_short_timestamp r hflag hT),
    fun hflag hdata => exec_sppPktDecode_short_data (.unflagged r hflag) s hdata,
    fun hflag hT hdata => ?_,
    fun hflag => exec_sppPktDecode_zero_timestamp (.timestamp r hflag 0) s rfl rfl _,
    fun n hn => answer_error (sppPktDecode_of_short_header ?_)⟩
  · refine exec_sppPktDecode_whole (.unflagged r hflag) s hdata (by simp) ?_
      (sppPktDecodeTrailer_eq tail)
    simp only [octetsTaken, secBlock, List.length_nil]
    split <;> omega
  · refine exec_sppPktDecode_whole (.timestamp r hflag ts) s hdata (by simpa using hts) ?_
      (sppPktDecodeTrailer_eq tail)
    simp only [octetsTaken, secBlock, be64_length]
    split <;> omega
  · refine exec_sppPktDecode_oversize (.unflagged r hflag) s hdata ?_
    simp only [octetsTaken, secBlock, List.length_nil]
    split <;> omega
  · refine exec_sppPktDecode_oversize (.timestamp r hflag ts) s hdata ?_
    simp only [octetsTaken, secBlock, be64_length]
    split <;> omega
  · obtain ⟨ts, rfl⟩ := exists_be64_eq hT
    exact exec_sppPktDecode_short_data (.timestamp r hflag ts) s hdata
  · rw [List.length_take]
    omega

end Sys2Proof.Machine
end

section
/-! Spec/60_exceptions.md as theorems: a failure changes nothing but the response (R320), and the status
octets and who answers with which error (R300). An error is followed from the computation that ends in
it (`ErrorsAmong`) through the shared operations to the command (`FailsAmong`), and compared there with
the column of R300's table (`listedErrors`). -/

namespace Sys2Proof.Machine

/-! ## A failure changes nothing but the response -/

/-- Settles O50: of the things `exec_cases` says a command can do, only the one that writes nothing but
the response can end in an error. -/
theorem failureChangesNothing : Obligations.FailureChangesNothing := by
  intro i s t e h hfail
  rcases exec_cases h with ⟨r, rfl, -⟩ | ⟨c, r, rfl, -⟩ | ⟨v, n, -, -, -, rfl⟩ |
    ⟨v, f, -, -, -, rfl⟩ | ⟨v, f, q, -, -, -, rfl⟩ | ⟨v, p, -, -, rfl⟩ | ⟨v, p, f, q, -, -, -, rfl⟩
  · obtain rfl : r = .fail e := Option.some.inj hfail
    rfl
  all_goals cases hfail

/-! ## The errors a computation can end in -/

/-- R300: a computation ends in none but the errors of a list. -/
def ErrorsAmong {α : Type} (L : List ErrorStatus) (x : Except ErrorStatus α) : Prop :=
  ∀ e, x = .error e → e ∈ L

section
variable {α : Type} {L : List ErrorStatus}

@[simp] theorem errorsAmong_ok (a : α) : ErrorsAmong L (.ok a : Except ErrorStatus α) := by
  rintro e ⟨⟩

@[simp] theorem errorsAmong_error {e : ErrorStatus} :
    ErrorsAmong L (.error e : Except ErrorStatus α) ↔ e ∈ L := by
  simp [ErrorsAmong]

theorem ErrorsAmong.mono {L' : List ErrorStatus} {x : Except ErrorStatus α} (h : ErrorsAmong L x)
    (hL : L ⊆ L') : ErrorsAmong L' x := fun e he => hL (h e he)

/-- An error met on the way is passed on as it is. -/
theorem ErrorsAmong.rethrow {β : Type} {x : Except ErrorStatus β} {e : ErrorStatus}
    (h : ErrorsAmong L x) (he : x = .error e) : ErrorsAmong L (.error e : Except ErrorStatus α) :=
  errorsAmong_error.2 (h e he)

theorem ErrorsAmong.ite {p : Prop} [Decidable p] {x y : Except ErrorStatus α} (hx : ErrorsAmong L x)
    (hy : ErrorsAmong L y) : ErrorsAmong L (if p then x else y) := by
  split
  · exact hx
  · exact hy

/-- R130, R134, R160, R170, R264: a validation. -/
theorem errorsAmong_test {p : Prop} [Decidable p] (a : α) (e : ErrorStatus) :
    ErrorsAmong [e] (if p then .ok a else .error e) :=
  .ite (errorsAmong_ok a) (errorsAmong_error.2 (List.mem_singleton_self e))

end

/-! ### The SPP headers -/

theorem sppPhDec_errors (B : Bytes) : ErrorsAmong [.malformedHeader] (sppPhDec B) := by
  rcases Nat.lt_or_ge B.length 6 with hshort | hlong
  · simp [sppPhDec_short hshort]
  · match B, hlong with
    | b0 :: b1 :: b2 :: b3 :: b4 :: b5 :: rest, _ => simp [sppPhDec_six]

theorem sppShEnc_errors (sh : SppSecondaryHeader) :
    ErrorsAmong [.unsupportedFieldType] (sppShEnc sh) := by
  rcases sppShEnc_cases sh with ⟨-, henc⟩ | ⟨-, henc⟩ <;> simp [henc]

theorem sppFieldRead_errors (B : Bytes) :
    ErrorsAmong [.malformedHeader, .unsupportedFieldType] (sppFieldRead B) := by
  unfold sppFieldRead
  split
  · simp
  next kl B1 _ =>
    split
    · simp
    · simp
    next key tag B2 _ =>
      refine .ite ?_ (by simp)
      split
      · simp
      · split <;> simp

/-- R136: the loop adds no error to those of its turns. -/
theorem sppFieldsRead_errors (n : Nat) (B : Bytes) :
    ErrorsAmong [.malformedHeader, .unsupportedFieldType] (sppFieldsRead n B) := by
  induction n generalizing B with
  | zero => cases B <;> simp [sppFieldsRead]
  | succ n ih =>
    cases B with
    | nil => simp [sppFieldsRead]
    | cons b B =>
      simp only [sppFieldsRead]
      split
      next e he => exact (sppFieldRead_errors _).rethrow he
      next f rest _ =>
        split
        next e he => exact (ih rest).rethrow he
        next fs _ => exact errorsAmong_ok _

theorem sppShDec_errors (B : Bytes) :
    ErrorsAmong [.malformedHeader, .unsupportedFieldType] (sppShDec B) := by
  unfold sppShDec
  split
  · simp
  next ts rest _ =>
    split
    next e he => exact (sppFieldsRead_errors _ rest).rethrow he
    next fs _ => exact errorsAmong_ok _

/-! ### The TM headers -/

theorem tmPhDec_errors (B : Bytes) : ErrorsAmong [.malformedHeader] (tmPhDec B) := by
  rcases tmPhDec_cases B with ⟨-, hdec⟩ | ⟨h, rest, -, -, ⟨-, hdec⟩ | ⟨-, hdec⟩⟩ <;> simp [hdec]

theorem tmShDec_errors (cfg : Config) (B : Bytes) :
    ErrorsAmong [.malformedHeader] (tmShDec cfg B) := by
  rcases tmShDec_cases cfg B with ⟨b, rest, -, -, -, hdec⟩ | ⟨-, hdec⟩ <;> simp [hdec]

/-! ### The TM frames -/

theorem frameBody_errors (cfg : Config) (f : Frame) :
    ErrorsAmong [.validationError] (frameBody cfg f) := by
  rcases frameBody_cases cfg f with ⟨-, hbody⟩ | ⟨-, hbody⟩ <;> simp [hbody]

theorem tmfEncode_errors (cfg : Config) (f : Frame) :
    ErrorsAmong [.validationError] (tmfEncode cfg f) := by
  unfold tmfEncode
  split
  next e he => exact (frameBody_errors cfg f).rethrow he
  next B _ => exact errorsAmong_ok _

theorem tmfNew_errors (cfg : Config) (scid : Word16) (vcid : Byte) (data sh : Bytes)
    (ocf : Option Octets4) (sync : Bool) :
    ErrorsAmong [.validationError, .malformedHeader] (tmfNew cfg scid vcid data sh ocf sync) := by
  rcases tmfNew_cases cfg scid vcid data sh ocf sync with ⟨-, hnew⟩ | ⟨-, -, hnew⟩ |
    ⟨-, -, ⟨-, -, hnew⟩ | ⟨-, -, B, -, hnew⟩⟩ <;> simp [hnew]

theorem tmfDecodeBody_errors (cfg : Config) (h : TmPrimaryHeader) (body : Bytes) (rx : Word16) :
    ErrorsAmong [.malformedHeader] (tmfDecodeBody cfg h body rx) := by
  unfold tmfDecodeBody
  rcases tmfDecodeSec_cases cfg h body with ⟨-, hsec⟩ | ⟨-, -, -, sh, hsec⟩ | ⟨-, -, hsec⟩ <;>
    simp [hsec]

/-- R194: the right code is the one test that does not answer `MalformedHeader`. -/
theorem tmfDecode_errors (cfg : Config) (B : Bytes) :
    ErrorsAmong [.malformedHeader, .integrityError] (tmfDecode cfg B) := by
  unfold tmfDecode
  refine .ite (by simp) ?_
  split
  · simp
  next h _ =>
    exact .ite (by simp) (.ite (by simp) ((tmfDecodeBody_errors cfg h _ _).mono (by simp)))

/-! ### The SPP packets -/

theorem applyOptions_errors (p : SpacePacket) (os : List SppOption) :
    ErrorsAmong [.validationError] (applyOptions p os) := by
  induction os generalizing p with
  | nil => exact errorsAmong_ok p
  | cons o os ih =>
    unfold applyOptions
    split
    · simp
    next p' _ => exact ih p'

theorem sppPktNew_errors (apid : Word16) (type : Byte) (data : Bytes) (os : List SppOption) :
    ErrorsAmong [.validationError] (sppPktNew apid type data os) :=
  .ite (by simp) (.ite (by simp) (applyOptions_errors _ os))

theorem sppPktSec_errors (p : SpacePacket) :
    ErrorsAmong [.unsupportedFieldType, .secondaryHeaderMissing] (sppPktSec p) := by
  unfold sppPktSec
  refine .ite ?_ (errorsAmong_ok [])
  split
  · simp
  · split <;> simp

theorem sppPktEncode_errors (p : SpacePacket) :
    ErrorsAmong [.validationError, .unsupportedFieldType, .secondaryHeaderMissing]
      (sppPktEncode p) := by
  unfold sppPktEncode
  refine .ite ?_ (by simp)
  split
  next e he => exact ((sppPktSec_errors p).mono (by simp)).rethrow he
  next sec _ => exact errorsAmong_ok _

theorem sppPktDecodeSec_errors (h : SppPrimaryHeader) (rest : Bytes) :
    ErrorsAmong [.malformedHeader] (sppPktDecodeSec h rest) := by
  unfold sppPktDecodeSec
  refine .ite ?_ (errorsAmong_ok _)
  split <;> simp

theorem sppPktDecode_errors (B : Bytes) :
    ErrorsAmong [.validationError, .malformedHeader] (sppPktDecode B) := by
  unfold sppPktDecode
  split
  next e he => exact ((sppPhDec_errors B).mono (by simp)).rethrow he
  next h _ =>
    split
    next e he => exact ((sppPktDecodeSec_errors h _).mono (by simp)).rethrow he
    next sec rest _ => exact .ite (errorsAmong_ok _) (by simp)

/-! ## The errors a command can answer with -/

/-- R300: the outcome answers with none but the errors of a list. -/
def FailsAmong (L : List ErrorStatus) (o : Outcome) : Prop :=
  ∀ t e, o = .next t → t.response = some (.fail e) → e ∈ L

section
variable {L : List ErrorStatus}

theorem failsAmong_ok (s : State) (r : Result) : FailsAmong L (s.ok r) := by
  rintro t e ⟨⟩ ⟨⟩

theorem failsAmong_fail (s : State) {e : ErrorStatus} (he : e ∈ L) : FailsAmong L (s.fail e) := by
  rintro t e' ⟨⟩ ⟨⟩
  exact he

theorem failsAmong_refused (why : Refusal) : FailsAmong L (.refused why) := by
  rintro t e ⟨⟩

/-- A command that only answers fails with the errors of its computation. -/
theorem ErrorsAmong.answer {α : Type} {x : Except ErrorStatus α} (h : ErrorsAmong L x) (s : State)
    (r : α → Result) : FailsAmong L (s.answer x r) := by
  cases x with
  | ok a => exact failsAmong_ok s (r a)
  | error e => exact failsAmong_fail s (errorsAmong_error.1 h)

theorem FailsAmong.ite {p : Prop} [Decidable p] {a b : Outcome} (ha : FailsAmong L a)
    (hb : FailsAmong L b) : FailsAmong L (if p then a else b) := by
  split
  · exact ha
  · exact hb

end

/-- R136: the refusal of a repeated key (log 6) is no error status. -/
theorem execSppShDec_fails (B : Bytes) (s : State) :
    FailsAmong [.malformedHeader, .unsupportedFieldType] (execSppShDec B s) := by
  unfold execSppShDec
  split
  next e he => exact failsAmong_fail s (sppShDec_errors B e he)
  next sh _ => exact .ite (failsAmong_ok s _) (failsAmong_refused _)

theorem execVcCreate_fails (v : Vcid) (n : Nat) (s : State) :
    FailsAmong [.validationError, .channelExists] (execVcCreate v n s) :=
  .ite (failsAmong_fail s (by simp)) (.ite (failsAmong_ok _ _) (failsAmong_fail s (by simp)))

theorem execVcAddFrame_fails (v : Vcid) (f : Frame) (s : State) :
    FailsAmong [.bufferFull, .channelNotFound] (execVcAddFrame v f s) :=
  .ite (.ite (failsAmong_fail s (by simp)) (failsAmong_ok _ _)) (failsAmong_fail s (by simp))

theorem execVcGetNextFrame_fails (v : Vcid) (s : State) :
    FailsAmong [.empty, .channelNotFound] (execVcGetNextFrame v s) := by
  refine .ite ?_ (failsAmong_fail s (by simp))
  split
  · exact failsAmong_fail s (by simp)
  · exact failsAmong_ok _ _

theorem execVcHasFrames_fails (v : Vcid) (s : State) :
    FailsAmong [.channelNotFound] (execVcHasFrames v s) :=
  .ite (failsAmong_ok s _) (failsAmong_fail s (by simp))

theorem execMuxAddChannel_fails (v : Vcid) (p : Int) (s : State) :
    FailsAmong [.channelNotFound] (execMuxAddChannel v p s) :=
  .ite (failsAmong_ok _ _) (failsAmong_fail s (by simp))

theorem execMuxGetNextFrame_fails (s : State) :
    FailsAmong [.noFramesAvailable, .noChannels] (execMuxGetNextFrame s) := by
  refine .ite (failsAmong_fail s (by simp)) ?_
  split
  · exact failsAmong_fail s (by simp)
  · exact failsAmong_ok _ _

/-! ## R300's table -/

/-- R300: the errors whose row lists an opcode, in the table's order. -/
def listedErrors (op : Byte) : List ErrorStatus :=
  (statusTable.filter fun row => row.2.2.contains op).map Prod.fst

theorem mem_listedErrors {op : Byte} {e : ErrorStatus} :
    e ∈ listedErrors op ↔ ∃ row ∈ statusTable, row.1 = e ∧ op ∈ row.2.2 := by
  simp only [listedErrors, List.mem_map, List.mem_filter, List.contains_iff_mem, and_assoc,
    and_comm]

/-- R300: each command fails with the errors listed for its opcode only. The list its own lemma names is
`listedErrors` of its opcode, evaluated. -/
theorem exec_fails_as_listed (i : Instr) (s : State) :
    FailsAmong (listedErrors (opcode i)) (exec i s) := by
  cases i with
  | crcInit => exact failsAmong_ok _ _
  | crcUpdate data => exact failsAmong_ok _ _
  | crcRead => exact failsAmong_ok _ _
  | crcCompute data => exact failsAmong_ok _ _
  | sppPhEnc h => exact (errorsAmong_test _ _).answer s _
  | sppPhDec B => exact (sppPhDec_errors B).answer s _
  | sppPhValidate h => exact (errorsAmong_test _ _).answer s _
  | sppShEnc sh => exact (sppShEnc_errors sh).answer s _
  | sppShDec B => exact execSppShDec_fails B s
  | sppShValidate sh => exact (errorsAmong_test _ _).answer s _
  | tmPhEnc h => exact (errorsAmong_test _ _).answer s _
  | tmPhDec B => exact (tmPhDec_errors B).answer s _
  | tmPhValidate h => exact (errorsAmong_test _ _).answer s _
  | tmGetMcid h => exact failsAmong_ok _ _
  | tmGetGvcid h => exact failsAmong_ok _ _
  | tmShEnc sh => exact (errorsAmong_test _ _).answer s _
  | tmShDec B => exact (tmShDec_errors s.cfg B).answer s _
  | tmShValidate sh => exact (errorsAmong_test _ _).answer s _
  | tmfNew scid vcid data sh ocf sync =>
    exact (tmfNew_errors s.cfg scid vcid data sh ocf sync).answer s _
  | tmfEncode f => exact (tmfEncode_errors s.cfg f).answer s _
  | tmfEncodeNofec f => exact (frameBody_errors s.cfg f).answer s _
  | tmfDecode B => exact (tmfDecode_errors s.cfg B).answer s _
  | vcCreate v n => exact execVcCreate_fails v n s
  | vcAddFrame v f => exact execVcAddFrame_fails v f s
  | vcGetNextFrame v => exact execVcGetNextFrame_fails v s
  | vcHasFrames v => exact execVcHasFrames_fails v s
  | muxAddChannel v p => exact execMuxAddChannel_fails v p s
  | muxGetNextFrame => exact execMuxGetNextFrame_fails s
  | sppPktNew apid type data os => exact (sppPktNew_errors apid type data os).answer s _
  | sppPktEncode p => exact (sppPktEncode_errors p).answer s _
  | sppPktDecode B => exact (sppPktDecode_errors B).answer s _
  | sppPktValidate p => exact (errorsAmong_test _ _).answer s _

/-! ## The status octets -/

/-- R300: no error has the code of `OK`. -/
theorem statusOctet_eq_zero_iff (r : Response) : statusOctet r = 0x00 ↔ ∃ x, r = .ok x := by
  cases r with
  | ok x => simp [statusOctet]
  | fail e => cases e <;> simp [statusOctet, errorCode]

theorem statusTable_codes : ∀ row ∈ statusTable, statusOctet (.fail row.1) = row.2.1 := by decide

theorem mem_statusTable (e : ErrorStatus) : e ∈ statusTable.map Prod.fst := by
  cases e <;> decide

/-- R300: the error of the table's row with a code. -/
def errorOfCode (c : Byte) : Option ErrorStatus :=
  (statusTable.find? fun row => row.2.1 == c).map Prod.fst

theorem errorOfCode_errorCode (e : ErrorStatus) : errorOfCode (errorCode e) = some e := by
  cases e <;> rfl

/-- R300: a code can be read back, so no two errors share one. -/
theorem errorCode_injective : Function.Injective errorCode := fun e e' h =>
  Option.some.inj <| calc
    some e = errorOfCode (errorCode e) := (errorOfCode_errorCode e).symm
    _ = errorOfCode (errorCode e') := congrArg errorOfCode h
    _ = some e' := errorOfCode_errorCode e'

theorem statusOctet_produced (r : Response) :
    statusOctet r ≠ 0x0B ∧ statusOctet r ≠ 0x0F ∧ statusOctet r < 0x13 := by
  cases r with
  | ok x => simp only [statusOctet]; decide
  | fail e => cases e <;> simp only [statusOctet, errorCode] <;> decide

/-- Settles O60: the codes are read off the table, and who fails with which error is
`exec_fails_as_listed`. -/
theorem statusOctetsFollowTheTable : Obligations.StatusOctetsFollowTheTable :=
  ⟨statusOctet_eq_zero_iff, statusTable_codes, mem_statusTable, fun _ _ h => errorCode_injective h,
    statusOctet_produced, fun i s t e h hfail =>
      mem_listedErrors.1 (exec_fails_as_listed i s t e h hfail)⟩

end Sys2Proof.Machine
end

section
/-! Spec/70_reset_and_hazards.md as theorems: two hazards in which what a codec command writes is not
what its counterpart reads. A frame built with `sync` announces a secondary header of 2047 octets
whatever its own is (R352); a packet's decoder takes the field records of a secondary header for user
data (R353). -/

namespace Sys2Proof.Machine

/-! ## R352: the sentinel taken for a length -/

theorem ocfPart_length (ocf : Option Octets4) :
    ((ocf.map fun o => [o.o0, o.o1, o.o2, o.o3]).getD []).length =
      if ocf.isSome then 4 else 0 := by
  cases ocf <;> rfl

/-- R194, step 5: the parts of R90 under their own code do not decode when the pointer of the header
reaches beyond the octets after it. -/
theorem tmfDecode_partOctets_of_long_fhp {cfg : Config} {h : TmPrimaryHeader} {sh data : Bytes}
    {ocf : Option Octets4} (r : TmPhInRange h) (hflag : h.fshFlag = true)
    (hlong : sh.length + data.length + (if ocf.isSome then 4 else 0) < h.fhp.toNat) :
    tmfDecode cfg (partOctets h sh data ocf ++ be16 (crc16 (partOctets h sh data ocf))) =
      .error .malformedHeader := by
  have hassoc : partOctets h sh data ocf = tmPhPack h ++
      (sh ++ data ++ (ocf.map fun o => [o.o0, o.o1, o.o2, o.o3]).getD []) := by
    simp only [partOctets, List.append_assoc]
  rw [hassoc, tmfDecode_sealed r]
  refine tmfDecodeBody_of_bad_sec _ hflag (.inl ?_)
  rwa [List.length_append, List.length_append, ocfPart_length]

/-- Settles O30: the header of the built frame has the sentinel 2047 for its pointer
(`tmfNewHeader_fhp`), which reaches beyond the body. -/
theorem tmfSyncWithSecondaryHeaderFailsToDecode :
    Obligations.TmfSyncWithSecondaryHeaderFailsToDecode := by
  intro scid vcid data sh ocf f s hne hshort hnew
  obtain ⟨hlen, -, henc, rfl⟩ := tmfNew_of_exec_ok hnew
  refine ⟨_, exec_tmfEncode_sealedFrame henc, answer_error ?_⟩
  refine tmfDecode_partOctets_of_long_fhp (tmfNewHeader_inRange _ _ _ hlen)
    ((tmfNewHeader_fshFlag scid vcid sh true ocf.isSome).2 hne) ?_
  rwa [tmfNewHeader_fhp _ _ _ _ hlen]

/-! ## R353: field records taken for user data -/

theorem exists_append_two {L : Bytes} {n : Nat} (hL : n + 2 ≤ L.length) :
    ∃ U hi lo rest, L = U ++ hi :: lo :: rest ∧ U.length = n := by
  have hdrop : 2 ≤ (L.drop n).length := by rw [List.length_drop]; omega
  match htail : L.drop n, hdrop with
  | hi :: lo :: rest, _ =>
    exact ⟨L.take n, hi, lo, rest, by rw [← htail, List.take_append_drop],
      List.length_take_of_le (by omega)⟩

/-- R84: a record is never shorter than its two lengths and its tag. -/
theorem five_le_fieldRecords_length {fs : List SppField} (hne : fs ≠ []) :
    5 ≤ (fs.flatMap fieldOctets).length := by
  match fs, hne with
  | f :: fs, _ =>
    rw [List.flatMap_cons, List.length_append, fieldOctets_length]
    omega

/-- R264: a secondary header counts with its timestamp and its field records as they are written. -/
theorem sppPktSize_ge_of_sec {p : SpacePacket} {sh : SppSecondaryHeader} (hsec : p.sec = some sh) :
    6 + (8 + (sh.otherFields.flatMap fieldOctets).length) + p.userData.length ≤ sppPktSize p := by
  rw [sppPktSize_eq, hsec, fieldRecords_length]
  exact Nat.le_add_right _ _

/-- Settles O47: the records are at least five octets, so that the octets after the timestamp are the
announced number and two more; to the decoder these are the user data and the error control word, in
place of the records, which the size of the packet written already counts. -/
theorem sppPktDecodeLosesSecondaryFields : Obligations.SppPktDecodeLosesSecondaryFields := by
  intro p sh s hexec hflag hsec hne htags
  obtain ⟨r, hts, hdata, -, hmax⟩ := sppPktValid_iff.1 (sppPktValid_of_exec_ok hexec)
  have hrecords := five_le_fieldRecords_length hne
  have hsize := sppPktSize_ge_of_sec hsec
  obtain ⟨U, hi, lo, rest, hsplit, hU⟩ : ∃ U hi lo rest,
      sh.otherFields.flatMap fieldOctets ++ p.userData ++ sppPktTrailer p = U ++ hi :: lo :: rest ∧
        U.length = p.userData.length :=
    exists_append_two (by rw [List.length_append, List.length_append]; omega)
  have hwire : sppPhPack p.header ++ (be64 sh.timestamp ++ sh.otherFields.flatMap fieldOctets) ++
      p.userData ++ sppPktTrailer p =
        sppPhPack p.header ++ (be64 sh.timestamp ++ (U ++ hi :: lo :: rest)) := by
    rw [← hsplit]
    simp only [List.append_assoc]
  refine ⟨_, U, hi, lo, rest, exec_sppPktEncode_of_sec r (sppPktSec_of_tags hflag hsec htags) s,
    sppPktTrailer_eq p ▸ hsplit, hU, ?_⟩
  rw [hwire]
  refine exec_sppPktDecode_whole (.timestamp r hflag sh.timestamp) s (hU.trans hdata)
    (by simpa using hts sh hsec) ?_ (sppPktDecodeTrailer_eq _)
  simp only [octetsTaken, secBlock, be64_length]
  split <;> omega

end Sys2Proof.Machine
end
